-- ==== Sys2Proof/Word.lean ====
section
/-! DEFINITION. The words of the HDLC frame parser (00_scope.md R7): the byte and the uint16. -/

namespace Sys2Proof

/-- A byte, an unsigned 8-bit value (R7). -/
abbrev Byte := BitVec 8

/-- A uint16, an unsigned 16-bit value (R7). -/
abbrev Half := BitVec 16

end Sys2Proof
end

