-- ==== Sys2Proof/Config.lean ====
section
/-! DEFINITION. The two open parameters of the block (00_scope.md R6), the constants of R5, and the recommended
instance of the checksum parameter (44_checksum_length_validators.md R161), which the machine does not use. -/

namespace Sys2Proof.Config

/-- The parameter `CK` (R6, R160, log 1): a total function of the bytes of its argument, about which nothing else is
assumed. It has no body: a statement about it holds for every checksum function. -/
opaque ck : List Byte → Half

/-- How much larger than 2049 bytes the frame buffer is: open (R6, 93_implementation_defined.md P2, log 2). -/
opaque bufCapExtra : Nat

/-- `BUF_CAP`, the capacity of the frame buffer: any natural number with `BUF_CAP >= 2049` (R6). -/
def bufCap : Nat := bufCapExtra + 2049

/-- `FLAG`, the delimiter byte (R5). -/
def flagByte : Byte := 0x7E#8

/-- `ADDR_MAX`, the most bytes one address field can take (R5). -/
def addrMax : Nat := 4

/-- One bit of the reflected CRC-16 register (R161). -/
def crcBit (crc : Half) : Half :=
  if crc &&& 1#16 = 1#16 then (crc >>> 1) ^^^ 0x8408#16 else crc >>> 1

/-- One byte taken into the reflected CRC-16 register (R161). -/
def crcByte (crc : Half) (b : Byte) : Half :=
  crcBit (crcBit (crcBit (crcBit (crcBit (crcBit (crcBit (crcBit (crc ^^^ b.setWidth 16))))))))

/-- `CRC16_X25` (R161), the recommended instance of `CK`. PRESUMED (93_implementation_defined.md G1, log 8): general knowledge that
the spec checked against the literals of the source. Used by tests only; the machine keeps `ck` open. -/
def crc16X25 (bytes : List Byte) : Half :=
  bytes.foldl crcByte 0xFFFF#16 ^^^ 0xFFFF#16

/-- `CK_ZERO` (95_test_vectors.md): the legal instance that returns 0 on every byte sequence. Used by tests only. -/
def ckZero (_ : List Byte) : Half := 0#16

end Sys2Proof.Config
end

