-- ==== Sys2Proof/Syntax.lean ====
section
/-! DEFINITION. The names the spec gives (phases, classes, error kinds, registers) and the operations of the block
(00_scope.md section 5): one constructor of `Instr` per row of spec/opcode_table.json. -/

namespace Sys2Proof

/-- The sequencer's position (10_state.md R14). Code 15 is never taken, so no constructor stands for it (U10). -/
inductive Phase where
  | idle | flagO | ffmt | dest | src | ctrl | hcs | ilen | info | fcs | vlen | flagC | asm | done | error
deriving DecidableEq, Repr

/-- The read-only view `STATUS` of the phase (R14). -/
inductive Status where
  | idle | busy | done | error
deriving DecidableEq, Repr

/-- The frame-type names the classifier returns (R27); `none` is the empty string. -/
inductive FrameClass where
  | none | i | snrm | disc | ua | dm | frmr | ui | rnr | rr
deriving DecidableEq, Repr

/-- The values of `ERR.KIND` (R32). -/
inductive ErrKind where
  | none | frameGuard | underrun | checksum | length
deriving DecidableEq, Repr

/-- The values of `ERR.CK` (R33): which checksum a ChecksumError is about. -/
inductive CkKind where
  | hcs | fcs
deriving DecidableEq, Repr

/-- The registers by name (10_state.md R10): what the host's RESULT names (R197), and what a model fault names (R224).
`buf k` is the byte of the frame buffer at offset `k`. -/
inductive Reg where
  | status | n | phase | cur
  | flag | len | seg | fmtType
  | dest (k : Fin 4) | destN | src (k : Fin 4) | srcN
  | lsb | pf | recv | send | cls
  | hcs | payload | infoOff | infoN | fcs | flagEnd
  | errKind | errCk | errExpected | errActual | errPos
  | buf (k : Nat)
deriving DecidableEq, Repr

/-- The operations of the block, one constructor per row of spec/opcode_table.json, in the table's order. The rows of
`FTYPE` and `CLASSIFY` carry the bits that their pattern leaves free. -/
inductive Instr where
  -- Frame Reader (40_frame_reader.md)
  | rd (n : Nat)
  | cnt
  | raw (a b : Nat)
  -- Field Extractors (41_field_extractors.md)
  | xflagO
  | xffmt
  | xaddrD
  | xaddrS
  | xctrl
  | xhcs
  | xinfo
  | xfcs
  | xflagC
  -- Bit-Field Decoders (42_bitfield_decoders.md)
  | be16 (b0 b1 : Byte)
  | swap16 (v : Half)
  | flen (w : Half)
  | fseg (w : Half)
  | ftype (w : Half)
  | ftypeA (x : BitVec 12)
  | ftypeOther (t : BitVec 4) (x : BitVec 12)
  | astop (b : Byte)
  | clsb (c : Byte)
  | cpf (c : Byte)
  | crecv (c : Byte)
  | csend (c : Byte)
  -- Control-Type Classifier (43_control_classifier.md)
  | classify (lsb receive send : Nat)
  | classifyI (r : BitVec 3) (p : BitVec 1) (s : BitVec 3)
  | classifySnrm (p : BitVec 1)
  | classifyDisc (p : BitVec 1)
  | classifyUa (p : BitVec 1)
  | classifyDm (p : BitVec 1)
  | classifyFrmr (p : BitVec 1)
  | classifyUi (p : BitVec 1)
  | classifyRnr (r : BitVec 3) (p : BitVec 1)
  | classifyRr (r : BitVec 3) (p : BitVec 1)
  | classifyNone (r : BitVec 3) (p : BitVec 1) (s : BitVec 3)
  -- Checksum and Length Validator (44_checksum_length_validators.md)
  | cksum (s : List Byte)
  | vchkH (embedded : Half) (range : List Byte) (pos : Nat)
  | vchkF (embedded : Half) (range : List Byte) (pos : Nat)
  | vlen
  | ilen
  -- Message Assembler, whole call, host (45_sequencer_assembler_host.md)
  | asm
  | decode
  | load (s : List Byte)
  | start
  | result (r : Reg)
deriving DecidableEq, Repr

/-- Where the bits of an encoded operation lie: the same bits mean different things by position (30_encoding.md).
DESIGN CHOICE (log 6): the block has no instruction memory (92_eei_decisions.md D22). -/
inductive Place where
  /-- the `PHASE` register: the 4-bit code, in the low bits of one byte (R14) -/
  | phase
  /-- the byte in a flag position of the frame (R61) -/
  | flag
  /-- the frame-format word, two bytes, high-order byte first (R62) -/
  | frameFormat
  /-- the control byte (R64, R70) -/
  | control
  /-- the operand word of one of the functions, as the table draws it -/
  | be16 | swap16 | flen | fseg | ftype | astop | clsb | cpf | crecv | csend | classify
deriving DecidableEq, Repr

/-- Why the decoder rejects bits. -/
inductive Reject where
  /-- fewer bytes than the place needs -/
  | tooShort
  /-- phase code 0: `IDLE` performs no operation (R14) -/
  | phaseIdle
  /-- phase code 13: `DONE` performs no operation (R14) -/
  | phaseDone
  /-- phase code 14: `ERROR` performs no operation (R14) -/
  | phaseError
  /-- phase code 15 is never taken (R14, U10), nor is a code of more than 4 bits -/
  | noSuchPhase
  /-- a byte in a flag position that is not 0x7E (R61) -/
  | notFlag
deriving DecidableEq, Repr

/-- One row of the match/mask table of 30_encoding.md R70. -/
structure ClassRow where
  cls   : FrameClass
  mask  : Byte
  value : Byte
deriving DecidableEq, Repr

end Sys2Proof
end

