-- ==== Sys2Proof/Machine/Operands.lean ====
section
/-! DEFINITION. Operand assembly: the 16-bit bit-field decoders (42_bitfield_decoders.md R121 to R125), the layout of the
control byte and of the frame-format word (30_encoding.md R62, R64), and the numeric codes of the names. -/

namespace Sys2Proof.Machine

/-- `BE16` (R121): the byte read first is the high-order byte. -/
def be16 (b0 b1 : Byte) : Half := b0 ++ b1

/-- `be16` of a sequence of exactly two bytes (R121, R67). -/
def be16Seq (s : List Byte) : Half := be16 (s.getD 0 0#8) (s.getD 1 0#8)

/-- `SWAP16` (R122): `((v >> 8) | (v << 8)) & 0xFFFF`; sixteen bits drop what the mask drops. -/
def swap16 (v : Half) : Half := (v >>> 8) ||| (v <<< 8)

/-- `FLEN` (R123): bits 10:0 of the frame-format word. -/
def flen (w : Half) : BitVec 11 := w.extractLsb' 0 11

/-- `FSEG` (R124): 1 exactly when `w & 0x800` is not 0. -/
def fseg (w : Half) : BitVec 1 := if w &&& 0x800#16 ≠ 0#16 then 1#1 else 0#1

/-- `FTYPE` (R125, R72): raw `0xA000` becomes 3, every other raw value passes through unshifted. -/
def ftype (w : Half) : Half :=
  if w &&& 0xF000#16 = 0xA000#16 then 3#16 else w &&& 0xF000#16

/-- A frame-format word of type nibble `t` and low twelve bits `x` (R62). -/
def formatWord (t : BitVec 4) (x : BitVec 12) : Half := t ++ x

/-- A control byte from its fields receive, poll/final, send and lsb (R64). -/
def ctrlByte (r : BitVec 3) (p : BitVec 1) (s : BitVec 3) (l : BitVec 1) : Byte := r ++ p ++ s ++ l

/-- The phase's 4-bit code (R14). -/
def phaseCode : Phase → BitVec 4
  | .idle => 0#4 | .flagO => 1#4 | .ffmt => 2#4 | .dest => 3#4 | .src => 4#4
  | .ctrl => 5#4 | .hcs => 6#4 | .ilen => 7#4 | .info => 8#4 | .fcs => 9#4
  | .vlen => 10#4 | .flagC => 11#4 | .asm => 12#4 | .done => 13#4 | .error => 14#4

/-- `STATUS` as a view of `PHASE` (R14). -/
def phaseStatus : Phase → Status
  | .idle => .idle
  | .done => .done
  | .error => .error
  | .flagO | .ffmt | .dest | .src | .ctrl | .hcs | .ilen | .info | .fcs | .vlen | .flagC | .asm => .busy

/-- The code of a class in `F.CLASS` (R27). -/
def classCode : FrameClass → BitVec 4
  | .none => 0#4 | .i => 1#4 | .snrm => 2#4 | .disc => 3#4 | .ua => 4#4
  | .dm => 5#4 | .frmr => 6#4 | .ui => 7#4 | .rnr => 8#4 | .rr => 9#4

/-- The source's string for a class (R27, R86). -/
def className : FrameClass → String
  | .none => "" | .i => "I" | .snrm => "SNRM" | .disc => "DISC" | .ua => "UA"
  | .dm => "DM" | .frmr => "FRMR" | .ui => "UI" | .rnr => "RNR" | .rr => "RR"

/-- The code of an error kind in `ERR.KIND` (R32, R211). -/
def errKindCode : ErrKind → BitVec 3
  | .none => 0#3 | .frameGuard => 1#3 | .underrun => 2#3 | .checksum => 3#3 | .length => 4#3

/-- The code of a checksum kind in `ERR.CK` (R33). -/
def ckKindCode : CkKind → BitVec 1
  | .hcs => 0#1 | .fcs => 1#1

end Sys2Proof.Machine
end

