-- ==== Sys2Proof/Machine/Flags.lean ====
section
/-! DEFINITION. The bits and fields read from an address or control byte (42_bitfield_decoders.md R126 to R130) and the
Control-Type Classifier (43_control_classifier.md R141). The block has no condition codes (10_state.md R36). -/

namespace Sys2Proof.Machine

/-- `ASTOP` (R126): bit 0 of the address byte; 1 ends the address field. -/
def astop (b : Byte) : BitVec 1 := b.extractLsb' 0 1

/-- `CLSB` (R127): bit 0 of the control byte. -/
def clsb (c : Byte) : BitVec 1 := c.extractLsb' 0 1

/-- `CPF` (R128), in the source's form: 1 when `c & 0x10` is 0x10, else `c & 0x10` itself, which is then 0. -/
def cpf (c : Byte) : BitVec 1 :=
  if c &&& 0x10#8 = 0x10#8 then 1#1 else (c &&& 0x10#8).setWidth 1

/-- `CRECV` (R129): bits 7:5 of the control byte, not shifted. -/
def crecv (c : Byte) : Byte := c &&& 0xE0#8

/-- `CSEND` (R130): bits 3:1 of the control byte, not shifted. -/
def csend (c : Byte) : Byte := c &&& 0x0E#8

/-- `CLASSIFY` (R141): the ordered list, first match wins, total on any three natural numbers. -/
def classify (lsb receive send : Nat) : FrameClass :=
  if lsb = 0 then .i
  else if receive = 0x80 ∧ send = 0x2 then .snrm
  else if receive = 0x40 ∧ send = 0x2 then .disc
  else if receive = 0x60 ∧ send = 0x2 then .ua
  else if receive = 0x00 ∧ send = 0xE then .dm
  else if receive = 0x80 ∧ send = 0x6 then .frmr
  else if receive = 0x00 ∧ send = 0x2 then .ui
  else if send = 0x4 then .rnr
  else if send = 0x0 then .rr
  else .none

/-- The class of a control byte: `CLASSIFY` on the three values the Control Extractor computes (R140). -/
def classifyByte (c : Byte) : FrameClass := classify (clsb c).toNat (crecv c).toNat (csend c).toNat

/-- The match/mask table of 30_encoding.md R70; a byte that no row matches has class NONE. -/
def classRows : List ClassRow :=
  [⟨.i, 0x01#8, 0x00#8⟩, ⟨.snrm, 0xEF#8, 0x83#8⟩, ⟨.disc, 0xEF#8, 0x43#8⟩, ⟨.ua, 0xEF#8, 0x63#8⟩,
   ⟨.dm, 0xEF#8, 0x0F#8⟩, ⟨.frmr, 0xEF#8, 0x87#8⟩, ⟨.ui, 0xEF#8, 0x03#8⟩, ⟨.rnr, 0x0F#8, 0x05#8⟩,
   ⟨.rr, 0x0F#8, 0x01#8⟩]

/-- Row `k` applies when `(c & mask_k) == match_k` (R70). -/
def rowMatches (row : ClassRow) (c : Byte) : Bool := c &&& row.mask == row.value

/-- The class of a control byte by the table of R70. -/
def classByTable (c : Byte) : FrameClass :=
  match classRows.find? (fun row => rowMatches row c) with
  | some row => row.cls
  | none => .none

end Sys2Proof.Machine
end

