-- ==== Sys2Proof/Machine/State.lean ====
section
/-! DEFINITION. The state of one parser (10_state.md R10) as plain data, the reasons a step can stop, and the state after
power-on reset (70_reset_and_hazards.md R240). -/

namespace Sys2Proof.Machine

/-- The frame buffer: (offset, byte) pairs, offsets strictly rising. An unlisted offset has no value (R11, log 3). -/
abbrev Mem := List Host.Cell

/-- The address registers `F.DEST` or `F.SRC` (R21, R22): four bytes in wire order and the count of those read. -/
structure AddrRegs where
  b0 : Option Byte
  b1 : Option Byte
  b2 : Option Byte
  b3 : Option Byte
  n  : Option Nat
deriving DecidableEq, Repr

/-- The field registers (R16). `none` is the spec's own "holds no value" (R15). -/
structure Fields where
  flag    : Option Byte
  len     : Option (BitVec 11)
  seg     : Option (BitVec 1)
  fmtType : Option Half
  dest    : AddrRegs
  src     : AddrRegs
  lsb     : Option (BitVec 1)
  pf      : Option (BitVec 1)
  recv    : Option Byte
  send    : Option Byte
  cls     : Option FrameClass
  hcs     : Option Half
  payload : Option (BitVec 1)
  infoOff : Option Nat
  infoN   : Option Nat
  fcs     : Option Half
  flagEnd : Option Byte
deriving DecidableEq, Repr

/-- The error registers (R32 to R35). -/
structure ErrRegs where
  kind     : ErrKind
  ck       : Option CkKind
  expected : Option Nat
  actual   : Option Nat
  pos      : Option Nat
deriving DecidableEq, Repr

/-- The control record of a DecodedFrame (R191). -/
structure Control where
  lsb             : BitVec 1
  commandResponse : FrameClass
  receive         : Byte
  send            : Byte
  pollFinal       : BitVec 1
deriving DecidableEq, Repr

/-- A `DecodedFrame` value (R191). -/
structure DecodedFrame where
  flag            : Byte
  frameLen        : BitVec 11
  segmentationBit : BitVec 1
  formatType      : Half
  destAddr        : List Byte
  srcAddr         : List Byte
  control         : Control
  hcs             : Half
  information     : Option (List Byte)
  fcs             : Option Half
  flagEnd         : Byte
deriving DecidableEq, Repr

/-- The four decode errors with their context (R191, R211, R212). The `expected` of a FrameGuardError is always 0x7E. -/
inductive DecodeError where
  | frameGuard (pos : Nat) (actual : Byte)
  | underrun (pos need remaining : Nat)
  | checksum (kind : CkKind) (expected computed : Half) (pos : Nat)
  | length (expected actual pos : Nat)
deriving DecidableEq, Repr

/-- What an operation or a host command gives back. -/
inductive Value where
  | bit (v : BitVec 1)
  | byte (v : Byte)
  | half (v : Half)
  | len (v : BitVec 11)
  | num (v : Nat)
  | bytes (v : List Byte)
  | cls (v : FrameClass)
  | status (v : Status)
  | phase (v : Phase)
  | errKind (v : ErrKind)
  | ckKind (v : CkKind)
  | frame (v : DecodedFrame)
  | failed (v : DecodeError)
deriving DecidableEq, Repr

/-- What comes before the sequencer's next steps. DESIGN CHOICE (log 4): the spec has no list of moves. -/
inductive Move where
  /-- an operation: one of the host's three commands (R194), or an operation of the block exercised on its own -/
  | op (i : Instr)
  /-- nothing from outside: the sequencer takes one step -/
  | tick
  /-- a power-on reset (70_reset_and_hazards.md R240) -/
  | powerOn
deriving DecidableEq, Repr

/-- The whole state of one parser (R10), and two fields of the model's own: `ret`, what the last function operation or host
command gave back (log 5), and `pending`, the moves that come before the sequencer's next steps, oldest first (log 4). No
rule of the spec's reads `ret`. -/
structure State where
  mem     : Mem
  n       : Nat
  phase   : Phase
  cur     : Nat
  f       : Fields
  err     : ErrRegs
  ret     : Option Value
  pending : List Move
deriving DecidableEq, Repr

/-- Why the model stops with a fault (60_exceptions.md R224). No frame content can cause one. -/
inductive Fault where
  /-- a read of a register or buffer byte that holds no value (R15, R224 (a), U5, log 11); raised by every operation that
  reads registers or the buffer; safe -/
  | noValue (r : Reg)
  /-- `MemRead` outside the valid bytes (R41, R224 (b), log 11); raised by the buffer reads of RAW, DECODE and RESULT; safe -/
  | outsideBuffer (addr count : Nat)
  /-- `RAW a b` outside its domain `a <= b <= CUR` (R93, log 11); raised by RAW, XHCS, XFCS; safe -/
  | rawRange (a b : Nat)
  /-- RESULT of a register that cannot be read in the present STATUS (R197, U9, log 12); raised by RESULT; safe -/
  | notReadable (r : Reg)
deriving DecidableEq, Repr

/-- Why the model refuses a move. -/
inductive Refusal where
  /-- an instruction that has no meaning yet, by its mnemonic; raised by exec's arms alone; safe -/
  | notModelled (mnemonic : String)
  /-- LOAD, START or DECODE while STATUS is BUSY: the host has no such move (R195, R196, R198, U8, log 12); safe -/
  | busy (mnemonic : String)
  /-- LOAD of more than BUF_CAP bytes: the host has no such move (R195, U4, log 12); raised by LOAD; safe -/
  | tooLong
  /-- a phase operation outside its own phase: it runs only there (R100, R181, log 10); raised by the phase operations; safe -/
  | outOfPhase (mnemonic : String)
  /-- a case row given a word that is not of the row (R125, R70, log 10); raised by FTYPE.OTHER and CLASSIFY.NONE; safe -/
  | rowDoesNotApply (mnemonic : String)
deriving DecidableEq, Repr

/-- An address register pair that holds no value (R15). -/
def AddrRegs.empty : AddrRegs := ⟨none, none, none, none, none⟩

/-- Every field register holds no value (R15, R38). -/
def Fields.empty : Fields where
  flag := none
  len := none
  seg := none
  fmtType := none
  dest := AddrRegs.empty
  src := AddrRegs.empty
  lsb := none
  pf := none
  recv := none
  send := none
  cls := none
  hcs := none
  payload := none
  infoOff := none
  infoN := none
  fcs := none
  flagEnd := none

/-- No error is recorded (R32 to R35, R38). -/
def ErrRegs.clear : ErrRegs := ⟨.none, none, none, none, none⟩

/-- The state after power-on reset (R38, R240). `BUF` is unspecified and unreachable: nothing is listed. -/
def State.reset : State where
  mem := []
  n := 0
  phase := .idle
  cur := 0
  f := Fields.empty
  err := ErrRegs.clear
  ret := none
  pending := []

end Sys2Proof.Machine
end

