-- ==== Sys2Proof/Machine/Ops.lean ====
section
/-! DEFINITION. The named operations over the frame buffer and the registers, and taking an error (60_exceptions.md R213). -/

namespace Sys2Proof.Machine

/-! ### Updates of the state -/

/-- `CUR <- c`. -/
def State.setCur (c : Nat) (s : State) : State := { s with cur := c }

/-- `PHASE <- p`, the block's only control transfer (45_sequencer_assembler_host.md R181). -/
def State.setPhase (p : Phase) (s : State) : State := { s with phase := p }

/-- The field registers become `f`. -/
def State.setF (f : Fields) (s : State) : State := { s with f := f }

/-- The error registers become `e`. -/
def State.setErr (e : ErrRegs) (s : State) : State := { s with err := e }

/-- The frame buffer becomes `m` with `n` valid bytes. -/
def State.setBuf (m : Mem) (n : Nat) (s : State) : State := { s with mem := m, n := n }

/-- The operation gives back `v` (log 5). -/
def State.returns (v : Value) (s : State) : State := { s with ret := some v }

/-- The moves still to come become `ms` (log 4). -/
def State.setPending (ms : List Move) (s : State) : State := { s with pending := ms }

/-- Every field register and the error record are cleared and `CUR <- 0` (R195, R196, R241). -/
def State.clearRun (s : State) : State := ((s.setCur 0).setF Fields.empty).setErr ErrRegs.clear

/-- A power-on reset (70_reset_and_hazards.md R240), whatever the phase: the state of `State.reset`, with no outcome of an
abandoned run retained. The moves still to come are the outside's, no state of the block, and stay (log 4). -/
def powerOn (s : State) : State := State.reset.setPending s.pending

/-! ### The frame buffer -/

/-- The byte listed at an offset; none where nothing has been loaded (10_state.md R11). -/
def Mem.read : Mem → Nat → Option Byte
  | [], _ => none
  | (k, b) :: m, a => if k = a then some b else Mem.read m a

/-- Writes one byte, keeping the offsets strictly rising. -/
def Mem.write : Mem → Nat → Byte → Mem
  | [], a, v => [(a, v)]
  | (k, b) :: m, a, v =>
    if a < k then (a, v) :: (k, b) :: m
    else if a = k then (a, v) :: m
    else (k, b) :: Mem.write m a v

/-- `MemWrite(addr, |v|, v)` (00_scope.md R8). -/
def Mem.writeBytes : Mem → Nat → List Byte → Mem
  | m, _, [] => m
  | m, a, v :: vs => Mem.writeBytes (Mem.write m a v) (a + 1) vs

/-- The `count` bytes from an offset on, lowest offset first; none if one of them has no value. -/
def Mem.readBytes (m : Mem) : Nat → Nat → Option (List Byte)
  | _, 0 => some []
  | a, count + 1 =>
    match Mem.read m a, Mem.readBytes m (a + 1) count with
    | some b, some bs => some (b :: bs)
    | _, _ => none

/-- The canonical form: offsets strictly rising. -/
def Mem.wf : Mem → Bool
  | [] => true
  | [_] => true
  | (a, _) :: (b, v) :: m => decide (a < b) && Mem.wf ((b, v) :: m)

/-- `MemRead(addr, n)` (20_memory.md R41): defined when `addr + n <= N`, with no side effect. -/
def memRead (addr count : Nat) (s : State) : Except Fault (List Byte) :=
  if s.n < addr + count then .error (.outsideBuffer addr count)
  else
    match s.mem.readBytes addr count with
    | some bs => .ok bs
    | none => .error (.noValue (.buf addr))

/-! ### Results of operations -/

/-- How an operation inside a step ends: with a result, by raising a decode error, or in a model fault. -/
inductive Res (α : Type) where
  | ok (a : α) (s : State)
  | raised (e : DecodeError) (s : State)
  | fault (r : Fault)

/-- Goes on with the result; after a raise or a fault nothing later runs (R213). -/
def Res.bind {α β : Type} (r : Res α) (k : α → State → Res β) : Res β :=
  match r with
  | .ok a s => k a s
  | .raised e s => .raised e s
  | .fault x => .fault x

/-- The value of a register, or the fault of reading one that holds no value (R15, R224). -/
def readReg {α : Type} (r : Reg) (v : Option α) (s : State) : Res α :=
  match v with
  | some a => .ok a s
  | none => .fault (.noValue r)

/-! ### Taking an error -/

/-- What each error puts into the error registers (R211, R212, R214 to R217). -/
def errorRegs : DecodeError → ErrRegs
  | .frameGuard pos actual => ⟨.frameGuard, none, some Config.flagByte.toNat, some actual.toNat, some pos⟩
  | .underrun pos need remaining => ⟨.underrun, none, some need, some remaining, some pos⟩
  | .checksum kind expected computed pos =>
    ⟨.checksum, some kind, some expected.toNat, some computed.toNat, some pos⟩
  | .length expected actual pos => ⟨.length, none, some expected, some actual, some pos⟩

/-- `raise E(info)` (R213): the error registers are written, every field register holds no value again, and the phase is
`ERROR`. `BUF`, `N` and `CUR` stay as they are. Nothing is saved and there is no return (R221, R222). -/
def raise (e : DecodeError) (s : State) : State :=
  ((s.setErr (errorRegs e)).setF Fields.empty).setPhase .error

/-- The outcome of a step that ends in `r`: `k` on its result, the raised error taken, or the fault. -/
def finish {α : Type} (r : Res α) (k : α → State → State) : Host.Outcome State Fault Refusal :=
  match r with
  | .ok a s => .next (k a s)
  | .raised e s => .next (raise e s)
  | .fault x => .fault x

/-- An operation of one phase (41_field_extractors.md R100, R180): it runs only in its own phase, and on success the phase
becomes the one its body answers (R181). -/
def phaseOp (p : Phase) (mnemonic : String) (body : State → Res Phase) (s : State) : Host.Outcome State Fault Refusal :=
  if s.phase = p then finish (body s) (fun next t => t.setPhase next)
  else .refused (.outOfPhase mnemonic)

/-! ### The Frame Reader's reads -/

/-- `RD(n)` (40_frame_reader.md R91): all `n` bytes and `CUR + n`, or an UnderrunError that leaves `CUR` alone. The test
`N - CUR < n` is written without the subtraction. -/
def rd (count : Nat) (s : State) : Res (List Byte) :=
  if s.n < s.cur + count then .raised (.underrun s.cur count (s.n - s.cur)) s
  else
    match memRead s.cur count s with
    | .ok bs => .ok bs (s.setCur (s.cur + count))
    | .error x => .fault x

/-- `RD(1)[0]`. -/
def rdByte (s : State) : Res Byte := (rd 1 s).bind (fun bs t => .ok (bs.getD 0 0#8) t)

/-- `be16(RD(2))` (R121). -/
def rdHalf (s : State) : Res Half := (rd 2 s).bind (fun bs t => .ok (be16Seq bs) t)

/-- `RAW(a, b)` (R93): the bytes at offsets `a` up to but not including `b`, with `a <= b <= CUR`; `CUR` is not moved. -/
def raw (a b : Nat) (s : State) : Res (List Byte) :=
  if a ≤ b ∧ b ≤ s.cur then
    match memRead a (b - a) s with
    | .ok bs => .ok bs s
    | .error x => .fault x
  else .fault (.rawRange a b)

/-! ### Shared parts of the extractors -/

/-- The Flag Extractor's reading and test, for both flags (R101, R109, R214). -/
def readFlag (s : State) : Res Byte :=
  (rdByte s).bind (fun b t =>
    if b ≠ Config.flagByte then .raised (.frameGuard s.cur b) t else .ok b t)

/-- The address loop (R103): one byte at a time until the stop bit, at most `fuel` more. `acc` is what was read so far. -/
def readAddr : Nat → List Byte → State → Res (List Byte)
  | 0, acc, s => .ok acc s
  | fuel + 1, acc, s =>
    (rdByte s).bind (fun b t =>
      if astop b = 1#1 then .ok (acc ++ [b]) t else readAddr fuel (acc ++ [b]) t)

/-- The address registers after the bytes `bs` were stored in wire order (R21, R103). -/
def addrRegs (bs : List Byte) : AddrRegs := ⟨bs[0]?, bs[1]?, bs[2]?, bs[3]?, some bs.length⟩

/-- The checksum comparison (44_checksum_length_validators.md R162 to R164): the error, or none where the values agree. -/
def checkSum (ck : List Byte → Half) (kind : CkKind) (embedded : Half) (range : List Byte) (pos : Nat) :
    Option DecodeError :=
  if ck range ≠ embedded then some (.checksum kind embedded (ck range) pos) else none

/-- Reads a checksum field, swaps it and compares it with `CK` of everything after the opening flag (R106, R108). -/
def readCheck (ck : List Byte → Half) (kind : CkKind) (s : State) : Res Half :=
  (rdHalf s).bind (fun w t =>
    (raw 1 s.cur t).bind (fun range u =>
      match checkSum ck kind (swap16 w) range s.cur with
      | some e => .raised e u
      | none => .ok (swap16 w) u))

end Sys2Proof.Machine
end

