-- ==== Sys2Proof/Machine/BitFields.lean ====
section
/-! DEFINITION. The Bit-Field Decoders as operations of their own (42_bitfield_decoders.md R120 to R130): functions of the
operand alone, whose result is given back. -/

namespace Sys2Proof.Machine

/-- `BE16` (R121). -/
def execBe16 (b0 b1 : Byte) (s : State) : Host.Outcome State Fault Refusal :=
  .next (s.returns (.half (be16 b0 b1)))

/-- `SWAP16` (R122). -/
def execSwap16 (v : Half) (s : State) : Host.Outcome State Fault Refusal :=
  .next (s.returns (.half (swap16 v)))

/-- `FLEN` (R123). -/
def execFlen (w : Half) (s : State) : Host.Outcome State Fault Refusal :=
  .next (s.returns (.len (flen w)))

/-- `FSEG` (R124). -/
def execFseg (w : Half) (s : State) : Host.Outcome State Fault Refusal :=
  .next (s.returns (.bit (fseg w)))

/-- `FTYPE` (R125). -/
def execFtype (w : Half) (s : State) : Host.Outcome State Fault Refusal :=
  .next (s.returns (.half (ftype w)))

/-- `FTYPE.A` (R125, R72): the words of type nibble 0xA. -/
def execFtypeA (x : BitVec 12) (s : State) : Host.Outcome State Fault Refusal :=
  .next (s.returns (.half (ftype (formatWord 0xA#4 x))))

/-- `FTYPE.OTHER` (R125, R72): the words of any other type nibble. A word of nibble 0xA is not of this row. -/
def execFtypeOther (t : BitVec 4) (x : BitVec 12) (s : State) : Host.Outcome State Fault Refusal :=
  if t = 0xA#4 then .refused (.rowDoesNotApply "FTYPE.OTHER")
  else .next (s.returns (.half (ftype (formatWord t x))))

/-- `ASTOP` (R126). -/
def execAstop (b : Byte) (s : State) : Host.Outcome State Fault Refusal :=
  .next (s.returns (.bit (astop b)))

/-- `CLSB` (R127). -/
def execClsb (c : Byte) (s : State) : Host.Outcome State Fault Refusal :=
  .next (s.returns (.bit (clsb c)))

/-- `CPF` (R128). -/
def execCpf (c : Byte) (s : State) : Host.Outcome State Fault Refusal :=
  .next (s.returns (.bit (cpf c)))

/-- `CRECV` (R129). -/
def execCrecv (c : Byte) (s : State) : Host.Outcome State Fault Refusal :=
  .next (s.returns (.byte (crecv c)))

/-- `CSEND` (R130). -/
def execCsend (c : Byte) (s : State) : Host.Outcome State Fault Refusal :=
  .next (s.returns (.byte (csend c)))

end Sys2Proof.Machine
end

