-- ==== Sys2Proof/Machine/Classifier.lean ====
section
/-! DEFINITION. The Control-Type Classifier as an operation of its own, and its ten rows (43_control_classifier.md R141 to
R151). -/

namespace Sys2Proof.Machine

/-- `CLASSIFY` (R141). -/
def execClassify (lsb receive send : Nat) (s : State) : Host.Outcome State Fault Refusal :=
  .next (s.returns (.cls (classify lsb receive send)))

/-- One row of the classifier on a control byte: where the ordered list of R141 comes to this row it gives back the row's
class; a byte the list gives another class is not of the row (R70, R151). -/
def classRow (cls : FrameClass) (mnemonic : String) (c : Byte) (s : State) : Host.Outcome State Fault Refusal :=
  if classifyByte c = cls then .next (s.returns (.cls cls)) else .refused (.rowDoesNotApply mnemonic)

/-- `CLASSIFY.I` (R142), pattern `rrrpsss0`. -/
def execClassifyI (r : BitVec 3) (p : BitVec 1) (k : BitVec 3) (s : State) : Host.Outcome State Fault Refusal :=
  classRow .i "CLASSIFY.I" (ctrlByte r p k 0#1) s

/-- `CLASSIFY.SNRM` (R143), pattern `100p0011`. -/
def execClassifySnrm (p : BitVec 1) (s : State) : Host.Outcome State Fault Refusal :=
  classRow .snrm "CLASSIFY.SNRM" (ctrlByte 0b100#3 p 0b001#3 1#1) s

/-- `CLASSIFY.DISC` (R144), pattern `010p0011`. -/
def execClassifyDisc (p : BitVec 1) (s : State) : Host.Outcome State Fault Refusal :=
  classRow .disc "CLASSIFY.DISC" (ctrlByte 0b010#3 p 0b001#3 1#1) s

/-- `CLASSIFY.UA` (R145), pattern `011p0011`. -/
def execClassifyUa (p : BitVec 1) (s : State) : Host.Outcome State Fault Refusal :=
  classRow .ua "CLASSIFY.UA" (ctrlByte 0b011#3 p 0b001#3 1#1) s

/-- `CLASSIFY.DM` (R146), pattern `000p1111`. -/
def execClassifyDm (p : BitVec 1) (s : State) : Host.Outcome State Fault Refusal :=
  classRow .dm "CLASSIFY.DM" (ctrlByte 0b000#3 p 0b111#3 1#1) s

/-- `CLASSIFY.FRMR` (R147), pattern `100p0111`. -/
def execClassifyFrmr (p : BitVec 1) (s : State) : Host.Outcome State Fault Refusal :=
  classRow .frmr "CLASSIFY.FRMR" (ctrlByte 0b100#3 p 0b011#3 1#1) s

/-- `CLASSIFY.UI` (R148), pattern `000p0011`. -/
def execClassifyUi (p : BitVec 1) (s : State) : Host.Outcome State Fault Refusal :=
  classRow .ui "CLASSIFY.UI" (ctrlByte 0b000#3 p 0b001#3 1#1) s

/-- `CLASSIFY.RNR` (R149), pattern `rrrp0101`. -/
def execClassifyRnr (r : BitVec 3) (p : BitVec 1) (s : State) : Host.Outcome State Fault Refusal :=
  classRow .rnr "CLASSIFY.RNR" (ctrlByte r p 0b010#3 1#1) s

/-- `CLASSIFY.RR` (R150), pattern `rrrp0001`. -/
def execClassifyRr (r : BitVec 3) (p : BitVec 1) (s : State) : Host.Outcome State Fault Refusal :=
  classRow .rr "CLASSIFY.RR" (ctrlByte r p 0b000#3 1#1) s

/-- `CLASSIFY.NONE` (R151), pattern `rrrpsss1`, for the bytes that no other row matches. -/
def execClassifyNone (r : BitVec 3) (p : BitVec 1) (k : BitVec 3) (s : State) : Host.Outcome State Fault Refusal :=
  classRow .none "CLASSIFY.NONE" (ctrlByte r p k 1#1) s

end Sys2Proof.Machine
end

