-- ==== Sys2Proof/Machine/Extractors.lean ====
section
/-! DEFINITION. The Field Extractors (41_field_extractors.md R100 to R110), each one step of the sequencer in its own phase.
The two that compare checksums take the checksum function as an argument; the machine gives them `Config.ck`. -/

namespace Sys2Proof.Machine

/-- `XFLAG.O` (R101). -/
def execXflagO (s : State) : Host.Outcome State Fault Refusal :=
  phaseOp .flagO "XFLAG.O" (fun s =>
    (readFlag s).bind (fun b t => .ok .ffmt (t.setF { t.f with flag := some b }))) s

/-- `XFFMT` (R102). -/
def execXffmt (s : State) : Host.Outcome State Fault Refusal :=
  phaseOp .ffmt "XFFMT" (fun s =>
    (rdHalf s).bind (fun w t =>
      .ok .dest (t.setF { t.f with len := some (flen w), seg := some (fseg w), fmtType := some (ftype w) }))) s

/-- `XADDR.D` (R103). -/
def execXaddrD (s : State) : Host.Outcome State Fault Refusal :=
  phaseOp .dest "XADDR.D" (fun s =>
    (readAddr Config.addrMax [] s).bind (fun bs t => .ok .src (t.setF { t.f with dest := addrRegs bs }))) s

/-- `XADDR.S` (R104). -/
def execXaddrS (s : State) : Host.Outcome State Fault Refusal :=
  phaseOp .src "XADDR.S" (fun s =>
    (readAddr Config.addrMax [] s).bind (fun bs t => .ok .ctrl (t.setF { t.f with src := addrRegs bs }))) s

/-- The field registers after the control byte `c` was taken in (R105). -/
def controlFields (c : Byte) (f : Fields) : Fields :=
  { f with
    lsb := some (clsb c), pf := some (cpf c), recv := some (crecv c), send := some (csend c),
    cls := some (classify (clsb c).toNat (crecv c).toNat (csend c).toNat) }

/-- `XCTRL` (R105). -/
def execXctrl (s : State) : Host.Outcome State Fault Refusal :=
  phaseOp .ctrl "XCTRL" (fun s =>
    (rdByte s).bind (fun c t => .ok .hcs (t.setF (controlFields c t.f)))) s

/-- `XHCS` (R106) with the checksum function `ck`. -/
def xhcsWith (ck : List Byte → Half) (s : State) : Host.Outcome State Fault Refusal :=
  phaseOp .hcs "XHCS" (fun s =>
    (readCheck ck .hcs s).bind (fun v t => .ok .ilen (t.setF { t.f with hcs := some v }))) s

/-- `XHCS` (R106). -/
def execXhcs (s : State) : Host.Outcome State Fault Refusal := xhcsWith Config.ck s

/-- `XINFO` (R107): the information stays in the buffer; the offset where it begins is recorded. Where the read raises, no
field register keeps a value (R213), so the order of the two writes cannot be seen. -/
def execXinfo (s : State) : Host.Outcome State Fault Refusal :=
  phaseOp .info "XINFO" (fun s =>
    (readReg .infoN s.f.infoN s).bind (fun count s =>
      (rd count s).bind (fun _ t => .ok .fcs (t.setF { t.f with infoOff := some s.cur })))) s

/-- `XFCS` (R108) with the checksum function `ck`. -/
def xfcsWith (ck : List Byte → Half) (s : State) : Host.Outcome State Fault Refusal :=
  phaseOp .fcs "XFCS" (fun s =>
    (readCheck ck .fcs s).bind (fun v t => .ok .vlen (t.setF { t.f with fcs := some v }))) s

/-- `XFCS` (R108). -/
def execXfcs (s : State) : Host.Outcome State Fault Refusal := xfcsWith Config.ck s

/-- `XFLAG.C` (R109). -/
def execXflagC (s : State) : Host.Outcome State Fault Refusal :=
  phaseOp .flagC "XFLAG.C" (fun s =>
    (readFlag s).bind (fun b t => .ok .asm (t.setF { t.f with flagEnd := some b }))) s

end Sys2Proof.Machine
end

