-- ==== Sys2Proof/Machine/HostCommands.lean ====
section
/-! DEFINITION. The host's three commands (45_sequencer_assembler_host.md R194 to R198). -/

namespace Sys2Proof.Machine

/-- What `LOAD s` leaves (R195): `BUF` holds `s` and nothing else is listed, `N = |s|`, the outcome of the previous run is
discarded, and the phase is `IDLE`. -/
def loaded (bytes : List Byte) (s : State) : State :=
  ((s.setBuf (Mem.writeBytes [] 0 bytes) bytes.length).clearRun).setPhase .idle

/-- `LOAD s` (R195): only while STATUS is not BUSY, and only with `|s| <= BUF_CAP`. -/
def execLoad (bytes : List Byte) (s : State) : Host.Outcome State Fault Refusal :=
  if phaseStatus s.phase = .busy then .refused (.busy "LOAD")
  else if bytes.length ≤ Config.bufCap then .next (loaded bytes s)
  else .refused .tooLong

/-- What `START` leaves (R196, R241): the per-call reset, with `BUF` and `N` as they were. -/
def started (s : State) : State := s.clearRun.setPhase .flagO

/-- `START` (R196): only while STATUS is not BUSY. -/
def execStart (s : State) : Host.Outcome State Fault Refusal :=
  if phaseStatus s.phase = .busy then .refused (.busy "START") else .next (started s)

/-- Whether the host may read a register in the present STATUS (the table of R197). -/
def readable (s : State) : Reg → Bool
  | .status => true
  | .n | .errKind => phaseStatus s.phase != .busy
  | .phase => false
  | .errExpected | .errActual | .errPos => phaseStatus s.phase == .error
  | .errCk => phaseStatus s.phase == .error && s.err.kind == .checksum
  | .cur | .flag | .len | .seg | .fmtType | .dest _ | .destN | .src _ | .srcN | .lsb | .pf | .recv | .send | .cls
  | .hcs | .payload | .infoOff | .infoN | .fcs | .flagEnd | .buf _ => phaseStatus s.phase == .done

/-- The byte register `k` of an address (R21). Bytes at and beyond the count hold no value. -/
def addrByte (a : AddrRegs) (k : Fin 4) : Option Byte :=
  match k with
  | 0 => a.b0
  | 1 => a.b1
  | 2 => a.b2
  | 3 => a.b3

/-- The value a register holds; none where it holds no value (R15). A buffer byte at an offset at or beyond `N` does not
exist (R12). -/
def regValue (s : State) : Reg → Option Value
  | .status => some (.status (phaseStatus s.phase))
  | .n => some (.num s.n)
  | .phase => some (.phase s.phase)
  | .cur => some (.num s.cur)
  | .flag => s.f.flag.map .byte
  | .len => s.f.len.map .len
  | .seg => s.f.seg.map .bit
  | .fmtType => s.f.fmtType.map .half
  | .dest k => (addrByte s.f.dest k).map .byte
  | .destN => s.f.dest.n.map .num
  | .src k => (addrByte s.f.src k).map .byte
  | .srcN => s.f.src.n.map .num
  | .lsb => s.f.lsb.map .bit
  | .pf => s.f.pf.map .bit
  | .recv => s.f.recv.map .byte
  | .send => s.f.send.map .byte
  | .cls => s.f.cls.map .cls
  | .hcs => s.f.hcs.map .half
  | .payload => s.f.payload.map .bit
  | .infoOff => s.f.infoOff.map .num
  | .infoN => s.f.infoN.map .num
  | .fcs => s.f.fcs.map .half
  | .flagEnd => s.f.flagEnd.map .byte
  | .errKind => some (.errKind s.err.kind)
  | .errCk => s.err.ck.map .ckKind
  | .errExpected => s.err.expected.map .num
  | .errActual => s.err.actual.map .num
  | .errPos => s.err.pos.map .num
  | .buf k => if k < s.n then (s.mem.read k).map .byte else none

/-- `RESULT r` (R197): gives back the register's value; no side effect. A register that cannot be read in the present
STATUS, or that holds no value, is a fault of the model (R224, U5, U9). -/
def execResult (r : Reg) (s : State) : Host.Outcome State Fault Refusal :=
  if readable s r then
    match regValue s r with
    | some v => .next (s.returns v)
    | none => .fault (.noValue r)
  else .fault (.notReadable r)

end Sys2Proof.Machine
end

