-- ==== Sys2Proof/Machine/Reader.lean ====
section
/-! DEFINITION. The Frame Reader's operations as operations of their own (40_frame_reader.md R91 to R93). -/

namespace Sys2Proof.Machine

/-- `RD n` (R91): gives back the `n` bytes at the cursor and advances it, or raises UnderrunError. DESIGN CHOICE (log 4):
exercised on its own it does so in every phase, so that in `DONE` it moves the cursor or drops the outcome and in `ERROR` it
can overwrite the error record, which no step of the sequencer does (60_exceptions.md R222). -/
def execRd (count : Nat) (s : State) : Host.Outcome State Fault Refusal :=
  finish (rd count s) (fun bs t => t.returns (.bytes bs))

/-- `CNT` (R92): gives back `CUR`. -/
def execCnt (s : State) : Host.Outcome State Fault Refusal :=
  .next (s.returns (.num s.cur))

/-- `RAW a b` (R93): gives back the bytes at offsets `a` to `b - 1`. -/
def execRaw (a b : Nat) (s : State) : Host.Outcome State Fault Refusal :=
  finish (raw a b s) (fun bs t => t.returns (.bytes bs))

end Sys2Proof.Machine
end

