-- ==== Sys2Proof/Machine/Validators.lean ====
section
/-! DEFINITION. The Checksum Engine, the two checksum comparisons, the Length Validator and the payload test
(44_checksum_length_validators.md R160 to R169). -/

namespace Sys2Proof.Machine

/-- `CKSUM s` (R160): the external Checksum Engine, the open parameter `CK`. -/
def execCksum (bytes : List Byte) (s : State) : Host.Outcome State Fault Refusal :=
  .next (s.returns (.half (Config.ck bytes)))

/-- A checksum comparison on its own (R162): no state is written where it passes, ChecksumError is raised where it fails.
DESIGN CHOICE (log 4): exercised on its own it does so in every phase, so that in `DONE` and `ERROR` it can overwrite the
recorded outcome, which no step of the sequencer does (60_exceptions.md R222). -/
def vchkWith (ck : List Byte → Half) (kind : CkKind) (embedded : Half) (range : List Byte) (pos : Nat) (s : State) :
    Host.Outcome State Fault Refusal :=
  match checkSum ck kind embedded range pos with
  | some e => .next (raise e s)
  | none => .next s

/-- `VCHK.H` (R163). -/
def execVchkH (embedded : Half) (range : List Byte) (pos : Nat) (s : State) : Host.Outcome State Fault Refusal :=
  vchkWith Config.ck .hcs embedded range pos s

/-- `VCHK.F` (R164). -/
def execVchkF (embedded : Half) (range : List Byte) (pos : Nat) (s : State) : Host.Outcome State Fault Refusal :=
  vchkWith Config.ck .fcs embedded range pos s

/-- The LengthError of a declared length against the bytes consumed after the opening flag (R212, R217). -/
def lengthError (len : BitVec 11) (s : State) : DecodeError := .length len.toNat (s.cur - 1) s.cur

/-- `VLEN` (R165): the comparison is on mathematical integers. -/
def execVlen (s : State) : Host.Outcome State Fault Refusal :=
  phaseOp .vlen "VLEN" (fun s =>
    (readReg .len s.f.len s).bind (fun len s =>
      if (len.toNat : Int) ≠ (s.cur : Int) - 1 then .raised (lengthError len s) s else .ok .flagC s)) s

/-- `ILEN` (R166, R167): the payload test, then the information length, a mathematical integer whose negative values raise
LengthError. -/
def execIlen (s : State) : Host.Outcome State Fault Refusal :=
  phaseOp .ilen "ILEN" (fun s =>
    (readReg .len s.f.len s).bind (fun len s =>
      if (len.toNat : Int) = (s.cur : Int) - 1 then .ok .flagC (s.setF { s.f with payload := some 0#1 })
      else
        let i : Int := (len.toNat : Int) - 1 - (s.cur : Int)
        if i < 0 then .raised (lengthError len s) s
        else .ok .info (s.setF { s.f with payload := some 1#1, infoN := some i.toNat }))) s

end Sys2Proof.Machine
end

