-- ==== Sys2Proof/Machine/WholeCall.lean ====
section
/-! DEFINITION. The Message Assembler (45_sequencer_assembler_host.md R190), the decode entry point as one function of the
frame's bytes (R192), and the map between field registers and a DecodedFrame (R16, R191). -/

namespace Sys2Proof.Machine

/-- `ASM` (R190): no data moves; the step publishes the fields by making `STATUS` read `DONE`. -/
def execAsm (s : State) : Host.Outcome State Fault Refusal :=
  phaseOp .asm "ASM" (fun s => .ok .done s) s

/-! ### The whole call (R192)

`cur` is the local cursor. A failing call also answers the cursor at the failure, which the result does not show (R213). -/

/-- `read(n)` of R192. -/
def callRead (buf : List Byte) (cur count : Nat) : Except (DecodeError × Nat) (List Byte × Nat) :=
  if buf.length < cur + count then .error (.underrun cur count (buf.length - cur), cur)
  else .ok ((buf.drop cur).take count, cur + count)

/-- `addr()` of R192, at most `fuel` more bytes. -/
def callAddr (buf : List Byte) : Nat → List Byte → Nat → Except (DecodeError × Nat) (List Byte × Nat)
  | 0, acc, cur => .ok (acc, cur)
  | fuel + 1, acc, cur =>
    (callRead buf cur 1).bind (fun (bs, cur) =>
      let b := bs.getD 0 0#8
      if astop b = 1#1 then .ok (acc ++ [b], cur) else callAddr buf fuel (acc ++ [b]) cur)

/-- Reads a flag and fails unless it is 0x7E (R192, XFLAG.O and XFLAG.C). -/
def callFlag (buf : List Byte) (cur : Nat) : Except (DecodeError × Nat) (Byte × Nat) :=
  (callRead buf cur 1).bind (fun (bs, next) =>
    let b := bs.getD 0 0#8
    if b ≠ Config.flagByte then .error (.frameGuard cur b, next) else .ok (b, next))

/-- Reads a checksum and fails unless it is `CK` of the bytes after the opening flag (R192, XHCS and XFCS). -/
def callCheck (ck : List Byte → Half) (kind : CkKind) (buf : List Byte) (cur : Nat) :
    Except (DecodeError × Nat) (Half × Nat) :=
  (callRead buf cur 2).bind (fun (bs, next) =>
    let v := swap16 (be16Seq bs)
    let k := ck ((buf.drop 1).take (cur - 1))
    if k ≠ v then .error (.checksum kind v k cur, next) else .ok (v, next))

/-- The payload part of R192: information, FCS and Length Validator, or nothing for a header-only frame. -/
def callPayload (ck : List Byte → Half) (buf : List Byte) (len : BitVec 11) (cur : Nat) :
    Except (DecodeError × Nat) (Option (List Byte) × Option Half × Nat) :=
  if (len.toNat : Int) = (cur : Int) - 1 then .ok (none, none, cur)
  else
    let i : Int := (len.toNat : Int) - 1 - (cur : Int)
    if i < 0 then .error (.length len.toNat (cur - 1) cur, cur)
    else
      (callRead buf cur i.toNat).bind (fun (info, cur) =>
        (callCheck ck .fcs buf cur).bind (fun (v, cur) =>
          if (len.toNat : Int) ≠ (cur : Int) - 1 then .error (.length len.toNat (cur - 1) cur, cur)
          else .ok (some info, some v, cur)))

/-- The control record of a control byte (R192, XCTRL). -/
def controlOf (c : Byte) : Control :=
  ⟨clsb c, classify (clsb c).toNat (crecv c).toNat (csend c).toNat, crecv c, csend c, cpf c⟩

/-- The decode of R192 with its cursor: the frame or the error, and the cursor where the call ended. -/
def decodeRun (ck : List Byte → Half) (buf : List Byte) : Except (DecodeError × Nat) (DecodedFrame × Nat) :=
  (callFlag buf 0).bind (fun (flag, cur) =>
    (callRead buf cur 2).bind (fun (fmt, cur) =>
      let w := be16Seq fmt
      (callAddr buf Config.addrMax [] cur).bind (fun (dest, cur) =>
        (callAddr buf Config.addrMax [] cur).bind (fun (src, cur) =>
          (callRead buf cur 1).bind (fun (c, cur) =>
            (callCheck ck .hcs buf cur).bind (fun (hcs, cur) =>
              (callPayload ck buf (flen w) cur).bind (fun (info, fcs, cur) =>
                (callFlag buf cur).bind (fun (flagEnd, cur) =>
                  .ok (⟨flag, flen w, fseg w, ftype w, dest, src, controlOf (c.getD 0 0#8), hcs, info, fcs, flagEnd⟩,
                    cur)))))))))

/-- `DECODE(buf)` (R192): a DecodedFrame or exactly one error. -/
def decodeCall (ck : List Byte → Half) (buf : List Byte) : Except DecodeError DecodedFrame :=
  match decodeRun ck buf with
  | .ok (frame, _) => .ok frame
  | .error (e, _) => .error e

/-! ### Registers and DecodedFrame (R16, R191) -/

/-- The field registers that hold a frame (R16); the information is the window that begins after the HCS (R29, R50). -/
def frameFields (fr : DecodedFrame) : Fields where
  flag := some fr.flag
  len := some fr.frameLen
  seg := some fr.segmentationBit
  fmtType := some fr.formatType
  dest := addrRegs fr.destAddr
  src := addrRegs fr.srcAddr
  lsb := some fr.control.lsb
  pf := some fr.control.pollFinal
  recv := some fr.control.receive
  send := some fr.control.send
  cls := some fr.control.commandResponse
  hcs := some fr.hcs
  payload := some (if fr.information.isSome then 1#1 else 0#1)
  infoOff := fr.information.map (fun _ => 6 + fr.destAddr.length + fr.srcAddr.length)
  infoN := fr.information.map List.length
  fcs := fr.fcs
  flagEnd := some fr.flagEnd

/-- The address value, the bytes `[0 .. N-1]` (R21). -/
def addrBytes (a : AddrRegs) : Option (List Byte) :=
  a.n.bind (fun n => ([a.b0, a.b1, a.b2, a.b3].take n).mapM id)

/-- The `information` value: absent with `F.PAYLOAD == 0`, else the window of the buffer (R29). -/
def informationOf (s : State) : Option (Option (List Byte)) :=
  match s.f.payload, s.f.infoOff, s.f.infoN with
  | some 1, some off, some count => (s.mem.readBytes off count).map some
  | some 0, _, _ => some none
  | _, _, _ => none

/-- The DecodedFrame that the field registers and the buffer hold (R16, R191); none where a register holds no value. -/
def frameOf (s : State) : Option DecodedFrame := do
  let flag ← s.f.flag
  let len ← s.f.len
  let seg ← s.f.seg
  let typ ← s.f.fmtType
  let dest ← addrBytes s.f.dest
  let src ← addrBytes s.f.src
  let lsb ← s.f.lsb
  let cls ← s.f.cls
  let recv ← s.f.recv
  let send ← s.f.send
  let pf ← s.f.pf
  let hcs ← s.f.hcs
  let info ← informationOf s
  let flagEnd ← s.f.flagEnd
  pure ⟨flag, len, seg, typ, dest, src, ⟨lsb, cls, recv, send, pf⟩, hcs, info, s.f.fcs, flagEnd⟩

/-! ### DECODE as one step -/

/-- The state a finished call leaves (R185, R193, log 7): the registers of the frame and `DONE`, or the error taken. -/
def callState (r : Except (DecodeError × Nat) (DecodedFrame × Nat)) (s : State) : State :=
  match r with
  | .ok (frame, cur) =>
    (((s.clearRun.setCur cur).setF (frameFields frame)).setPhase .done).returns (.frame frame)
  | .error (e, cur) => (raise e (s.clearRun.setCur cur)).returns (.failed e)

/-- `DECODE` (R192) with the checksum function `ck`: the whole call on `BUF[0 .. N-1]` in one step. Like START it does not
exist while BUSY (R196, R198). -/
def decodeWith (ck : List Byte → Half) (s : State) : Host.Outcome State Fault Refusal :=
  if phaseStatus s.phase = .busy then .refused (.busy "DECODE")
  else
    match memRead 0 s.n s with
    | .ok buf => .next (callState (decodeRun ck buf) s)
    | .error x => .fault x

/-- `DECODE` (R192). -/
def execDecode (s : State) : Host.Outcome State Fault Refusal := decodeWith Config.ck s

end Sys2Proof.Machine
end

