-- ==== Sys2Proof/Machine/Dispatch.lean ====
section
/-! DEFINITION. One arm per operation of the block. -/

namespace Sys2Proof.Machine

def exec (i : Instr) (s : State) : Host.Outcome State Fault Refusal :=
  match i with
  | .rd n => Sys2Proof.Machine.execRd n s
  | .cnt => Sys2Proof.Machine.execCnt s
  | .raw a b => Sys2Proof.Machine.execRaw a b s
  | .xflagO => Sys2Proof.Machine.execXflagO s
  | .xffmt => Sys2Proof.Machine.execXffmt s
  | .xaddrD => Sys2Proof.Machine.execXaddrD s
  | .xaddrS => Sys2Proof.Machine.execXaddrS s
  | .xctrl => Sys2Proof.Machine.execXctrl s
  | .xhcs => Sys2Proof.Machine.execXhcs s
  | .xinfo => Sys2Proof.Machine.execXinfo s
  | .xfcs => Sys2Proof.Machine.execXfcs s
  | .xflagC => Sys2Proof.Machine.execXflagC s
  | .be16 b0 b1 => Sys2Proof.Machine.execBe16 b0 b1 s
  | .swap16 v => Sys2Proof.Machine.execSwap16 v s
  | .flen w => Sys2Proof.Machine.execFlen w s
  | .fseg w => Sys2Proof.Machine.execFseg w s
  | .ftype w => Sys2Proof.Machine.execFtype w s
  | .ftypeA x => Sys2Proof.Machine.execFtypeA x s
  | .ftypeOther t x => Sys2Proof.Machine.execFtypeOther t x s
  | .astop b => Sys2Proof.Machine.execAstop b s
  | .clsb c => Sys2Proof.Machine.execClsb c s
  | .cpf c => Sys2Proof.Machine.execCpf c s
  | .crecv c => Sys2Proof.Machine.execCrecv c s
  | .csend c => Sys2Proof.Machine.execCsend c s
  | .classify l r k => Sys2Proof.Machine.execClassify l r k s
  | .classifyI r p k => Sys2Proof.Machine.execClassifyI r p k s
  | .classifySnrm p => Sys2Proof.Machine.execClassifySnrm p s
  | .classifyDisc p => Sys2Proof.Machine.execClassifyDisc p s
  | .classifyUa p => Sys2Proof.Machine.execClassifyUa p s
  | .classifyDm p => Sys2Proof.Machine.execClassifyDm p s
  | .classifyFrmr p => Sys2Proof.Machine.execClassifyFrmr p s
  | .classifyUi p => Sys2Proof.Machine.execClassifyUi p s
  | .classifyRnr r p => Sys2Proof.Machine.execClassifyRnr r p s
  | .classifyRr r p => Sys2Proof.Machine.execClassifyRr r p s
  | .classifyNone r p k => Sys2Proof.Machine.execClassifyNone r p k s
  | .cksum bytes => Sys2Proof.Machine.execCksum bytes s
  | .vchkH e range pos => Sys2Proof.Machine.execVchkH e range pos s
  | .vchkF e range pos => Sys2Proof.Machine.execVchkF e range pos s
  | .vlen => Sys2Proof.Machine.execVlen s
  | .ilen => Sys2Proof.Machine.execIlen s
  | .asm => Sys2Proof.Machine.execAsm s
  | .decode => Sys2Proof.Machine.execDecode s
  | .load bytes => Sys2Proof.Machine.execLoad bytes s
  | .start => Sys2Proof.Machine.execStart s
  | .result r => Sys2Proof.Machine.execResult r s

end Sys2Proof.Machine
end

