-- ==== Sys2Proof/WellFormed.lean ====
section
/-! DEFINITION. Which operations are well formed: the operand domains the spec states. -/

namespace Sys2Proof

/-- The operand domains of the spec. `RAW a b` needs `a <= b` (40_frame_reader.md R93). `FTYPE.OTHER` is for any nibble but
0xA (R125). `CLASSIFY.NONE` is for bytes that no other row matches (R151). `LOAD s` needs `|s| <= BUF_CAP` (R195). Every
other operand is legal at every value its type has. -/
def wellFormed : Instr → Bool
  | .raw a b => decide (a ≤ b)
  | .ftypeOther t _ => t != 0xA#4
  | .classifyNone r p s => Machine.classByTable (Machine.ctrlByte r p s 1#1) == .none
  | .load s => decide (s.length ≤ Config.bufCap)
  | .rd _ | .cnt | .xflagO | .xffmt | .xaddrD | .xaddrS | .xctrl | .xhcs | .xinfo | .xfcs | .xflagC
  | .be16 _ _ | .swap16 _ | .flen _ | .fseg _ | .ftype _ | .ftypeA _ | .astop _ | .clsb _ | .cpf _ | .crecv _ | .csend _
  | .classify _ _ _ | .classifyI _ _ _ | .classifySnrm _ | .classifyDisc _ | .classifyUa _ | .classifyDm _
  | .classifyFrmr _ | .classifyUi _ | .classifyRnr _ _ | .classifyRr _ _
  | .cksum _ | .vchkH _ _ _ | .vchkF _ _ _ | .vlen | .ilen | .asm | .decode | .start | .result _ => true

end Sys2Proof
end

