-- ==== Sys2Proof/Decode.lean ====
section
/-! DEFINITION. The decoder of encoded operations, total on any bytes and rejecting by name, and its encoder. The encodings
are those of spec/opcode_table.json: the phase operations have the 4-bit PHASE code (10_state.md R14), the case rows and the
functions the bits of the word they read (30_encoding.md R62, R64, R70). Rows without bits (`encoding` null in the table:
RD, CNT, RAW, CKSUM, VCHK.H, VCHK.F, DECODE, LOAD, START, RESULT) have no encoding (92_eei_decisions.md D22). -/

namespace Sys2Proof

open Sys2Proof.Machine

/-- The operation the sequencer performs from each phase code (R14). -/
def decodePhase (code : BitVec 4) : Except Reject Instr :=
  match code.toNat with
  | 0 => .error .phaseIdle
  | 1 => .ok .xflagO
  | 2 => .ok .xffmt
  | 3 => .ok .xaddrD
  | 4 => .ok .xaddrS
  | 5 => .ok .xctrl
  | 6 => .ok .xhcs
  | 7 => .ok .ilen
  | 8 => .ok .xinfo
  | 9 => .ok .xfcs
  | 10 => .ok .vlen
  | 11 => .ok .xflagC
  | 12 => .ok .asm
  | 13 => .error .phaseDone
  | 14 => .error .phaseError
  | _ => .error .noSuchPhase

/-- The case row of a frame-format word (R125, R72): nibble 0xA or any other. -/
def decodeFormat (w : Half) : Instr :=
  if w.extractLsb' 12 4 = 0xA#4 then .ftypeA (w.extractLsb' 0 12)
  else .ftypeOther (w.extractLsb' 12 4) (w.extractLsb' 0 12)

/-- The classifier row of a control byte with the bits its pattern leaves free (R70). -/
def decodeControl (c : Byte) : Instr :=
  let r := c.extractLsb' 5 3
  let p := c.extractLsb' 4 1
  let s := c.extractLsb' 1 3
  match classByTable c with
  | .i => .classifyI r p s
  | .snrm => .classifySnrm p
  | .disc => .classifyDisc p
  | .ua => .classifyUa p
  | .dm => .classifyDm p
  | .frmr => .classifyFrmr p
  | .ui => .classifyUi p
  | .rnr => .classifyRnr r p
  | .rr => .classifyRr r p
  | .none => .classifyNone r p s

/-- Reads one byte at a place. -/
def decodeByte (f : Byte → Except Reject Instr) : List Byte → Except Reject (Instr × List Byte)
  | b :: rest => (f b).map (fun i => (i, rest))
  | [] => .error .tooShort

/-- Reads one 16-bit word at a place, high-order byte first (R42). -/
def decodeHalf (f : Half → Instr) : List Byte → Except Reject (Instr × List Byte)
  | b0 :: b1 :: rest => .ok (f (be16 b0 b1), rest)
  | _ => .error .tooShort

/-- The operation that the bytes at a place encode, with the bytes left over. -/
def decode (pl : Place) (bytes : List Byte) : Except Reject (Instr × List Byte) :=
  match pl with
  | .phase => decodeByte (fun b =>
      if b.extractLsb' 4 4 = 0#4 then decodePhase (b.extractLsb' 0 4) else .error .noSuchPhase) bytes
  | .flag => decodeByte (fun b => if b = Config.flagByte then .ok .xflagO else .error .notFlag) bytes
  | .frameFormat => decodeHalf decodeFormat bytes
  | .control => decodeByte (fun c => .ok (decodeControl c)) bytes
  | .be16 => decodeHalf (fun w => .be16 (w.extractLsb' 8 8) (w.extractLsb' 0 8)) bytes
  | .swap16 => decodeHalf .swap16 bytes
  | .flen => decodeHalf .flen bytes
  | .fseg => decodeHalf .fseg bytes
  | .ftype => decodeHalf .ftype bytes
  | .astop => decodeByte (fun b => .ok (.astop b)) bytes
  | .clsb => decodeByte (fun c => .ok (.clsb c)) bytes
  | .cpf => decodeByte (fun c => .ok (.cpf c)) bytes
  | .crecv => decodeByte (fun c => .ok (.crecv c)) bytes
  | .csend => decodeByte (fun c => .ok (.csend c)) bytes
  | .classify => decodeByte (fun c =>
      .ok (.classify (Machine.clsb c).toNat (Machine.crecv c).toNat (Machine.csend c).toNat)) bytes

/-- How many bytes an encoded operation takes at a place. -/
def placeBytes : Place → Nat
  | .phase | .flag | .control | .astop | .clsb | .cpf | .crecv | .csend | .classify => 1
  | .frameFormat | .be16 | .swap16 | .flen | .fseg | .ftype => 2

/-- A phase code in the low bits of one byte. -/
def phaseByte (p : Phase) : Byte := (phaseCode p).setWidth 8

/-- A 16-bit word as two bytes, high-order byte first (R42). -/
def halfBytes (w : Half) : List Byte := [w.extractLsb' 8 8, w.extractLsb' 0 8]

/-- The phase a phase operation runs in (R14, R181); none for every other operation. -/
def ownPhase : Instr → Option Phase
  | .xflagO => some .flagO
  | .xffmt => some .ffmt
  | .xaddrD => some .dest
  | .xaddrS => some .src
  | .xctrl => some .ctrl
  | .xhcs => some .hcs
  | .ilen => some .ilen
  | .xinfo => some .info
  | .xfcs => some .fcs
  | .vlen => some .vlen
  | .xflagC => some .flagC
  | .asm => some .asm
  | _ => none

/-- The control byte with these three values, if there is one (R140). Poll/final, no input of CLASSIFY, is written 0. -/
def tripleByte (lsb receive send : Nat) : Option Byte :=
  let c : Byte := BitVec.ofNat 8 (receive + send + lsb)
  if (Machine.clsb c).toNat = lsb ∧ (Machine.crecv c).toNat = receive ∧ (Machine.csend c).toNat = send then some c
  else none

/-- The place and the bytes of an operation; none for the rows that have no bit encoding, and for a CLASSIFY on three values
that no control byte has. -/
def encode (i : Instr) : Option (Place × List Byte) :=
  match i with
  | .xflagO => some (.phase, [phaseByte .flagO])
  | .xffmt => some (.phase, [phaseByte .ffmt])
  | .xaddrD => some (.phase, [phaseByte .dest])
  | .xaddrS => some (.phase, [phaseByte .src])
  | .xctrl => some (.phase, [phaseByte .ctrl])
  | .xhcs => some (.phase, [phaseByte .hcs])
  | .ilen => some (.phase, [phaseByte .ilen])
  | .xinfo => some (.phase, [phaseByte .info])
  | .xfcs => some (.phase, [phaseByte .fcs])
  | .vlen => some (.phase, [phaseByte .vlen])
  | .xflagC => some (.phase, [phaseByte .flagC])
  | .asm => some (.phase, [phaseByte .asm])
  | .be16 b0 b1 => some (.be16, [b0, b1])
  | .swap16 v => some (.swap16, halfBytes v)
  | .flen w => some (.flen, halfBytes w)
  | .fseg w => some (.fseg, halfBytes w)
  | .ftype w => some (.ftype, halfBytes w)
  | .ftypeA x => some (.frameFormat, halfBytes (formatWord 0xA#4 x))
  | .ftypeOther t x => some (.frameFormat, halfBytes (formatWord t x))
  | .astop b => some (.astop, [b])
  | .clsb c => some (.clsb, [c])
  | .cpf c => some (.cpf, [c])
  | .crecv c => some (.crecv, [c])
  | .csend c => some (.csend, [c])
  | .classify l r s => (tripleByte l r s).map (fun c => (.classify, [c]))
  | .classifyI r p s => some (.control, [ctrlByte r p s 0#1])
  | .classifySnrm p => some (.control, [ctrlByte 0b100#3 p 0b001#3 1#1])
  | .classifyDisc p => some (.control, [ctrlByte 0b010#3 p 0b001#3 1#1])
  | .classifyUa p => some (.control, [ctrlByte 0b011#3 p 0b001#3 1#1])
  | .classifyDm p => some (.control, [ctrlByte 0b000#3 p 0b111#3 1#1])
  | .classifyFrmr p => some (.control, [ctrlByte 0b100#3 p 0b011#3 1#1])
  | .classifyUi p => some (.control, [ctrlByte 0b000#3 p 0b001#3 1#1])
  | .classifyRnr r p => some (.control, [ctrlByte r p 0b010#3 1#1])
  | .classifyRr r p => some (.control, [ctrlByte r p 0b000#3 1#1])
  | .classifyNone r p s => some (.control, [ctrlByte r p s 1#1])
  | .rd _ | .cnt | .raw _ _ | .cksum _ | .vchkH _ _ _ | .vchkF _ _ _ | .decode | .load _ | .start | .result _ => none

/-- The operation that an opcode-table word reads as. A word of at most 4 bits is a PHASE code. A word of 8 bits is a flag
byte where it is 0x7E, else a control byte. A word of 16 bits is a frame-format word, laid out high-order byte first. The
two rows XFLAG.O and XFLAG.C have the same bits: the phase tells them apart, and the bits alone are read as XFLAG.O
(log 6). -/
def decodeTableWord (nbits w : Nat) : Option Instr :=
  if 2 ^ nbits ≤ w then none
  else if nbits ≤ 4 then (decode .phase [BitVec.ofNat 8 w]).toOption.map Prod.fst
  else if nbits ≤ 8 then
    let b : Byte := BitVec.ofNat 8 w
    (decode (if b = Config.flagByte then .flag else .control) [b]).toOption.map Prod.fst
  else if nbits ≤ 16 then (decode .frameFormat (halfBytes (BitVec.ofNat 16 w))).toOption.map Prod.fst
  else none

end Sys2Proof
end

