-- ==== Sys2Proof/Machine/Fetch.lean ====
section
/-! DEFINITION. Which operation the next step performs: a move that is pending, else the operation of the current phase
(45_sequencer_assembler_host.md R180, R181, R194). -/

namespace Sys2Proof.Machine

/-- What the next step does: run an operation from a state, or leave a state as it is. -/
inductive NextOp where
  | run (i : Instr) (s : State)
  | rest (s : State)
deriving DecidableEq, Repr

/-- The bytes the sequencer reads its next operation from: the code of the present phase (R14). -/
def fetchBytes (s : State) : List Byte := [phaseByte s.phase]

/-- The sequencer's next operation. In `IDLE`, `DONE` and `ERROR` it has none, and the state does not change (R183). -/
def sequencerOp (s : State) : NextOp :=
  match decode .phase (fetchBytes s) with
  | .ok (i, _) => .run i s
  | .error _ => .rest s

/-- The next operation: a pending move is taken off the list. An operation is run, an empty move lets the sequencer step,
and a power-on reset leaves its own state with no operation run (R240, log 4). -/
def nextOp (s : State) : NextOp :=
  match s.pending with
  | .op i :: rest => .run i (s.setPending rest)
  | .tick :: rest => sequencerOp (s.setPending rest)
  | .powerOn :: rest => .rest (powerOn (s.setPending rest))
  | [] => sequencerOp s

/-- `s` made ready to run operation `i` next. A phase operation runs from its phase; one that was read from a flag byte also
has that byte as the whole frame at the cursor. Every other operation becomes the one pending move (log 6). -/
def placeOp (i : Instr) (flagWord : Bool) (s : State) : State :=
  match ownPhase i with
  | some p =>
    let t := (s.setPhase p).setPending []
    if flagWord then ((t.setBuf (Mem.writeBytes [] 0 [Config.flagByte]) 1).clearRun) else t
  | none => s.setPending [.op i]

/-- `s` with the operation of an opcode-table word made ready to run next; `s` itself where the word decodes to none. -/
def placeWord (nbits w : Nat) (s : State) : State :=
  match decodeTableWord nbits w with
  | some i => placeOp i (decide (4 < nbits)) s
  | none => s

end Sys2Proof.Machine
end

