-- ==== Sys2Proof/Machine/Step.lean ====
section
/-! DEFINITION. One step of the parser, and the placing of one operation for the next step. -/

namespace Sys2Proof.Machine

/-- One step: the next operation is run; where there is none, the state stays as it is (45_sequencer_assembler_host.md
R180, R183, log 14), or is that after a power-on reset (70_reset_and_hazards.md R240). -/
def step (s : State) : Host.Outcome State Fault Refusal :=
  match nextOp s with
  | .run i t => exec i t
  | .rest t => .next t

/-- `s` with the operation of an opcode-table word made ready for the next step (log 6). -/
def State.withFetchWord (s : State) (nbits w : Nat) : State := placeWord nbits w s

end Sys2Proof.Machine
end

