-- ==== Sys2Proof/Safety.lean ====
section
/-! DEFINITION. What statements speak of: the frame buffer as a byte sequence, an address field, the invariants of the state
(10_state.md R12 to R39), and a run. -/

namespace Sys2Proof.Machine

/-! ### The frame buffer as a byte sequence -/

/-- `BUF[0 .. N-1]`: exactly the offsets below `N` hold a byte (R11, R12). -/
def bufferOk (s : State) : Prop := s.mem.map Prod.fst = List.range s.n

/-- The bytes of `BUF[0 .. N-1]`, lowest offset first. -/
def buffer (s : State) : List Byte := s.mem.map Prod.snd

/-- The bytes at offsets `a .. a+n-1`. -/
def slice (s : State) (a n : Nat) : List Byte := ((buffer s).drop a).take n

/-- The byte at an offset. -/
def byteAt (s : State) (k : Nat) : Byte := (buffer s).getD k 0#8

/-- A whole address field (41_field_extractors.md R103): one to four bytes, only the last of them with bit 0 set, where
a fourth byte is the last whatever its bit 0. -/
def addressField (bs : List Byte) : Prop :=
  1 ≤ bs.length ∧ bs.length ≤ 4 ∧
  (∀ k, k + 1 < bs.length → astop (bs.getD k 0#8) = 0#1) ∧
  (bs.length < 4 → astop (bs.getD (bs.length - 1) 0#8) = 1#1)

/-! ### The error record -/

/-- Which error registers hold a value (R33 to R35): `ERR.CK` for a ChecksumError alone, the others for every error. -/
def errorRecordOk (e : ErrRegs) : Prop :=
  e.ck.isSome = (e.kind == .checksum) ∧ e.expected.isSome = (e.kind != .none) ∧
  e.actual.isSome = (e.kind != .none) ∧ e.pos.isSome = (e.kind != .none)

/-! ### The field registers -/

/-- Whether a register that is written on leaving the phase of code `k - 1` holds a value in phase `p` (R14, R15, R110). -/
def writtenBy (k : Nat) (p : Phase) : Bool :=
  decide (k ≤ (phaseCode p).toNat) && decide ((phaseCode p).toNat ≤ 13)

/-- The address registers hold no value, or one to four bytes in wire order and their count (R21). -/
def addrRegsOk (a : AddrRegs) : Prop :=
  a = AddrRegs.empty ∨ ∃ bs : List Byte, 1 ≤ bs.length ∧ bs.length ≤ 4 ∧ a = addrRegs bs

/-- Which field registers hold a value in phase `p` (R15, R110, R190). -/
structure FieldsHeld (p : Phase) (f : Fields) : Prop where
  flag    : f.flag.isSome = writtenBy 2 p
  len     : f.len.isSome = writtenBy 3 p
  seg     : f.seg.isSome = writtenBy 3 p
  fmtType : f.fmtType.isSome = writtenBy 3 p
  dest    : f.dest.n.isSome = writtenBy 4 p
  src     : f.src.n.isSome = writtenBy 5 p
  lsb     : f.lsb.isSome = writtenBy 6 p
  pf      : f.pf.isSome = writtenBy 6 p
  recv    : f.recv.isSome = writtenBy 6 p
  send    : f.send.isSome = writtenBy 6 p
  cls     : f.cls.isSome = writtenBy 6 p
  hcs     : f.hcs.isSome = writtenBy 7 p
  payload : f.payload.isSome = writtenBy 8 p
  infoN   : f.infoN.isSome = (writtenBy 8 p && f.payload == some 1#1)
  infoOff : f.infoOff.isSome = (writtenBy 9 p && f.payload == some 1#1)
  fcs     : f.fcs.isSome = (writtenBy 10 p && f.payload == some 1#1)
  flagEnd : f.flagEnd.isSome = writtenBy 12 p
  branch  : p = .info ∨ p = .fcs ∨ p = .vlen → f.payload = some 1#1

/-- What is true of the values the field registers hold (R17, R20 to R27, R29, R31, R39 items 1, 2 and 6). -/
structure FieldValues (f : Fields) : Prop where
  flag    : ∀ b, f.flag = some b → b = Config.flagByte
  flagEnd : ∀ b, f.flagEnd = some b → b = Config.flagByte
  fmtType : ∀ w, f.fmtType = some w → w = 3#16 ∨ (w &&& 0x0FFF#16 = 0#16 ∧ w ≠ 0xA000#16)
  dest    : addrRegsOk f.dest
  src     : addrRegsOk f.src
  recv    : ∀ b, f.recv = some b → b &&& 0x1F#8 = 0#8
  send    : ∀ b, f.send = some b → b &&& 0xF1#8 = 0#8
  cls     : ∀ l r k c, f.lsb = some l → f.recv = some r → f.send = some k → f.cls = some c →
              c = classify l.toNat r.toNat k.toNat
  infoN   : ∀ k, f.infoN = some k → k ≤ 2047

/-- The invariant that every operation keeps, whatever is pending. -/
structure ParserInv (s : State) : Prop where
  /-- `BUF` holds exactly the bytes below `N` (R11, R12) -/
  buffer   : bufferOk s
  /-- `N <= BUF_CAP` (R12) -/
  capacity : s.n ≤ Config.bufCap
  /-- `CUR <= N` (R13) -/
  cursor   : s.cur ≤ s.n
  /-- an error is recorded exactly in `ERROR` (R32) -/
  error    : s.err.kind ≠ .none ↔ s.phase = .error
  /-- which error registers hold a value (R33 to R35) -/
  record   : errorRecordOk s.err
  /-- which field registers hold a value (R15, R110) -/
  held     : FieldsHeld s.phase s.f
  /-- what values the field registers hold -/
  values   : FieldValues s.f

/-! ### Runs -/

/-- A move that the spec has: one of the host's three commands (45_sequencer_assembler_host.md R194), letting the
sequencer step, or a power-on reset (70_reset_and_hazards.md R240). -/
def outsideMove : Move → Bool
  | .tick | .powerOn => true
  | .op (.load _) | .op .start | .op (.result _) => true
  | .op _ => false

/-- Only moves that the spec has are pending: nothing exercises an operation of the block on its own (log 4). -/
def OutsideOnly (s : State) : Prop := s.pending.all outsideMove = true

/-- The header byte count `H = 5 + F.DEST.N + F.SRC.N` (00_scope.md, glossary). -/
def headerCount (f : Fields) : Nat := 5 + f.dest.n.getD 0 + f.src.n.getD 0

/-- `CUR` at each phase of a run (20_memory.md R50). In `ERROR` it is not readable. -/
def positionOk (p : Phase) (f : Fields) (cur : Nat) : Prop :=
  match p with
  | .idle | .flagO => cur = 0
  | .ffmt => cur = 1
  | .dest => cur = 3
  | .src => cur = 3 + f.dest.n.getD 0
  | .ctrl => cur = 3 + f.dest.n.getD 0 + f.src.n.getD 0
  | .hcs => cur + 1 = headerCount f
  | .ilen | .info => cur = headerCount f + 1
  | .fcs => cur = headerCount f + 1 + f.infoN.getD 0
  | .vlen | .flagC => ∀ len, f.len = some len → cur = len.toNat + 1
  | .asm | .done => ∀ len, f.len = some len → cur = len.toNat + 2
  | .error => True

/-- The relations between the registers of a run and the buffer (R39 items 3 and 5). -/
structure FrameFacts (s : State) : Prop where
  headerOnly : ∀ len, s.f.payload = some 0#1 → s.f.len = some len → len.toNat = headerCount s.f
  payload    : ∀ len k, s.f.payload = some 1#1 → s.f.len = some len → s.f.infoN = some k →
                 len.toNat = headerCount s.f + k + 2
  window     : ∀ off, s.f.infoOff = some off → off = headerCount s.f + 1
  hcs        : ∀ v, s.f.hcs = some v → v = Config.ck (slice s 1 (headerCount s.f - 2))
  fcs        : ∀ v len, s.f.fcs = some v → s.f.len = some len → v = Config.ck (slice s 1 (len.toNat - 2))

/-- The invariant of a run in which only the moves that the spec has take part. -/
structure RunInv (s : State) : Prop where
  inv      : ParserInv s
  outside  : OutsideOnly s
  position : positionOk s.phase s.f s.cur
  facts    : FrameFacts s

/-- A run has ended (R183). -/
def ended (s : State) : Prop := s.phase = .done ∨ s.phase = .error

/-- The phase operations, in the order of their codes (R14). -/
def phaseOps : List Instr :=
  [.xflagO, .xffmt, .xaddrD, .xaddrS, .xctrl, .xhcs, .ilen, .xinfo, .xfcs, .vlen, .xflagC, .asm]

/-- The field registers by name (R10, R16). -/
def fieldRegs : List Reg :=
  [.flag, .len, .seg, .fmtType, .dest 0, .dest 1, .dest 2, .dest 3, .destN, .src 0, .src 1, .src 2, .src 3, .srcN,
   .lsb, .pf, .recv, .send, .cls, .hcs, .payload, .infoOff, .infoN, .fcs, .flagEnd]

/-- The registers that hold the context of an error (R33 to R35). -/
def contextRegs : List Reg := [.errCk, .errExpected, .errActual, .errPos]

/-- The field registers `g` after a successful phase operation, against `f` before it: only the registers that the write
map names for the operation may differ (41_field_extractors.md R110). -/
def writesOnly (i : Instr) (f g : Fields) : Prop :=
  match i with
  | .xflagO => g = { f with flag := g.flag }
  | .xffmt => g = { f with len := g.len, seg := g.seg, fmtType := g.fmtType }
  | .xaddrD => g = { f with dest := g.dest }
  | .xaddrS => g = { f with src := g.src }
  | .xctrl => g = { f with lsb := g.lsb, pf := g.pf, recv := g.recv, send := g.send, cls := g.cls }
  | .xhcs => g = { f with hcs := g.hcs }
  | .ilen => g = { f with payload := g.payload, infoN := g.infoN }
  | .xinfo => g = { f with infoOff := g.infoOff }
  | .xfcs => g = { f with fcs := g.fcs }
  | .xflagC => g = { f with flagEnd := g.flagEnd }
  | _ => g = f

/-- The operations that are functions of their operands (R120, R140, R160): they give back a result and do nothing else. -/
def isFunction : Instr → Bool
  | .be16 _ _ | .swap16 _ | .flen _ | .fseg _ | .ftype _ | .ftypeA _ | .ftypeOther _ _ | .astop _ | .clsb _ | .cpf _
  | .crecv _ | .csend _ | .classify _ _ _ | .classifyI _ _ _ | .classifySnrm _ | .classifyDisc _ | .classifyUa _
  | .classifyDm _ | .classifyFrmr _ | .classifyUi _ | .classifyRnr _ _ | .classifyRr _ _ | .classifyNone _ _ _
  | .cksum _ => true
  | _ => false

/-- The information and the FCS, low byte first, of a frame with a payload; nothing for a header-only frame (R50). -/
def payloadBytes : Option (List Byte × Half) → List Byte
  | some (info, fcs) => info ++ (halfBytes fcs).reverse
  | none => []

/-- The bytes of a frame in wire order (30_encoding.md R60, 20_memory.md R50): flag, frame-format word high-order byte first,
addresses, control, HCS low byte first, the payload if there is one, then the flag. -/
def frameBytes (w : Half) (dest src : List Byte) (c : Byte) (hcs : Half) (payload : Option (List Byte × Half)) :
    List Byte :=
  [Config.flagByte] ++ halfBytes w ++ dest ++ src ++ [c] ++ (halfBytes hcs).reverse ++ payloadBytes payload ++
    [Config.flagByte]

/-- The phases that an operation of phase `p` can lead to on success (R181). -/
def successors : Phase → List Phase
  | .flagO => [.ffmt]
  | .ffmt => [.dest]
  | .dest => [.src]
  | .src => [.ctrl]
  | .ctrl => [.hcs]
  | .hcs => [.ilen]
  | .ilen => [.info, .flagC]
  | .info => [.fcs]
  | .fcs => [.vlen]
  | .vlen => [.flagC]
  | .flagC => [.asm]
  | .asm => [.done]
  | .idle | .done | .error => []

end Sys2Proof.Machine
end

