-- ==== Sys2Proof/Certificates/Slice0/Obligations.lean ====
section
/-! DEFINITION. The statements about the model, each a proposition for the provers. -/

open Sys2Proof Sys2Proof.Machine

/-! ### Encoding -/

/-- The words of a well-formed operation decode to it, and what follows them is left over (10_state.md R14, 30_encoding.md
R62, R70, 42_bitfield_decoders.md R121). The places are the model's own (log 6). -/
def Obligations.EncodedOperationDecodesToItself : Prop :=
  ∀ (i : Instr) (pl : Place) (bs rest : List Byte), wellFormed i = true → encode i = some (pl, bs) →
    decode pl (bs ++ rest) = .ok (i, rest)

/-- Words written out from the spec's encodings decode to the operations they stand for (R14, R61, R64, R70, R72). The block
has no encoding of operations (D22): that a word is read by its place, and that the byte 0x7E alone reads as `XFLAG.O` where
`XFLAG.C` has the same bits, is the model's choice (log 6). -/
def Obligations.SpecWordsDecodeAsWritten : Prop :=
  decode .phase [0x06#8] = .ok (.xhcs, []) ∧ decode .phase [0x0A#8] = .ok (.vlen, []) ∧
  decode .flag [0x7E#8] = .ok (.xflagO, []) ∧
  decode .frameFormat [0xA0#8, 0x11#8] = .ok (.ftypeA 0x011#12, []) ∧
  decode .frameFormat [0x98#8, 0x10#8] = .ok (.ftypeOther 0x9#4 0x810#12, []) ∧
  decode .control [0x93#8] = .ok (.classifySnrm 1#1, []) ∧
  decode .control [0x30#8] = .ok (.classifyI 1#3 1#1 0#3, []) ∧
  decode .control [0xF1#8] = .ok (.classifyRr 7#3 1#1, []) ∧
  decode .control [0x0D#8] = .ok (.classifyNone 0#3 0#1 6#3, [])

/-- The phase codes: 0, 13 and 14 perform no operation and 15 is never taken, each rejected by name; the codes 1 to 12
give the twelve phase operations in order (10_state.md R14). That a code lies in the low bits of a byte, and that a byte of
16 or more is rejected by name, is the model's choice (log 6). -/
def Obligations.PhaseCodesNameTheirOperation : Prop :=
  (∀ k : Fin 12, (decode .phase [BitVec.ofNat 8 (k.val + 1)]).toOption.map Prod.fst = phaseOps[k.val]?) ∧
  decode .phase [0#8] = .error .phaseIdle ∧ decode .phase [13#8] = .error .phaseDone ∧
  decode .phase [14#8] = .error .phaseError ∧
  (∀ b : Byte, 15 ≤ b.toNat → decode .phase [b] = .error .noSuchPhase)

/-! ### The step -/

/-- A step runs the operation of the present phase, or the first pending move, with that move taken off the list
(45_sequencer_assembler_host.md R180, R181, R194; the list of moves is the model's own, log 4). -/
def Obligations.StepRunsTheDecodedOperation : Prop :=
  ∀ (s : State) (i : Instr) (ms : List Move),
    (s.pending = [] → decode .phase (fetchBytes s) = .ok (i, []) → step s = exec i s) ∧
    (s.pending = .tick :: ms → decode .phase (fetchBytes s) = .ok (i, []) → step s = exec i { s with pending := ms }) ∧
    (s.pending = .op i :: ms → step s = exec i { s with pending := ms })

/-- In `IDLE`, `DONE` and `ERROR` the sequencer has no step: without a host move the state does not change (R183). That
the model's step answers the same state there, less an empty move that was pending (log 4), is log 14. -/
def Obligations.NoStepOutsideARun : Prop :=
  ∀ (s : State) (ms : List Move), phaseStatus s.phase ≠ .busy →
    (s.pending = [] → step s = .next s) ∧ (s.pending = .tick :: ms → step s = .next { s with pending := ms })

/-! ### Reset -/

/-- The reset values (10_state.md R38): after power-on reset and after START. A power-on reset in any state, a run in
progress included, leaves the state after power-on reset and no outcome of the run (70_reset_and_hazards.md R240); that it is
a move whose successors stay pending is the model's choice (log 4). -/
def Obligations.ResetAndStartHoldNoValues : Prop :=
  (State.reset.n = 0 ∧ State.reset.cur = 0 ∧ State.reset.phase = .idle ∧ State.reset.err.kind = .none ∧
    ∀ r ∈ fieldRegs ++ contextRegs, regValue State.reset r = none) ∧
  (∀ (s : State) (ms : List Move), s.pending = .powerOn :: ms → step s = .next { State.reset with pending := ms }) ∧
  ∀ s : State, phaseStatus s.phase ≠ .busy →
    ∃ t, exec .start s = .next t ∧ t.mem = s.mem ∧ t.n = s.n ∧ t.cur = 0 ∧ t.phase = .flagO ∧ t.err.kind = .none ∧
      ∀ r ∈ fieldRegs ++ contextRegs, regValue t r = none

/-! ### Frame Reader -/

/-- `RD n` (40_frame_reader.md R91): the `n` bytes at the cursor, which moves past them; fewer than `n` left raises
UnderrunError, with the cursor where it was. What is given back is held in `ret`, the model's own field (log 5). That a
failing read consumes nothing is the spec's decision D9. That it holds in every phase, so that `RD` exercised on its own moves
`CUR` in `DONE` and overwrites the recorded outcome in `DONE` and `ERROR` (against R183, R222 for a run), is the model's choice
(log 4). -/
def Obligations.RdReadsOrUnderruns : Prop :=
  ∀ (count : Nat) (s : State), bufferOk s → s.cur ≤ s.n →
    (count ≤ s.n - s.cur →
      exec (.rd count) s =
        .next { s with cur := s.cur + count, ret := some (.bytes (slice s s.cur count)) }) ∧
    (s.n - s.cur < count →
      exec (.rd count) s = .next (raise (.underrun s.cur count (s.n - s.cur)) s))

/-- `CNT` gives back `CUR` and writes nothing (R92). What is given back is held in `ret`, the model's own field (log 5).
-/
def Obligations.CntGivesTheCursor : Prop :=
  ∀ s : State, exec .cnt s = .next { s with ret := some (.num s.cur) }

/-- `RAW a b` gives back the bytes at offsets `a` up to but not including `b` and moves nothing (R93). What is given back
is held in `ret`, the model's own field (log 5). -/
def Obligations.RawGivesTheRange : Prop :=
  ∀ (a b : Nat) (s : State), bufferOk s → a ≤ b → b ≤ s.cur → s.cur ≤ s.n →
    exec (.raw a b) s = .next { s with ret := some (.bytes (slice s a (b - a))) }

/-! ### Field Extractors -/

/-- `XFLAG.O` (41_field_extractors.md R101): the byte at the cursor must be 0x7E. -/
def Obligations.OpeningFlagIsTakenOrGuarded : Prop :=
  ∀ s : State, bufferOk s → s.phase = .flagO → s.cur ≤ s.n →
    (s.cur < s.n → byteAt s s.cur = 0x7E#8 →
      exec .xflagO s = .next { s with cur := s.cur + 1, f := { s.f with flag := some 0x7E#8 }, phase := .ffmt }) ∧
    (s.cur < s.n → byteAt s s.cur ≠ 0x7E#8 →
      exec .xflagO s = .next (raise (.frameGuard s.cur (byteAt s s.cur)) { s with cur := s.cur + 1 })) ∧
    (s.cur = s.n → exec .xflagO s = .next (raise (.underrun s.cur 1 0) s))

/-- `XFLAG.C` (R109): as the opening flag, at the closing position. -/
def Obligations.ClosingFlagIsTakenOrGuarded : Prop :=
  ∀ s : State, bufferOk s → s.phase = .flagC → s.cur ≤ s.n →
    (s.cur < s.n → byteAt s s.cur = 0x7E#8 →
      exec .xflagC s = .next { s with cur := s.cur + 1, f := { s.f with flagEnd := some 0x7E#8 }, phase := .asm }) ∧
    (s.cur < s.n → byteAt s s.cur ≠ 0x7E#8 →
      exec .xflagC s = .next (raise (.frameGuard s.cur (byteAt s s.cur)) { s with cur := s.cur + 1 })) ∧
    (s.cur = s.n → exec .xflagC s = .next (raise (.underrun s.cur 1 0) s))

/-- `XFFMT` (R102, 30_encoding.md R62, R72): with `w = b0*256 + b1`, the length is `w mod 2048`, the segmentation bit is
bit 11, and the type is 3 for nibble 0xA, else the nibble times 4096. -/
def Obligations.FrameFormatIsUnpacked : Prop :=
  ∀ s : State, bufferOk s → s.phase = .ffmt → s.cur ≤ s.n →
    (s.cur + 2 ≤ s.n → ∀ w : Nat, w = (byteAt s s.cur).toNat * 256 + (byteAt s (s.cur + 1)).toNat →
      exec .xffmt s = .next { s with
        cur := s.cur + 2
        f := { s.f with
          len := some (BitVec.ofNat 11 (w % 2048))
          seg := some (BitVec.ofNat 1 (w / 2048 % 2))
          fmtType := some (BitVec.ofNat 16 (if w / 4096 = 10 then 3 else w / 4096 * 4096)) }
        phase := .dest }) ∧
    (s.n < s.cur + 2 → exec .xffmt s = .next (raise (.underrun s.cur 2 (s.n - s.cur)) s))

/-- `XADDR.D` (R103): a whole address field at the cursor is taken in wire order; a buffer that ends before the field does
raises UnderrunError at its end. -/
def Obligations.DestinationAddressIsTaken : Prop :=
  ∀ s : State, bufferOk s → s.phase = .dest → s.cur ≤ s.n →
    (∀ bs : List Byte, addressField bs → s.cur + bs.length ≤ s.n → slice s s.cur bs.length = bs →
      exec .xaddrD s = .next { s with
        cur := s.cur + bs.length
        f := { s.f with dest := ⟨bs[0]?, bs[1]?, bs[2]?, bs[3]?, some bs.length⟩ }
        phase := .src }) ∧
    (s.n < s.cur + 4 → (∀ k, s.cur ≤ k → k < s.n → astop (byteAt s k) = 0#1) →
      exec .xaddrD s = .next (raise (.underrun s.n 1 0) { s with cur := s.n }))

/-- `XADDR.S` (R104): the same for the source address. -/
def Obligations.SourceAddressIsTaken : Prop :=
  ∀ s : State, bufferOk s → s.phase = .src → s.cur ≤ s.n →
    (∀ bs : List Byte, addressField bs → s.cur + bs.length ≤ s.n → slice s s.cur bs.length = bs →
      exec .xaddrS s = .next { s with
        cur := s.cur + bs.length
        f := { s.f with src := ⟨bs[0]?, bs[1]?, bs[2]?, bs[3]?, some bs.length⟩ }
        phase := .ctrl }) ∧
    (s.n < s.cur + 4 → (∀ k, s.cur ≤ k → k < s.n → astop (byteAt s k) = 0#1) →
      exec .xaddrS s = .next (raise (.underrun s.n 1 0) { s with cur := s.n }))

/-- `XCTRL` (R105): the four control fields and the class of the control byte at the cursor. -/
def Obligations.ControlByteIsSplitAndClassified : Prop :=
  ∀ s : State, bufferOk s → s.phase = .ctrl → s.cur ≤ s.n →
    (s.cur < s.n → ∀ c : Nat, c = (byteAt s s.cur).toNat →
      exec .xctrl s = .next { s with
        cur := s.cur + 1
        f := { s.f with
          lsb := some (BitVec.ofNat 1 (c % 2))
          pf := some (BitVec.ofNat 1 (c / 16 % 2))
          recv := some (BitVec.ofNat 8 (c / 32 * 32))
          send := some (BitVec.ofNat 8 (c / 2 % 8 * 2))
          cls := some (classify (c % 2) (c / 32 * 32) (c / 2 % 8 * 2)) }
        phase := .hcs }) ∧
    (s.cur = s.n → exec .xctrl s = .next (raise (.underrun s.cur 1 0) s))

/-- `XHCS` (R106, 20_memory.md R43): the two bytes at the cursor, low byte first, must be `CK` of everything from offset 1
to the cursor. -/
def Obligations.HeaderChecksumIsCompared : Prop :=
  ∀ s : State, bufferOk s → s.phase = .hcs → 1 ≤ s.cur → s.cur ≤ s.n →
    (s.cur + 2 ≤ s.n → ∀ v : Half,
      v.toNat = (byteAt s s.cur).toNat + 256 * (byteAt s (s.cur + 1)).toNat →
      (Config.ck (slice s 1 (s.cur - 1)) = v →
        exec .xhcs s = .next { s with cur := s.cur + 2, f := { s.f with hcs := some v }, phase := .ilen }) ∧
      (Config.ck (slice s 1 (s.cur - 1)) ≠ v →
        exec .xhcs s =
          .next (raise (.checksum .hcs v (Config.ck (slice s 1 (s.cur - 1))) s.cur) { s with cur := s.cur + 2 }))) ∧
    (s.n < s.cur + 2 → exec .xhcs s = .next (raise (.underrun s.cur 2 (s.n - s.cur)) s))

/-- `XFCS` (R108): the same for the FCS. -/
def Obligations.FrameChecksumIsCompared : Prop :=
  ∀ s : State, bufferOk s → s.phase = .fcs → 1 ≤ s.cur → s.cur ≤ s.n →
    (s.cur + 2 ≤ s.n → ∀ v : Half,
      v.toNat = (byteAt s s.cur).toNat + 256 * (byteAt s (s.cur + 1)).toNat →
      (Config.ck (slice s 1 (s.cur - 1)) = v →
        exec .xfcs s = .next { s with cur := s.cur + 2, f := { s.f with fcs := some v }, phase := .vlen }) ∧
      (Config.ck (slice s 1 (s.cur - 1)) ≠ v →
        exec .xfcs s =
          .next (raise (.checksum .fcs v (Config.ck (slice s 1 (s.cur - 1))) s.cur) { s with cur := s.cur + 2 }))) ∧
    (s.n < s.cur + 2 → exec .xfcs s = .next (raise (.underrun s.cur 2 (s.n - s.cur)) s))

/-- `XINFO` (R107): the offset of the information is recorded and the cursor moves past it. -/
def Obligations.InformationIsPassedOver : Prop :=
  ∀ (s : State) (k : Nat), bufferOk s → s.phase = .info → s.cur ≤ s.n → s.f.infoN = some k →
    (s.cur + k ≤ s.n →
      exec .xinfo s = .next { s with cur := s.cur + k, f := { s.f with infoOff := some s.cur }, phase := .fcs }) ∧
    (s.n < s.cur + k → exec .xinfo s = .next (raise (.underrun s.cur k (s.n - s.cur)) s))

/-! ### Validators -/

/-- `ILEN` (44_checksum_length_validators.md R166, R167): header-only when the declared length is the header's count, a
payload of `F.LEN - 1 - CUR` bytes when at least two more are declared, LengthError otherwise. That a negative information
length raises LengthError is the spec's decision D10. -/
def Obligations.PayloadTestHasThreeOutcomes : Prop :=
  ∀ (s : State) (len : BitVec 11) (h : Nat), s.phase = .ilen → s.f.len = some len → s.cur = h + 1 →
    (len.toNat = h →
      exec .ilen s = .next { s with f := { s.f with payload := some 0#1 }, phase := .flagC }) ∧
    (h + 2 ≤ len.toNat →
      exec .ilen s = .next { s with
        f := { s.f with payload := some 1#1, infoN := some (len.toNat - h - 2) }, phase := .info }) ∧
    (len.toNat < h ∨ len.toNat = h + 1 → exec .ilen s = .next (raise (.length len.toNat h s.cur) s))

/-- `VLEN` in its own phase (R165): LengthError exactly when the declared length is not the count of bytes after the opening
flag; where it is, nothing is written but the phase, which becomes `P_FLAG_C` (R181). -/
def Obligations.LengthValidatorComparesTheCount : Prop :=
  ∀ (s : State) (len : BitVec 11), s.phase = .vlen → s.f.len = some len → 1 ≤ s.cur →
    (len.toNat = s.cur - 1 → exec .vlen s = .next { s with phase := .flagC }) ∧
    (len.toNat ≠ s.cur - 1 → exec .vlen s = .next (raise (.length len.toNat (s.cur - 1) s.cur) s))

/-- `CKSUM s` gives back `CK(s)` (R160). What is given back is held in `ret`, the model's own field (log 5). -/
def Obligations.CksumGivesTheChecksum : Prop :=
  ∀ (bytes : List Byte) (s : State), exec (.cksum bytes) s = .next { s with ret := some (.half (Config.ck bytes)) }

/-- `VCHK.H` and `VCHK.F` (R163, R164): nothing is written where the values agree; ChecksumError of the kind where they
differ, with the embedded value as the expected one. That it holds in every phase, so that a comparison exercised on its own
in `DONE` or `ERROR` overwrites the recorded outcome (against R222 for a run), is the model's choice (log 4). -/
def Obligations.ChecksumComparisonPassesOrRaises : Prop :=
  ∀ (embedded : Half) (range : List Byte) (pos : Nat) (s : State),
    (Config.ck range = embedded →
      exec (.vchkH embedded range pos) s = .next s ∧ exec (.vchkF embedded range pos) s = .next s) ∧
    (Config.ck range ≠ embedded →
      exec (.vchkH embedded range pos) s = .next (raise (.checksum .hcs embedded (Config.ck range) pos) s) ∧
      exec (.vchkF embedded range pos) s = .next (raise (.checksum .fcs embedded (Config.ck range) pos) s))

/-- The byte order of the checksum fields (20_memory.md R43): of the two bytes the one at the lower offset is the low-order
byte of the value, which is reached by a big-endian reassembly and a swap. -/
def Obligations.ChecksumFieldsAreLowByteFirst : Prop :=
  (∀ b0 b1 : Byte, (swap16 (be16 b0 b1)).toNat = b1.toNat * 256 + b0.toNat) ∧
  (∀ s t : State, bufferOk s → exec .xhcs s = .next t → t.phase ≠ .error →
    ∃ v, t.f.hcs = some v ∧ v.toNat = (byteAt s (s.cur + 1)).toNat * 256 + (byteAt s s.cur).toNat) ∧
  (∀ s t : State, bufferOk s → exec .xfcs s = .next t → t.phase ≠ .error →
    ∃ v, t.f.fcs = some v ∧ v.toNat = (byteAt s (s.cur + 1)).toNat * 256 + (byteAt s s.cur).toNat)

/-! ### Bit-Field Decoders -/

/-- `BE16` (42_bitfield_decoders.md R121): `s[0]*256 + s[1]`. What is given back is held in `ret`, the model's own field
(log 5). -/
def Obligations.Be16IsBigEndian : Prop :=
  ∀ (b0 b1 : Byte) (s : State),
    exec (.be16 b0 b1) s = .next { s with ret := some (.half (BitVec.ofNat 16 (b0.toNat * 256 + b1.toNat))) }

/-- `SWAP16` (R122): `(v & 0xFF)*256 + (v >> 8)`; swapping twice gives the value back. What is given back is held in
`ret`, the model's own field (log 5). -/
def Obligations.Swap16ExchangesTheOctets : Prop :=
  ∀ (v : Half) (s : State),
    exec (.swap16 v) s = .next { s with ret := some (.half (BitVec.ofNat 16 (v.toNat % 256 * 256 + v.toNat / 256))) } ∧
    swap16 (swap16 v) = v

/-- `FLEN` and `FSEG` (R123, R124): bits 10:0 and bit 11 of the frame-format word. What is given back is held in `ret`,
the model's own field (log 5). -/
def Obligations.LengthAndSegmentationAreTheirBits : Prop :=
  ∀ (w : Half) (s : State),
    exec (.flen w) s = .next { s with ret := some (.len (BitVec.ofNat 11 (w.toNat % 2048))) } ∧
    exec (.fseg w) s = .next { s with ret := some (.bit (BitVec.ofNat 1 (w.toNat / 2048 % 2))) }

/-- `FTYPE` and its two rows (R125): nibble 0xA gives 3, any other nibble gives itself times 4096, unshifted. What is
given back is held in `ret`, the model's own field (log 5). -/
def Obligations.FormatTypeNormalisesOneNibble : Prop :=
  ∀ (w : Half) (t : BitVec 4) (x : BitVec 12) (s : State),
    exec (.ftype w) s = .next { s with
      ret := some (.half (BitVec.ofNat 16 (if w.toNat / 4096 = 10 then 3 else w.toNat / 4096 * 4096))) } ∧
    exec (.ftypeA x) s = .next { s with ret := some (.half 3#16) } ∧
    (t ≠ 0xA#4 →
      exec (.ftypeOther t x) s = .next { s with ret := some (.half (BitVec.ofNat 16 (t.toNat * 4096))) })

/-- `ASTOP`, `CLSB`, `CPF`, `CRECV`, `CSEND` (R126 to R130): the masks of the address and control byte, unshifted. What is
given back is held in `ret`, the model's own field (log 5). -/
def Obligations.ByteFieldsAreTheirMasks : Prop :=
  ∀ (c : Byte) (s : State),
    exec (.astop c) s = .next { s with ret := some (.bit (BitVec.ofNat 1 (c.toNat % 2))) } ∧
    exec (.clsb c) s = .next { s with ret := some (.bit (BitVec.ofNat 1 (c.toNat % 2))) } ∧
    exec (.cpf c) s = .next { s with ret := some (.bit (BitVec.ofNat 1 (c.toNat / 16 % 2))) } ∧
    exec (.crecv c) s = .next { s with ret := some (.byte (BitVec.ofNat 8 (c.toNat / 32 * 32))) } ∧
    exec (.csend c) s = .next { s with ret := some (.byte (BitVec.ofNat 8 (c.toNat / 2 % 8 * 2))) }

/-! ### Classifier -/

/-- `CLASSIFY` (43_control_classifier.md R141): the ordered list on any three natural numbers, first match wins. What is
given back is held in `ret`, the model's own field (log 5). -/
def Obligations.ClassifyFollowsTheOrderedList : Prop :=
  ∀ (lsb receive send : Nat) (s : State), ∃ c, exec (.classify lsb receive send) s = .next { s with ret := some (.cls c) } ∧
    (lsb = 0 → c = .i) ∧
    (lsb ≠ 0 → receive = 0x80 → send = 0x2 → c = .snrm) ∧
    (lsb ≠ 0 → receive = 0x40 → send = 0x2 → c = .disc) ∧
    (lsb ≠ 0 → receive = 0x60 → send = 0x2 → c = .ua) ∧
    (lsb ≠ 0 → receive = 0x00 → send = 0xE → c = .dm) ∧
    (lsb ≠ 0 → receive = 0x80 → send = 0x6 → c = .frmr) ∧
    (lsb ≠ 0 → receive = 0x00 → send = 0x2 → c = .ui) ∧
    (lsb ≠ 0 → send = 0x4 → c = .rnr) ∧
    (lsb ≠ 0 → send = 0x0 → c = .rr) ∧
    (lsb ≠ 0 → send ≠ 0x4 → send ≠ 0x0 →
      (send = 0x2 → receive ≠ 0x80 ∧ receive ≠ 0x40 ∧ receive ≠ 0x60 ∧ receive ≠ 0x00) →
      (send = 0xE → receive ≠ 0x00) → (send = 0x6 → receive ≠ 0x80) → c = .none)

/-- The ten rows of the classifier (R142 to R151): every byte of a row's pattern gets the row's class; for the last row,
the bytes that no other row matches. What is given back is held in `ret`, the model's own field (log 5). -/
def Obligations.ClassifierRowsGiveTheirClass : Prop :=
  ∀ (r k : BitVec 3) (p : BitVec 1) (s : State),
    exec (.classifyI r p k) s = .next { s with ret := some (.cls .i) } ∧
    exec (.classifySnrm p) s = .next { s with ret := some (.cls .snrm) } ∧
    exec (.classifyDisc p) s = .next { s with ret := some (.cls .disc) } ∧
    exec (.classifyUa p) s = .next { s with ret := some (.cls .ua) } ∧
    exec (.classifyDm p) s = .next { s with ret := some (.cls .dm) } ∧
    exec (.classifyFrmr p) s = .next { s with ret := some (.cls .frmr) } ∧
    exec (.classifyUi p) s = .next { s with ret := some (.cls .ui) } ∧
    exec (.classifyRnr r p) s = .next { s with ret := some (.cls .rnr) } ∧
    exec (.classifyRr r p) s = .next { s with ret := some (.cls .rr) } ∧
    ((k ≠ 0b010#3 ∧ k ≠ 0b000#3 ∧ (k = 0b001#3 → r ≠ 0b100#3 ∧ r ≠ 0b010#3 ∧ r ≠ 0b011#3 ∧ r ≠ 0b000#3) ∧
        (k = 0b111#3 → r ≠ 0b000#3) ∧ (k = 0b011#3 → r ≠ 0b100#3)) →
      exec (.classifyNone r p k) s = .next { s with ret := some (.cls .none) })

/-- The match/mask table of 30_encoding.md R70 is the ordered list of R141 on every control byte, its rows are pairwise
disjoint, and the poll/final bit never changes the class (R152). -/
def Obligations.ClassTableIsTheOrderedList : Prop :=
  (∀ c : Byte, classByTable c = classify (c.toNat % 2) (c.toNat / 32 * 32) (c.toNat / 2 % 8 * 2)) ∧
  (∀ c : Byte, (classRows.filter (fun row => rowMatches row c)).length ≤ 1) ∧
  (∀ c : Byte, classifyByte (c ^^^ 0x10#8) = classifyByte c)

/-! ### Assembler, whole call, host -/

/-- `ASM` (45_sequencer_assembler_host.md R190): moves no data, raises nothing, and makes `STATUS` read `DONE`. -/
def Obligations.AssemblerPublishes : Prop :=
  ∀ s : State, s.phase = .asm → exec .asm s = .next { s with phase := .done } ∧ phaseStatus .done = .done

/-- `LOAD s` (R195, 70_reset_and_hazards.md R242): `BUF` holds `s`, `N = |s|`, and the outcome of the previous run is
gone. That the bytes beyond `|s|` are dropped is the model's choice (log 3). -/
def Obligations.LoadDeliversAFrame : Prop :=
  ∀ (bytes : List Byte) (s : State), phaseStatus s.phase ≠ .busy → bytes.length ≤ Config.bufCap →
    ∃ t, exec (.load bytes) s = .next t ∧ bufferOk t ∧ buffer t = bytes ∧ t.n = bytes.length ∧ t.cur = 0 ∧
      t.phase = .idle ∧ t.f = Fields.empty ∧ t.err = ErrRegs.clear ∧ t.ret = s.ret ∧ t.pending = s.pending

/-- `START` (R196): the per-call reset, with `BUF` and `N` unchanged. -/
def Obligations.StartBeginsARun : Prop :=
  ∀ s : State, phaseStatus s.phase ≠ .busy →
    exec .start s = .next { s with cur := 0, f := Fields.empty, err := ErrRegs.clear, phase := .flagO }

/-- While BUSY the host has no LOAD and no START (R198 (b)), and a frame longer than BUF_CAP cannot be loaded (R195); a
whole call is no more available than START (log 7). -/
def Obligations.BusyParserTakesNoCommand : Prop :=
  (∀ (bytes : List Byte) (s : State), phaseStatus s.phase = .busy →
    exec (.load bytes) s = .refused (.busy "LOAD") ∧ exec .start s = .refused (.busy "START") ∧
    exec .decode s = .refused (.busy "DECODE")) ∧
  (∀ (bytes : List Byte) (s : State), phaseStatus s.phase ≠ .busy → Config.bufCap < bytes.length →
    exec (.load bytes) s = .refused .tooLong)

/-- What RESULT gives back, by STATUS (R197): `STATUS` always, `N` and `ERR.KIND` when not BUSY, in `DONE` also `CUR`,
every field register that holds a value and the bytes below `N`, in `ERROR` also the context of the error. What is given
back is held in `ret`, the model's own field (log 5). -/
def Obligations.ResultGivesReadableRegisters : Prop :=
  ∀ (s : State) (r : Reg) (v : Value), regValue s r = some v →
    (r = .status ∨
      (phaseStatus s.phase ≠ .busy ∧ (r = .n ∨ r = .errKind)) ∨
      (phaseStatus s.phase = .done ∧ (r = .cur ∨ r ∈ fieldRegs ∨ ∃ k, r = .buf k)) ∨
      (phaseStatus s.phase = .error ∧ (r = .errExpected ∨ r = .errActual ∨ r = .errPos ∨
        (r = .errCk ∧ s.err.kind = .checksum)))) →
    exec (.result r) s = .next { s with ret := some v }

/-- What RESULT does not give (R197): while BUSY everything but `STATUS`; in `IDLE` and `ERROR` the fields, `CUR` and the
buffer; outside `ERROR` the context of an error; `PHASE`'s code never; in `ERROR` the kind of a checksum where the error is
no ChecksumError (R33); and in `DONE` and `ERROR` a register that holds no value, in `DONE` a byte at or beyond `N` (10_state.md
R12) included. That the model faults there is logs 11 and 12. -/
def Obligations.ResultHidesTheRest : Prop :=
  ∀ (s : State) (r : Reg),
    (phaseStatus s.phase = .busy → r ≠ .status → exec (.result r) s = .fault (.notReadable r)) ∧
    (phaseStatus s.phase ≠ .done → (r = .cur ∨ r ∈ fieldRegs ∨ ∃ k, r = .buf k) →
      exec (.result r) s = .fault (.notReadable r)) ∧
    (phaseStatus s.phase ≠ .error → r ∈ contextRegs → exec (.result r) s = .fault (.notReadable r)) ∧
    (r = .phase → exec (.result r) s = .fault (.notReadable r)) ∧
    (phaseStatus s.phase = .error → r = .errCk → s.err.kind ≠ .checksum →
      exec (.result r) s = .fault (.notReadable r)) ∧
    (phaseStatus s.phase = .done → r ∈ fieldRegs → regValue s r = none →
      exec (.result r) s = .fault (.noValue r)) ∧
    (phaseStatus s.phase = .done → ∀ k, r = .buf k → s.n ≤ k → exec (.result r) s = .fault (.noValue r)) ∧
    (phaseStatus s.phase = .error → r ∈ contextRegs → (r = .errCk → s.err.kind = .checksum) → regValue s r = none →
      exec (.result r) s = .fault (.noValue r))

/-- Every register name reads its own register (10_state.md R10 to R35). -/
def Obligations.RegisterNamesReadTheirRegister : Prop :=
  ∀ (s : State) (w : Half) (b : Byte) (x : BitVec 1) (len : BitVec 11) (k : Nat) (c : FrameClass),
    (s.f.flag = some b → regValue s .flag = some (.byte b)) ∧
    (s.f.len = some len → regValue s .len = some (.len len)) ∧
    (s.f.seg = some x → regValue s .seg = some (.bit x)) ∧
    (s.f.fmtType = some w → regValue s .fmtType = some (.half w)) ∧
    (s.f.dest.b0 = some b → regValue s (.dest 0) = some (.byte b)) ∧
    (s.f.dest.b1 = some b → regValue s (.dest 1) = some (.byte b)) ∧
    (s.f.dest.b2 = some b → regValue s (.dest 2) = some (.byte b)) ∧
    (s.f.dest.b3 = some b → regValue s (.dest 3) = some (.byte b)) ∧
    (s.f.dest.n = some k → regValue s .destN = some (.num k)) ∧
    (s.f.src.b0 = some b → regValue s (.src 0) = some (.byte b)) ∧
    (s.f.src.b1 = some b → regValue s (.src 1) = some (.byte b)) ∧
    (s.f.src.b2 = some b → regValue s (.src 2) = some (.byte b)) ∧
    (s.f.src.b3 = some b → regValue s (.src 3) = some (.byte b)) ∧
    (s.f.src.n = some k → regValue s .srcN = some (.num k)) ∧
    (s.f.lsb = some x → regValue s .lsb = some (.bit x)) ∧
    (s.f.pf = some x → regValue s .pf = some (.bit x)) ∧
    (s.f.recv = some b → regValue s .recv = some (.byte b)) ∧
    (s.f.send = some b → regValue s .send = some (.byte b)) ∧
    (s.f.cls = some c → regValue s .cls = some (.cls c)) ∧
    (s.f.hcs = some w → regValue s .hcs = some (.half w)) ∧
    (s.f.payload = some x → regValue s .payload = some (.bit x)) ∧
    (s.f.infoOff = some k → regValue s .infoOff = some (.num k)) ∧
    (s.f.infoN = some k → regValue s .infoN = some (.num k)) ∧
    (s.f.fcs = some w → regValue s .fcs = some (.half w)) ∧
    (s.f.flagEnd = some b → regValue s .flagEnd = some (.byte b)) ∧
    (bufferOk s → k < s.n → regValue s (.buf k) = some (.byte (byteAt s k))) ∧
    regValue s .status = some (.status (phaseStatus s.phase)) ∧ regValue s .n = some (.num s.n) ∧
    regValue s .phase = some (.phase s.phase) ∧ regValue s .cur = some (.num s.cur) ∧
    regValue s .errKind = some (.errKind s.err.kind) ∧
    (∀ e, s.err.ck = some e → regValue s .errCk = some (.ckKind e)) ∧
    (s.err.expected = some k → regValue s .errExpected = some (.num k)) ∧
    (s.err.actual = some k → regValue s .errActual = some (.num k)) ∧
    (s.err.pos = some k → regValue s .errPos = some (.num k))

/-- `DECODE` (R192): on any buffer the whole call answers a frame, with `DONE` and the frame in the field registers and
the buffer (R16), or exactly one error, with `ERROR` and the error record (60_exceptions.md R212, R213). What is given
back is held in `ret`, the model's own field (log 5). That the whole call is one step of the model is log 7. -/
def Obligations.DecodeAnswersAFrameOrOneError : Prop :=
  ∀ s : State, bufferOk s → phaseStatus s.phase ≠ .busy →
    ∃ t, exec .decode s = .next t ∧ t.mem = s.mem ∧ t.n = s.n ∧ t.pending = s.pending ∧
      ((∃ fr, decodeCall Config.ck (buffer s) = .ok fr ∧ t.phase = .done ∧ frameOf t = some fr ∧
          t.cur = fr.frameLen.toNat + 2 ∧ t.err = ErrRegs.clear ∧ t.ret = some (.frame fr)) ∨
       (∃ e, decodeCall Config.ck (buffer s) = .error e ∧ t.phase = .error ∧ t.f = Fields.empty ∧
          t.err = errorRegs e ∧ t.ret = some (.failed e)))

/-- The whole call accepts every frame laid out as R60 and R50 say whose checksums are `CK` of their ranges and whose
declared length is the bytes between the flags, whatever follows it, and answers the frame's fields (R192, R223). -/
def Obligations.WholeCallAcceptsEveryFrame : Prop :=
  ∀ (ck : List Byte → Half) (w : Half) (dest src : List Byte) (c : Byte) (hcs : Half)
    (payload : Option (List Byte × Half)) (tail : List Byte),
    addressField dest → addressField src →
    hcs = ck (halfBytes w ++ dest ++ src ++ [c]) →
    (∀ info fcs, payload = some (info, fcs) →
      fcs = ck (halfBytes w ++ dest ++ src ++ [c] ++ (halfBytes hcs).reverse ++ info)) →
    w.toNat % 2048 + 2 = (frameBytes w dest src c hcs payload).length →
    decodeCall ck (frameBytes w dest src c hcs payload ++ tail) =
      .ok ⟨0x7E#8, flen w, fseg w, ftype w, dest, src,
        ⟨clsb c, classifyByte c, crecv c, csend c, cpf c⟩, hcs, payload.map Prod.fst, payload.map Prod.snd, 0x7E#8⟩

/-- Fail-closed (60_exceptions.md R232): a frame that the whole call answers was laid out in the buffer as R50 says, with
both flags 0x7E, both checksums `CK` of their ranges, and the declared length equal to the bytes between the flags. -/
def Obligations.WholeCallFailsClosed : Prop :=
  ∀ (ck : List Byte → Half) (buf : List Byte) (fr : DecodedFrame), decodeCall ck buf = .ok fr →
    ∃ (w : Half) (c : Byte) (tail : List Byte),
      buf = frameBytes w fr.destAddr fr.srcAddr c fr.hcs
              (fr.information.bind (fun info => fr.fcs.map (fun v => (info, v)))) ++ tail ∧
      fr.information.isSome = fr.fcs.isSome ∧ addressField fr.destAddr ∧ addressField fr.srcAddr ∧
      fr.frameLen = flen w ∧ fr.segmentationBit = fseg w ∧ fr.formatType = ftype w ∧
      fr.control = ⟨clsb c, classifyByte c, crecv c, csend c, cpf c⟩ ∧
      fr.frameLen.toNat + 2 + tail.length = buf.length ∧
      fr.flag = 0x7E#8 ∧ fr.flagEnd = 0x7E#8 ∧
      fr.hcs = ck (halfBytes w ++ fr.destAddr ++ fr.srcAddr ++ [c]) ∧
      (∀ v, fr.fcs = some v → v = ck ((buf.drop 1).take (fr.frameLen.toNat - 2)))

/-- The two views agree (R193): from the state START leaves, at most twelve steps of the sequencer reach the very state
the whole call leaves, but for what the call gives back. That the whole call is one step of the model is log 7. -/
def Obligations.StepwiseRunAgreesWithWholeCall : Prop :=
  ∀ s : State, bufferOk s → phaseStatus s.phase ≠ .busy → s.pending = [] →
    ∃ t u k, exec .decode s = .next t ∧ exec .start s = .next u ∧ k ≤ 12 ∧
      Host.Core.run core k u = .next { t with ret := s.ret } ∧ ended t

/-- The length of a run (R184): a run that ends in DONE takes exactly 9 steps without a payload and exactly 12 with one,
and has not ended before. -/
def Obligations.SuccessfulRunTakesNineOrTwelveSteps : Prop :=
  ∀ (s : State) (fr : DecodedFrame), bufferOk s → phaseStatus s.phase ≠ .busy → s.pending = [] →
    decodeCall Config.ck (buffer s) = .ok fr →
    (∃ t, Host.Core.run core (if fr.information.isSome then 12 else 9) (started s) = .next t ∧ t.phase = .done) ∧
    (∀ k t, k < (if fr.information.isSome then 12 else 9) →
      Host.Core.run core k (started s) = .next t → ¬ ended t)

/-- No state of an earlier run reaches a later one (10_state.md R37, R241): two parsers with the same buffer answer the
same whole call with the same registers, whatever their registers held. -/
def Obligations.OutcomeDependsOnTheBufferAlone : Prop :=
  ∀ s t s' t' : State, s.mem = t.mem → s.n = t.n → exec .decode s = .next s' → exec .decode t = .next t' →
    { s' with pending := t'.pending } = t'

/-! ### Errors -/

/-- What `raise` leaves, for each of the four errors (60_exceptions.md R211 to R213): the error record, every field
register without a value, `ERROR`, and everything else as it was. -/
def Obligations.RaiseRecordsTheErrorAndDropsTheFields : Prop :=
  ∀ (s : State) (pos need remaining expected actual : Nat) (b : Byte) (kind : CkKind) (v w : Half),
    raise (.frameGuard pos b) s = { s with
      phase := .error, f := Fields.empty, err := ⟨.frameGuard, none, some 0x7E, some b.toNat, some pos⟩ } ∧
    raise (.underrun pos need remaining) s = { s with
      phase := .error, f := Fields.empty, err := ⟨.underrun, none, some need, some remaining, some pos⟩ } ∧
    raise (.checksum kind v w pos) s = { s with
      phase := .error, f := Fields.empty, err := ⟨.checksum, some kind, some v.toNat, some w.toNat, some pos⟩ } ∧
    raise (.length expected actual pos) s = { s with
      phase := .error, f := Fields.empty, err := ⟨.length, none, some expected, some actual, some pos⟩ } ∧
    (∀ r ∈ fieldRegs, ∀ e, regValue (raise e s) r = none)

/-- A phase operation runs only in its own phase (41_field_extractors.md R100); in `ERROR` and `DONE` none runs, so the
sequencer raises no second error (60_exceptions.md R222). That the model refuses it elsewhere is log 10. `RD`, `VCHK.H` and
`VCHK.F` exercised on their own are no phase operations and can raise in any phase: log 4. -/
def Obligations.PhaseOperationRunsOnlyInItsPhase : Prop :=
  ∀ (i : Instr) (p : Phase) (s : State), ownPhase i = some p → s.phase ≠ p →
    ∃ mnemonic, exec i s = .refused (.outOfPhase mnemonic)

/-! ### Frames -/

/-- The functions (42_bitfield_decoders.md R120, R140, R160) give back a value and leave everything else as it was. What
is given back is held in `ret`, the model's own field (log 5). -/
def Obligations.FunctionsOnlyGiveBack : Prop :=
  ∀ (i : Instr) (s t : State), isFunction i = true → exec i s = .next t → ∃ v, t = { s with ret := some v }

/-- The frame of a phase operation (R110, R181): buffer, given-back value and pending moves stay; the cursor does not go
back; it either moves to a successor phase, writing only the registers of the write map and no error register, or takes an
error. -/
def Obligations.PhaseOperationFrame : Prop :=
  ∀ (i : Instr) (p : Phase) (s t : State), ownPhase i = some p → exec i s = .next t →
    t.mem = s.mem ∧ t.n = s.n ∧ t.ret = s.ret ∧ t.pending = s.pending ∧ s.cur ≤ t.cur ∧
      ((t.phase ∈ successors p ∧ t.err = s.err ∧ writesOnly i s.f t.f) ∨
       (t.phase = .error ∧ t.f = Fields.empty ∧ ∃ e, t.err = errorRegs e))

/-- The errors each phase operation can raise (R181): the address, format, control and information extractors only
UnderrunError, the flags also FrameGuardError, the checksums also ChecksumError of their kind, ILEN and VLEN only
LengthError, ASM none. -/
def Obligations.PhaseOperationRaisesOnlyItsErrors : Prop :=
  ∀ (i : Instr) (p : Phase) (s t : State), ownPhase i = some p → exec i s = .next t → t.phase = .error →
    (i = .xflagO ∨ i = .xflagC → t.err.kind = .underrun ∨ t.err.kind = .frameGuard) ∧
    (i = .xffmt ∨ i = .xaddrD ∨ i = .xaddrS ∨ i = .xctrl ∨ i = .xinfo → t.err.kind = .underrun) ∧
    (i = .xhcs → t.err.kind = .underrun ∨ (t.err.kind = .checksum ∧ t.err.ck = some .hcs)) ∧
    (i = .xfcs → t.err.kind = .underrun ∨ (t.err.kind = .checksum ∧ t.err.ck = some .fcs)) ∧
    (i = .ilen ∨ i = .vlen → t.err.kind = .length) ∧ i ≠ .asm

/-- The frame of the Frame Reader's operations, the checksum comparisons and RESULT (R91 to R93, R163, R164, R197): the
buffer and the pending moves stay, the cursor does not go back, and unless an error is taken so do the phase, the field
registers and the error registers. -/
def Obligations.ReaderComparisonAndResultFrame : Prop :=
  ∀ (i : Instr) (s t : State) (count a b pos : Nat) (v : Half) (range : List Byte) (r : Reg),
    i ∈ [Instr.rd count, .cnt, .raw a b, .vchkH v range pos, .vchkF v range pos, .result r] → exec i s = .next t →
    t.mem = s.mem ∧ t.n = s.n ∧ t.pending = s.pending ∧ s.cur ≤ t.cur ∧
      ((t.phase = s.phase ∧ t.f = s.f ∧ t.err = s.err ∧ (i = .rd count ∨ t.cur = s.cur)) ∨
       (t.phase = .error ∧ t.f = Fields.empty ∧ t.cur = s.cur ∧ ∃ e, t = raise e s))

/-- Only LOAD writes the frame buffer or its length (10_state.md R11, R12, 20_memory.md R52): every other operation that
answers a next state leaves every byte as it was. -/
def Obligations.OnlyLoadWritesTheBuffer : Prop :=
  ∀ (i : Instr) (s t : State), (∀ bytes, i ≠ .load bytes) → exec i s = .next t →
    t.n = s.n ∧ ∀ k, t.mem.read k = s.mem.read k

/-- No operation but the three that begin anew (LOAD, START, DECODE) moves the cursor back (R94), and none changes what is
pending. -/
def Obligations.CursorNeverGoesBack : Prop :=
  ∀ (i : Instr) (s t : State), exec i s = .next t →
    ((∀ bytes, i ≠ .load bytes) → i ≠ .start → i ≠ .decode → s.cur ≤ t.cur) ∧ t.pending = s.pending

/-! ### Invariants -/

/-- The state after reset meets the invariant (10_state.md R12 to R35, R38). -/
def Obligations.ResetMeetsTheInvariant : Prop := ParserInv State.reset

/-- Every step keeps the invariant (R12, R13, R15, R17, R31 to R35, R110): the buffer holds exactly the bytes below `N`,
`CUR <= N`, an error is recorded exactly in `ERROR`, and the field registers that hold a value are those the phase has
seen written. -/
def Obligations.EveryStepKeepsTheInvariant : Prop :=
  ∀ s t : State, ParserInv s → step s = .next t → ParserInv t

/-- The state after reset meets the invariant of a run. -/
def Obligations.ResetMeetsTheRunInvariant : Prop := RunInv State.reset

/-- Where only moves that the spec has are pending (log 4), every step keeps the invariant of a run (20_memory.md R50,
10_state.md R39): `CUR` at the offset of the next field, lengths and checksums related as at the end of the frame. -/
def Obligations.EveryStepKeepsTheRunInvariant : Prop :=
  ∀ s t : State, RunInv s → step s = .next t → RunInv t

/-- The six invariants of a finished frame (10_state.md R39). -/
def Obligations.FinishedFrameIsConsistent : Prop :=
  ∀ s : State, RunInv s → s.phase = .done →
    s.f.flag = some 0x7E#8 ∧ s.f.flagEnd = some 0x7E#8 ∧
    ∃ (d k : Nat) (len : BitVec 11) (hcs : Half),
      s.f.dest.n = some d ∧ s.f.src.n = some k ∧ 1 ≤ d ∧ d ≤ 4 ∧ 1 ≤ k ∧ k ≤ 4 ∧ s.f.len = some len ∧
      s.f.hcs = some hcs ∧ s.cur ≤ s.n ∧ hcs = Config.ck (slice s 1 (5 + d + k - 2)) ∧
      (s.f.payload = some 0#1 ∧ len.toNat = 5 + d + k ∧ s.cur = 5 + d + k + 2 ∨
       ∃ (i : Nat) (fcs : Half), s.f.payload = some 1#1 ∧ s.f.infoN = some i ∧ len.toNat = 5 + d + k + i + 2 ∧
         s.f.infoOff = some (5 + d + k + 1) ∧ s.cur = len.toNat + 2 ∧ s.f.fcs = some fcs ∧
         fcs = Config.ck (slice s 1 (len.toNat - 2))) ∧
      ∃ l r z, s.f.lsb = some l ∧ s.f.recv = some r ∧ s.f.send = some z ∧
        s.f.cls = some (classify l.toNat r.toNat z.toNat)

/-- No frame content can stop a run (60_exceptions.md R224, R183): in every working phase the sequencer's step answers a
next state, never a fault or a refusal. -/
def Obligations.RunNeverFaults : Prop :=
  ∀ s : State, RunInv s → phaseStatus s.phase = .busy → s.pending = [] → ∃ t, step s = .next t ∧ t.phase ≠ s.phase

/-- On the sequencer's path the Length Validator cannot fail (44_checksum_length_validators.md R168). -/
def Obligations.LengthValidatorPassesOnThePath : Prop :=
  ∀ s : State, RunInv s → s.phase = .vlen → exec .vlen s = .next { s with phase := .flagC }

/-- Every run ends (R183, R184): from any state of a run, twelve steps of the sequencer reach `DONE` or `ERROR`. -/
def Obligations.EveryRunEnds : Prop :=
  ∀ s : State, RunInv s → phaseStatus s.phase = .busy → s.pending = [] →
    ∃ t, Host.Core.run core 12 s = .next t ∧ ended t
end

