-- ==== Sys2Proof/Laws/State.lean ====
section
/-! SUPPORT. What each update of the state does to each field, so that no proof unfolds an update. -/

namespace Sys2Proof.Machine

@[simp] theorem setCur_mem (c : Nat) (s : State) : (s.setCur c).mem = s.mem := rfl
@[simp] theorem setCur_n (c : Nat) (s : State) : (s.setCur c).n = s.n := rfl
@[simp] theorem setCur_phase (c : Nat) (s : State) : (s.setCur c).phase = s.phase := rfl
@[simp] theorem setCur_cur (c : Nat) (s : State) : (s.setCur c).cur = c := rfl
@[simp] theorem setCur_f (c : Nat) (s : State) : (s.setCur c).f = s.f := rfl
@[simp] theorem setCur_err (c : Nat) (s : State) : (s.setCur c).err = s.err := rfl
@[simp] theorem setCur_ret (c : Nat) (s : State) : (s.setCur c).ret = s.ret := rfl
@[simp] theorem setCur_pending (c : Nat) (s : State) : (s.setCur c).pending = s.pending := rfl

@[simp] theorem setPhase_mem (p : Phase) (s : State) : (s.setPhase p).mem = s.mem := rfl
@[simp] theorem setPhase_n (p : Phase) (s : State) : (s.setPhase p).n = s.n := rfl
@[simp] theorem setPhase_phase (p : Phase) (s : State) : (s.setPhase p).phase = p := rfl
@[simp] theorem setPhase_cur (p : Phase) (s : State) : (s.setPhase p).cur = s.cur := rfl
@[simp] theorem setPhase_f (p : Phase) (s : State) : (s.setPhase p).f = s.f := rfl
@[simp] theorem setPhase_err (p : Phase) (s : State) : (s.setPhase p).err = s.err := rfl
@[simp] theorem setPhase_ret (p : Phase) (s : State) : (s.setPhase p).ret = s.ret := rfl
@[simp] theorem setPhase_pending (p : Phase) (s : State) : (s.setPhase p).pending = s.pending := rfl

@[simp] theorem setF_mem (f : Fields) (s : State) : (s.setF f).mem = s.mem := rfl
@[simp] theorem setF_n (f : Fields) (s : State) : (s.setF f).n = s.n := rfl
@[simp] theorem setF_phase (f : Fields) (s : State) : (s.setF f).phase = s.phase := rfl
@[simp] theorem setF_cur (f : Fields) (s : State) : (s.setF f).cur = s.cur := rfl
@[simp] theorem setF_f (f : Fields) (s : State) : (s.setF f).f = f := rfl
@[simp] theorem setF_err (f : Fields) (s : State) : (s.setF f).err = s.err := rfl
@[simp] theorem setF_ret (f : Fields) (s : State) : (s.setF f).ret = s.ret := rfl
@[simp] theorem setF_pending (f : Fields) (s : State) : (s.setF f).pending = s.pending := rfl

@[simp] theorem setErr_mem (e : ErrRegs) (s : State) : (s.setErr e).mem = s.mem := rfl
@[simp] theorem setErr_n (e : ErrRegs) (s : State) : (s.setErr e).n = s.n := rfl
@[simp] theorem setErr_phase (e : ErrRegs) (s : State) : (s.setErr e).phase = s.phase := rfl
@[simp] theorem setErr_cur (e : ErrRegs) (s : State) : (s.setErr e).cur = s.cur := rfl
@[simp] theorem setErr_f (e : ErrRegs) (s : State) : (s.setErr e).f = s.f := rfl
@[simp] theorem setErr_err (e : ErrRegs) (s : State) : (s.setErr e).err = e := rfl
@[simp] theorem setErr_ret (e : ErrRegs) (s : State) : (s.setErr e).ret = s.ret := rfl
@[simp] theorem setErr_pending (e : ErrRegs) (s : State) : (s.setErr e).pending = s.pending := rfl

@[simp] theorem returns_mem (v : Value) (s : State) : (s.returns v).mem = s.mem := rfl
@[simp] theorem returns_n (v : Value) (s : State) : (s.returns v).n = s.n := rfl
@[simp] theorem returns_phase (v : Value) (s : State) : (s.returns v).phase = s.phase := rfl
@[simp] theorem returns_cur (v : Value) (s : State) : (s.returns v).cur = s.cur := rfl
@[simp] theorem returns_f (v : Value) (s : State) : (s.returns v).f = s.f := rfl
@[simp] theorem returns_err (v : Value) (s : State) : (s.returns v).err = s.err := rfl
@[simp] theorem returns_ret (v : Value) (s : State) : (s.returns v).ret = some v := rfl
@[simp] theorem returns_pending (v : Value) (s : State) : (s.returns v).pending = s.pending := rfl

@[simp] theorem setPending_mem (ms : List Move) (s : State) : (s.setPending ms).mem = s.mem := rfl
@[simp] theorem setPending_n (ms : List Move) (s : State) : (s.setPending ms).n = s.n := rfl
@[simp] theorem setPending_phase (ms : List Move) (s : State) : (s.setPending ms).phase = s.phase := rfl
@[simp] theorem setPending_cur (ms : List Move) (s : State) : (s.setPending ms).cur = s.cur := rfl
@[simp] theorem setPending_f (ms : List Move) (s : State) : (s.setPending ms).f = s.f := rfl
@[simp] theorem setPending_err (ms : List Move) (s : State) : (s.setPending ms).err = s.err := rfl
@[simp] theorem setPending_ret (ms : List Move) (s : State) : (s.setPending ms).ret = s.ret := rfl
@[simp] theorem setPending_pending (ms : List Move) (s : State) : (s.setPending ms).pending = ms := rfl

@[simp] theorem setBuf_mem (m : Mem) (n : Nat) (s : State) : (s.setBuf m n).mem = m := rfl
@[simp] theorem setBuf_n (m : Mem) (n : Nat) (s : State) : (s.setBuf m n).n = n := rfl
@[simp] theorem setBuf_phase (m : Mem) (n : Nat) (s : State) : (s.setBuf m n).phase = s.phase := rfl
@[simp] theorem setBuf_cur (m : Mem) (n : Nat) (s : State) : (s.setBuf m n).cur = s.cur := rfl
@[simp] theorem setBuf_f (m : Mem) (n : Nat) (s : State) : (s.setBuf m n).f = s.f := rfl
@[simp] theorem setBuf_err (m : Mem) (n : Nat) (s : State) : (s.setBuf m n).err = s.err := rfl
@[simp] theorem setBuf_ret (m : Mem) (n : Nat) (s : State) : (s.setBuf m n).ret = s.ret := rfl
@[simp] theorem setBuf_pending (m : Mem) (n : Nat) (s : State) : (s.setBuf m n).pending = s.pending := rfl

@[simp] theorem clearRun_mem (s : State) : s.clearRun.mem = s.mem := rfl
@[simp] theorem clearRun_n (s : State) : s.clearRun.n = s.n := rfl
@[simp] theorem clearRun_phase (s : State) : s.clearRun.phase = s.phase := rfl
@[simp] theorem clearRun_cur (s : State) : s.clearRun.cur = 0 := rfl
@[simp] theorem clearRun_f (s : State) : s.clearRun.f = Fields.empty := rfl
@[simp] theorem clearRun_err (s : State) : s.clearRun.err = ErrRegs.clear := rfl
@[simp] theorem clearRun_ret (s : State) : s.clearRun.ret = s.ret := rfl
@[simp] theorem clearRun_pending (s : State) : s.clearRun.pending = s.pending := rfl

@[simp] theorem raise_mem (e : DecodeError) (s : State) : (raise e s).mem = s.mem := rfl
@[simp] theorem raise_n (e : DecodeError) (s : State) : (raise e s).n = s.n := rfl
@[simp] theorem raise_phase (e : DecodeError) (s : State) : (raise e s).phase = .error := rfl
@[simp] theorem raise_cur (e : DecodeError) (s : State) : (raise e s).cur = s.cur := rfl
@[simp] theorem raise_f (e : DecodeError) (s : State) : (raise e s).f = Fields.empty := rfl
@[simp] theorem raise_err (e : DecodeError) (s : State) : (raise e s).err = errorRegs e := rfl
@[simp] theorem raise_ret (e : DecodeError) (s : State) : (raise e s).ret = s.ret := rfl
@[simp] theorem raise_pending (e : DecodeError) (s : State) : (raise e s).pending = s.pending := rfl

@[simp] theorem loaded_mem (bytes : List Byte) (s : State) : (loaded bytes s).mem = Mem.writeBytes [] 0 bytes := rfl
@[simp] theorem loaded_n (bytes : List Byte) (s : State) : (loaded bytes s).n = bytes.length := rfl
@[simp] theorem loaded_phase (bytes : List Byte) (s : State) : (loaded bytes s).phase = .idle := rfl
@[simp] theorem loaded_cur (bytes : List Byte) (s : State) : (loaded bytes s).cur = 0 := rfl
@[simp] theorem loaded_f (bytes : List Byte) (s : State) : (loaded bytes s).f = Fields.empty := rfl
@[simp] theorem loaded_err (bytes : List Byte) (s : State) : (loaded bytes s).err = ErrRegs.clear := rfl
@[simp] theorem loaded_ret (bytes : List Byte) (s : State) : (loaded bytes s).ret = s.ret := rfl
@[simp] theorem loaded_pending (bytes : List Byte) (s : State) : (loaded bytes s).pending = s.pending := rfl

@[simp] theorem started_mem (s : State) : (started s).mem = s.mem := rfl
@[simp] theorem started_n (s : State) : (started s).n = s.n := rfl
@[simp] theorem started_phase (s : State) : (started s).phase = .flagO := rfl
@[simp] theorem started_cur (s : State) : (started s).cur = 0 := rfl
@[simp] theorem started_f (s : State) : (started s).f = Fields.empty := rfl
@[simp] theorem started_err (s : State) : (started s).err = ErrRegs.clear := rfl
@[simp] theorem started_ret (s : State) : (started s).ret = s.ret := rfl
@[simp] theorem started_pending (s : State) : (started s).pending = s.pending := rfl

@[simp] theorem powerOn_mem (s : State) : (powerOn s).mem = [] := rfl
@[simp] theorem powerOn_n (s : State) : (powerOn s).n = 0 := rfl
@[simp] theorem powerOn_phase (s : State) : (powerOn s).phase = .idle := rfl
@[simp] theorem powerOn_cur (s : State) : (powerOn s).cur = 0 := rfl
@[simp] theorem powerOn_f (s : State) : (powerOn s).f = Fields.empty := rfl
@[simp] theorem powerOn_err (s : State) : (powerOn s).err = ErrRegs.clear := rfl
@[simp] theorem powerOn_ret (s : State) : (powerOn s).ret = none := rfl
@[simp] theorem powerOn_pending (s : State) : (powerOn s).pending = s.pending := rfl

end Sys2Proof.Machine
end

