-- ==== Sys2Proof/Laws/Memory.lean ====
section
/-! SUPPORT. The laws of the frame buffer: a read after a write, the canonical form kept by every write, and the
buffer as a byte sequence. -/

namespace Sys2Proof.Machine

/-- A read of the offset just written gives the byte written. -/
@[simp] theorem read_write_same (m : Mem) (a : Nat) (v : Byte) : Mem.read (Mem.write m a v) a = some v := by
  induction m with
  | nil => simp [Mem.write, Mem.read]
  | cons kb m ih =>
    obtain ⟨k, b⟩ := kb
    simp only [Mem.write]
    split
    · simp [Mem.read]
    · split
      · simp [Mem.read]
      · have : k ≠ a := by omega
        simp [Mem.read, this, ih]

/-- A write leaves every other offset alone. -/
theorem read_write_other (m : Mem) {a c : Nat} (v : Byte) (h : c ≠ a) :
    Mem.read (Mem.write m a v) c = Mem.read m c := by
  have ha : ¬ a = c := fun e => h e.symm
  induction m with
  | nil => simp [Mem.write, Mem.read, ha]
  | cons kb m ih =>
    obtain ⟨k, b⟩ := kb
    simp only [Mem.write]
    split
    · simp [Mem.read, ha]
    · split
      · subst a
        simp [Mem.read, ha]
      · simp only [Mem.read, ih]

/-- The canonical form of a list that begins with one entry: it rises, and the rest is canonical. -/
theorem wf_cons (a : Nat) (v : Byte) (m : Mem) :
    Mem.wf ((a, v) :: m) = true ↔ (∀ kb ∈ m.head?, a < kb.1) ∧ Mem.wf m = true := by
  cases m with
  | nil => simp [Mem.wf]
  | cons kb m => obtain ⟨k, b⟩ := kb; simp [Mem.wf]

/-- The first offset after a write is the one written or the one that was first. -/
theorem head_write (m : Mem) (a : Nat) (v : Byte) :
    ∀ kb ∈ (Mem.write m a v).head?, kb.1 = a ∨ ∃ kc ∈ m.head?, kc.1 = kb.1 := by
  cases m with
  | nil => simp [Mem.write]
  | cons kc m =>
    obtain ⟨k, b⟩ := kc
    simp only [Mem.write]
    split
    · simp
    · split <;> simp

/-- A write keeps the canonical form. -/
theorem write_wf (m : Mem) (a : Nat) (v : Byte) (h : m.wf = true) : (Mem.write m a v).wf = true := by
  induction m with
  | nil => rfl
  | cons kb m ih =>
    obtain ⟨k, b⟩ := kb
    have hw := h
    rw [wf_cons] at h
    simp only [Mem.write]
    split
    · rw [wf_cons]
      exact ⟨by simpa using by assumption, hw⟩
    · split
      · subst a
        rw [wf_cons]
        exact h
      · rw [wf_cons]
        refine ⟨fun kc hkc => ?_, ih h.2⟩
        rcases head_write m a v kc hkc with e | ⟨kd, hd, e⟩
        · omega
        · have := h.1 kd hd
          omega

/-- `MemWrite` keeps the canonical form. -/
theorem writeBytes_wf (vs : List Byte) (m : Mem) (a : Nat) (h : m.wf = true) : (Mem.writeBytes m a vs).wf = true := by
  induction vs generalizing m a with
  | nil => exact h
  | cons v vs ih => exact ih _ _ (write_wf m a v h)

/-- A write past the last offset appends. -/
theorem write_append (m : Mem) (a : Nat) (v : Byte) (h : ∀ kb ∈ m, kb.1 < a) : Mem.write m a v = m ++ [(a, v)] := by
  induction m with
  | nil => rfl
  | cons kb m ih =>
    obtain ⟨k, b⟩ := kb
    have hk : k < a := h (k, b) (by simp)
    have h1 : ¬ a < k := by omega
    have h2 : ¬ a = k := by omega
    simp only [Mem.write, h1, h2, if_false, List.cons_append]
    rw [ih (fun kb hkb => h kb (by simp [hkb]))]

/-- What `MemWrite` leaves after a buffer that is full below `a`: the offsets and the bytes both go on. -/
theorem writeBytes_append (vs : List Byte) (m : Mem) (a : Nat) (h : m.map Prod.fst = List.range a) :
    (Mem.writeBytes m a vs).map Prod.fst = List.range (a + vs.length) ∧
    (Mem.writeBytes m a vs).map Prod.snd = m.map Prod.snd ++ vs := by
  induction vs generalizing m a with
  | nil => simpa [Mem.writeBytes] using h
  | cons v vs ih =>
    have hlt : ∀ kb ∈ m, kb.1 < a := by
      intro kb hkb
      have : kb.1 ∈ m.map Prod.fst := List.mem_map_of_mem hkb
      simpa [h] using this
    have hw := write_append m a v hlt
    have := ih (Mem.write m a v) (a + 1) (by simp [hw, h, List.range_succ])
    simp only [Mem.writeBytes, List.length_cons]
    rw [show a + (vs.length + 1) = a + 1 + vs.length by omega]
    refine ⟨this.1, ?_⟩
    rw [this.2, hw]
    simp

/-- Offsets after `LOAD s`: exactly those below `|s|` (R195). -/
theorem load_offsets (vs : List Byte) : (Mem.writeBytes [] 0 vs).map Prod.fst = List.range vs.length := by
  simpa using (writeBytes_append vs [] 0 rfl).1

/-- Bytes after `LOAD s`: those of `s` in order (R195). -/
theorem load_bytes (vs : List Byte) : (Mem.writeBytes [] 0 vs).map Prod.snd = vs := by
  simpa using (writeBytes_append vs [] 0 rfl).2

/-- Rising consecutive offsets are in canonical form. -/
theorem consecutive_wf (m : Mem) (a n : Nat) (h : m.map Prod.fst = List.range' a n) : m.wf = true := by
  induction m generalizing a n with
  | nil => rfl
  | cons kb m ih =>
    obtain ⟨k, b⟩ := kb
    cases n with
    | zero => simp at h
    | succ n =>
      simp only [List.map_cons, List.range'_succ, List.cons.injEq] at h
      rw [wf_cons]
      refine ⟨fun kc hkc => ?_, ih (a + 1) n h.2⟩
      cases m with
      | nil => simp at hkc
      | cons kd m =>
        cases n with
        | zero => simp at h
        | succ n =>
          simp only [List.map_cons, List.range'_succ, List.cons.injEq] at h
          simp only [List.head?_cons, Option.mem_def, Option.some.injEq] at hkc
          subst kc
          omega

/-- A buffer that holds exactly the offsets below `N` is in canonical form. -/
theorem bufferOk_wf {s : State} (h : bufferOk s) : s.mem.wf = true :=
  consecutive_wf s.mem 0 s.n (by rw [h, List.range_eq_range'])

/-- The buffer of the state after reset is in canonical form. -/
theorem reset_wf : State.reset.mem.wf = true := rfl

/-- Reading a buffer with consecutive offsets from `a` on. -/
theorem read_consecutive (m : Mem) (a n i : Nat) (h : m.map Prod.fst = List.range' a n) :
    Mem.read m (a + i) = (m.map Prod.snd)[i]? := by
  induction m generalizing a n i with
  | nil => simp [Mem.read]
  | cons kb m ih =>
    obtain ⟨k, b⟩ := kb
    cases n with
    | zero => simp at h
    | succ n =>
      simp only [List.map_cons, List.range'_succ, List.cons.injEq] at h
      cases i with
      | zero => simp [Mem.read, h.1]
      | succ i =>
        have hk : ¬ k = a + (i + 1) := by omega
        have := ih (a + 1) n i h.2
        simp only [Mem.read, hk, if_false, List.map_cons, List.getElem?_cons_succ]
        rw [← this]
        congr 1
        omega

/-- A byte of the buffer (R41). -/
theorem read_buffer {s : State} (h : bufferOk s) (k : Nat) : s.mem.read k = (buffer s)[k]? := by
  have := read_consecutive s.mem 0 s.n k (by rw [h, List.range_eq_range'])
  simpa [buffer] using this

/-- The buffer has `N` bytes (R12). -/
theorem buffer_length {s : State} (h : bufferOk s) : (buffer s).length = s.n := by
  have : (s.mem.map Prod.fst).length = (List.range s.n).length := by rw [h]
  simpa [buffer] using this

/-- `MemRead` inside `0 .. N-1` is a window of the buffer (R41). -/
theorem readBytes_slice {s : State} (h : bufferOk s) (a count : Nat) (hb : a + count ≤ s.n) :
    s.mem.readBytes a count = some (slice s a count) := by
  induction count generalizing a with
  | zero => simp [Mem.readBytes, slice]
  | succ count ih =>
    have hl := buffer_length h
    have ha : a < (buffer s).length := by omega
    rw [Mem.readBytes, read_buffer h, ih (a + 1) (by omega), List.getElem?_eq_getElem ha]
    simp only [slice, Option.some.injEq]
    rw [List.drop_eq_getElem_cons ha, List.take_succ_cons]

/-- `MemRead` of a well-formed buffer (R41). -/
theorem memRead_ok {s : State} (h : bufferOk s) (a count : Nat) (hb : a + count ≤ s.n) :
    memRead a count s = .ok (slice s a count) := by
  have : ¬ s.n < a + count := by omega
  simp [memRead, this, readBytes_slice h a count hb]

/-- The whole buffer, as `DECODE` reads it. -/
theorem memRead_all {s : State} (h : bufferOk s) : memRead 0 s.n s = .ok (buffer s) := by
  rw [memRead_ok h 0 s.n (by omega)]
  simp [slice, List.take_of_length_le (Nat.le_of_eq (buffer_length h))]

/-- A window has as many bytes as asked for. -/
theorem slice_length {s : State} (h : bufferOk s) (a count : Nat) (hb : a + count ≤ s.n) :
    (slice s a count).length = count := by
  have := buffer_length h
  simp [slice]
  omega

end Sys2Proof.Machine
end

