-- ==== Sys2Proof/Laws/Ops.lean ====
section
/-! SUPPORT. Everything the shared operations can do, said once: results, raising, one phase operation, and the Frame
Reader's reads as reads of the buffer (the bridge to the whole call of R192). -/

namespace Sys2Proof.Machine

/-! ### Results -/

@[simp] theorem bind_ok {α β : Type} (a : α) (s : State) (k : α → State → Res β) : (Res.ok a s).bind k = k a s := rfl
@[simp] theorem bind_raised {α β : Type} (e : DecodeError) (s : State) (k : α → State → Res β) :
    (Res.raised e s).bind k = .raised e s := rfl
@[simp] theorem bind_fault {α β : Type} (x : Fault) (k : α → State → Res β) : (Res.fault x).bind k = .fault x := rfl
@[simp] theorem finish_ok {α : Type} (a : α) (s : State) (k : α → State → State) : finish (.ok a s) k =
    .next (k a s) := rfl
@[simp] theorem finish_raised {α : Type} (e : DecodeError) (s : State) (k : α → State → State) :
    finish (.raised e s) k = .next (raise e s) := rfl
@[simp] theorem finish_fault {α : Type} (x : Fault) (k : α → State → State) :
    finish (.fault x) k = .fault x := rfl
@[simp] theorem readReg_some {α : Type} (r : Reg) (a : α) (s : State) : readReg r (some a) s = .ok a s := rfl
@[simp] theorem readReg_none {α : Type} (r : Reg) (s : State) : readReg r (none : Option α) s =
    .fault (.noValue r) := rfl

/-- What it takes for a result to finish in a next state. -/
theorem finish_next {α : Type} {r : Res α} {k : α → State → State} {t : State} (h : finish r k = .next t) :
    (∃ a u, r = .ok a u ∧ t = k a u) ∨ (∃ e u, r = .raised e u ∧ t = raise e u) := by
  cases r with
  | ok a u => exact .inl ⟨a, u, rfl, by simpa using h.symm⟩
  | raised e u => exact .inr ⟨e, u, rfl, by simpa using h.symm⟩
  | fault x => simp at h

/-- A property of the state a result carries, whether it succeeded or raised. -/
def Res.sat {α : Type} (r : Res α) (P : State → Prop) : Prop :=
  match r with
  | .ok _ t => P t
  | .raised _ t => P t
  | .fault _ => True

/-- A property carried through a sequence of operations. -/
theorem bind_sat {α β : Type} {r : Res α} {k : α → State → Res β} {P : State → Prop} (h : r.sat P)
    (hk : ∀ a t, P t → (k a t).sat P) : (r.bind k).sat P := by
  cases r with
  | ok a t => exact hk a t h
  | raised e t => exact h
  | fault x => trivial

/-! ### One phase operation -/

/-- In its own phase a phase operation is its body, finished (R100, R180). -/
theorem phaseOp_in {p : Phase} {mn : String} {body : State → Res Phase} {s : State} (h : s.phase = p) :
    phaseOp p mn body s = finish (body s) (fun q t => t.setPhase q) := by
  simp [phaseOp, h]

/-- Outside its own phase it is refused (R100). -/
theorem phaseOp_out {p : Phase} {mn : String} {body : State → Res Phase} {s : State} (h : s.phase ≠ p) :
    phaseOp p mn body s = .refused (.outOfPhase mn) := by
  simp [phaseOp, h]

/-- Everything a phase operation that answers a next state can have done (R181). -/
theorem phaseOp_next {p : Phase} {mn : String} {body : State → Res Phase} {s t : State}
    (h : phaseOp p mn body s = .next t) :
    s.phase = p ∧
      ((∃ q u, body s = .ok q u ∧ t = u.setPhase q) ∨ (∃ e u, body s = .raised e u ∧ t = raise e u)) := by
  by_cases hp : s.phase = p
  · rw [phaseOp_in hp] at h
    exact ⟨hp, finish_next h⟩
  · rw [phaseOp_out hp] at h
    cases h

/-! ### The Frame Reader moves the cursor and nothing else -/

/-- `t` is `s` with the cursor moved forward, inside the buffer if it was inside before (R94). -/
def Moved (s t : State) : Prop := ∃ c, s.cur ≤ c ∧ (s.cur ≤ s.n → c ≤ s.n) ∧ t = s.setCur c

theorem moved_refl (s : State) : Moved s s := ⟨s.cur, le_rfl, id, rfl⟩

theorem moved_trans {s t u : State} (h : Moved s t) (g : Moved t u) : Moved s u := by
  obtain ⟨c, h1, h2, rfl⟩ := h
  obtain ⟨d, g1, g2, rfl⟩ := g
  exact ⟨d, le_trans h1 g1, fun hs => g2 (h2 hs), rfl⟩

/-- `RD` (R91). -/
theorem rd_moved (count : Nat) (s : State) : (rd count s).sat (Moved s) := by
  unfold rd
  split
  · exact moved_refl s
  · split
    · exact ⟨s.cur + count, by omega, fun _ => by omega, rfl⟩
    · trivial

theorem rdByte_moved (s : State) : (rdByte s).sat (Moved s) :=
  bind_sat (rd_moved 1 s) (fun _ _ h => h)

theorem rdHalf_moved (s : State) : (rdHalf s).sat (Moved s) :=
  bind_sat (rd_moved 2 s) (fun _ _ h => h)

/-- `RAW` moves nothing (R93). -/
theorem raw_moved (a b : Nat) (s : State) : (raw a b s).sat (Moved s) := by
  unfold raw
  split
  · split
    · exact moved_refl s
    · trivial
  · trivial

theorem readFlag_moved (s : State) : (readFlag s).sat (Moved s) :=
  bind_sat (rdByte_moved s) (fun b t h => by
    show Res.sat (if b ≠ Config.flagByte then _ else _) _
    split <;> exact h)

theorem readAddr_moved (fuel : Nat) (acc : List Byte) (s : State) : (readAddr fuel acc s).sat (Moved s) := by
  induction fuel generalizing acc s with
  | zero => exact moved_refl s
  | succ fuel ih =>
    refine bind_sat (rdByte_moved s) (fun b t h => ?_)
    split
    · exact h
    · have := ih (acc ++ [b]) t
      cases hr : readAddr fuel (acc ++ [b]) t with
      | ok a u => rw [hr] at this; exact moved_trans h this
      | raised e u => rw [hr] at this; exact moved_trans h this
      | fault x => trivial

theorem readCheck_moved (ck : List Byte → Half) (kind : CkKind) (s : State) : (readCheck ck kind s).sat (Moved s) := by
  refine bind_sat (rdHalf_moved s) (fun w t h => ?_)
  cases hr : raw 1 s.cur t with
  | fault x => trivial
  | raised e u =>
    have := raw_moved 1 s.cur t
    rw [hr] at this
    exact moved_trans h this
  | ok range u =>
    have := raw_moved 1 s.cur t
    rw [hr] at this
    show Res.sat (match checkSum ck kind (swap16 w) range s.cur with
      | some e => Res.raised e u
      | none => Res.ok (swap16 w) u) _
    split <;> exact moved_trans h this

/-! ### The Frame Reader on a buffer as a byte sequence: the reads of R192 -/

/-- A read of the whole-call view as an operation of the stepwise machine: the cursor becomes the call's. -/
def liftCall {α : Type} (r : Except (DecodeError × Nat) (α × Nat)) (s : State) : Res α :=
  match r with
  | .ok (a, c) => .ok a (s.setCur c)
  | .error (e, c) => .raised e (s.setCur c)

@[simp] theorem liftCall_ok {α : Type} (a : α) (c : Nat) (s : State) :
    liftCall (.ok (a, c)) s = .ok a (s.setCur c) := rfl
@[simp] theorem liftCall_error {α : Type} (e : DecodeError) (c : Nat) (s : State) :
    liftCall (.error (e, c) : Except (DecodeError × Nat) (α × Nat)) s = .raised e (s.setCur c) := rfl

@[simp] theorem setCur_self (s : State) : s.setCur s.cur = s := rfl
@[simp] theorem setCur_setCur (c d : Nat) (s : State) : (s.setCur c).setCur d = s.setCur d := rfl

@[simp] theorem bufferOk_setCur (c : Nat) (s : State) : bufferOk (s.setCur c) ↔ bufferOk s := Iff.rfl
@[simp] theorem buffer_setCur (c : Nat) (s : State) : buffer (s.setCur c) = buffer s := rfl

/-- A sequence of lifted reads. -/
theorem bind_lift {α β : Type} (r : Except (DecodeError × Nat) (α × Nat)) (s : State)
    (k : α × Nat → Except (DecodeError × Nat) (β × Nat)) (g : α → State → Res β)
    (h : ∀ a c, r = .ok (a, c) → g a (s.setCur c) = liftCall (k (a, c)) s) :
    (liftCall r s).bind g = liftCall (r.bind k) s := by
  match r, h with
  | .ok (a, c), h => exact h a c rfl
  | .error (e, c), _ => rfl

/-- `RD` is `read` of R192. -/
theorem rd_lift {s : State} (h : bufferOk s) (count : Nat) :
    rd count s = liftCall (callRead (buffer s) s.cur count) s := by
  have hl := buffer_length h
  by_cases hb : s.n < s.cur + count
  · simp [rd, callRead, hl, hb]
  · simp [rd, callRead, hl, hb, memRead_ok h s.cur count (by omega), slice]

theorem rdByte_lift {s : State} (h : bufferOk s) :
    rdByte s = liftCall ((callRead (buffer s) s.cur 1).bind (fun (bs, c) => .ok (bs.getD 0 0#8, c))) s := by
  unfold rdByte
  rw [rd_lift h]
  exact bind_lift _ _ _ _ (fun a c _ => rfl)

theorem rdHalf_lift {s : State} (h : bufferOk s) :
    rdHalf s = liftCall ((callRead (buffer s) s.cur 2).bind (fun (bs, c) => .ok (be16Seq bs, c))) s := by
  unfold rdHalf
  rw [rd_lift h]
  exact bind_lift _ _ _ _ (fun a c _ => rfl)

/-- What a successful `read` of R192 answers. -/
theorem callRead_ok {buf : List Byte} {cur count c : Nat} {bs : List Byte} (h : callRead buf cur count = .ok (bs, c)) :
    c = cur + count ∧ cur + count ≤ buf.length ∧ bs = (buf.drop cur).take count := by
  unfold callRead at h
  split at h
  · cases h
  · simp only [Except.ok.injEq, Prod.mk.injEq] at h
    exact ⟨h.2.symm, by omega, h.1.symm⟩

/-- What a failing `read` of R192 answers. -/
theorem callRead_error {buf : List Byte} {cur count c : Nat} {e : DecodeError}
    (h : callRead buf cur count = .error (e, c)) :
    c = cur ∧ buf.length < cur + count ∧ e = .underrun cur count (buf.length - cur) := by
  unfold callRead at h
  split at h
  · simp only [Except.error.injEq, Prod.mk.injEq] at h
    exact ⟨h.2.symm, by assumption, h.1.symm⟩
  · cases h

/-- The Flag Extractor's read and test (R101, R109, R192). -/
theorem readFlag_lift {s : State} (h : bufferOk s) : readFlag s = liftCall (callFlag (buffer s) s.cur) s := by
  unfold readFlag rdByte callFlag
  rw [rd_lift h]
  cases hr : callRead (buffer s) s.cur 1 with
  | error ec => rfl
  | ok bc =>
    obtain ⟨bs, c⟩ := bc
    simp only [liftCall_ok, bind_ok, Except.bind]
    split <;> rfl

/-- The address loop (R103, R192). -/
theorem readAddr_lift {s : State} (h : bufferOk s) (fuel : Nat) (acc : List Byte) :
    readAddr fuel acc s = liftCall (callAddr (buffer s) fuel acc s.cur) s := by
  induction fuel generalizing acc s with
  | zero => rfl
  | succ fuel ih =>
    unfold readAddr rdByte callAddr
    rw [rd_lift h]
    cases hr : callRead (buffer s) s.cur 1 with
    | error ec => rfl
    | ok bc =>
      obtain ⟨bs, c⟩ := bc
      simp only [liftCall_ok, bind_ok, Except.bind]
      split
      · rfl
      · rw [ih ((bufferOk_setCur c s).2 h)]
        simp only [buffer_setCur, setCur_cur]
        cases callAddr (buffer s) fuel (acc ++ [bs.getD 0 0#8]) c with
        | error ec => rfl
        | ok bc => rfl

/-- The checksum field and its comparison (R106, R108, R192), with at least the opening flag consumed. -/
theorem readCheck_lift {s : State} (h : bufferOk s) (hc : 1 ≤ s.cur) (ck : List Byte → Half) (kind : CkKind) :
    readCheck ck kind s = liftCall (callCheck ck kind (buffer s) s.cur) s := by
  unfold readCheck rdHalf callCheck
  rw [rd_lift h]
  cases hr : callRead (buffer s) s.cur 2 with
  | error ec => rfl
  | ok bc =>
    obtain ⟨bs, c⟩ := bc
    obtain ⟨rfl, hle, -⟩ := callRead_ok hr
    have hl := buffer_length h
    have hraw : raw 1 s.cur (s.setCur (s.cur + 2)) =
        .ok (((buffer s).drop 1).take (s.cur - 1)) (s.setCur (s.cur + 2)) := by
      have := memRead_ok ((bufferOk_setCur (s.cur + 2) s).2 h) 1 (s.cur - 1) (by simp; omega)
      simp [raw, hc, this, slice]
    simp only [liftCall_ok, bind_ok, Except.bind, hraw, checkSum]
    generalize ((buffer s).drop 1).take (s.cur - 1) = range
    by_cases hv : ck range = swap16 (be16Seq bs) <;> simp [hv]

/-- The whole header of a sequence of reads ends inside the buffer: a flag. -/
theorem callFlag_ok {buf : List Byte} {cur c : Nat} {b : Byte} (h : callFlag buf cur = .ok (b, c)) :
    c = cur + 1 ∧ cur + 1 ≤ buf.length ∧ b = Config.flagByte ∧ b = buf.getD cur 0#8 := by
  unfold callFlag at h
  cases hr : callRead buf cur 1 with
  | error ec => rw [hr] at h; cases h
  | ok bc =>
    obtain ⟨bs, d⟩ := bc
    obtain ⟨rfl, hle, rfl⟩ := callRead_ok hr
    simp only [hr, Except.bind] at h
    split at h
    · cases h
    · simp only [Except.ok.injEq, Prod.mk.injEq] at h
      rename_i hb
      obtain ⟨rfl, rfl⟩ := h
      refine ⟨rfl, hle, not_not.1 hb, ?_⟩
      simp [List.getD_eq_getElem?_getD, List.getElem?_drop]

/-- A checksum that passed (R163, R164). -/
theorem callCheck_ok {ck : List Byte → Half} {kind : CkKind} {buf : List Byte} {cur c : Nat} {v : Half}
    (h : callCheck ck kind buf cur = .ok (v, c)) :
    c = cur + 2 ∧ cur + 2 ≤ buf.length ∧ v = ck ((buf.drop 1).take (cur - 1)) := by
  unfold callCheck at h
  cases hr : callRead buf cur 2 with
  | error ec => rw [hr] at h; cases h
  | ok bc =>
    obtain ⟨bs, d⟩ := bc
    obtain ⟨rfl, hle, rfl⟩ := callRead_ok hr
    simp only [hr, Except.bind] at h
    split at h
    · cases h
    · simp only [Except.ok.injEq, Prod.mk.injEq] at h
      rename_i hb
      exact ⟨h.2.symm, hle, by rw [← h.1]; exact (not_not.1 hb).symm⟩

/-- An address field that was read whole (R103): its bytes follow what was read before, and the cursor is past them. -/
theorem callAddr_ok {buf : List Byte} {fuel : Nat} {acc bs : List Byte} {cur c : Nat}
    (h : callAddr buf fuel acc cur = .ok (bs, c)) :
    acc.length ≤ bs.length ∧ bs.length ≤ acc.length + fuel ∧ (0 < fuel → acc.length < bs.length) ∧
      c = cur + (bs.length - acc.length) ∧ (cur ≤ buf.length → c ≤ buf.length) := by
  induction fuel generalizing acc cur with
  | zero =>
    simp only [callAddr, Except.ok.injEq, Prod.mk.injEq] at h
    obtain ⟨rfl, rfl⟩ := h
    simp
  | succ fuel ih =>
    unfold callAddr at h
    cases hr : callRead buf cur 1 with
    | error ec => rw [hr] at h; cases h
    | ok bc =>
      obtain ⟨xs, d⟩ := bc
      obtain ⟨rfl, hle, -⟩ := callRead_ok hr
      simp only [hr, Except.bind] at h
      split at h
      · simp only [Except.ok.injEq, Prod.mk.injEq] at h
        obtain ⟨rfl, rfl⟩ := h
        simp
        omega
      · have := ih h
        simp only [List.length_append, List.length_cons, List.length_nil] at this
        refine ⟨by omega, by omega, fun _ => by omega, by omega, fun _ => this.2.2.2.2 hle⟩

/-- The address field of an extractor: one to four bytes (R103). -/
theorem callAddr_field {buf : List Byte} {bs : List Byte} {cur c : Nat}
    (h : callAddr buf Config.addrMax [] cur = .ok (bs, c)) :
    1 ≤ bs.length ∧ bs.length ≤ 4 ∧ c = cur + bs.length ∧ (cur ≤ buf.length → c ≤ buf.length) := by
  have := callAddr_ok h
  simp only [Config.addrMax, List.length_nil] at this
  omega

end Sys2Proof.Machine
end

