-- ==== Sys2Proof/Laws/Bits.lean ====
section
/-! SUPPORT. The bit fields as arithmetic on natural numbers (42_bitfield_decoders.md, 30_encoding.md R62, R64). -/

namespace Sys2Proof.Machine

/-- `BE16` (R121). -/
theorem be16_toNat (b0 b1 : Byte) : (be16 b0 b1).toNat = b0.toNat*256 + b1.toNat := by
  simp only [be16, BitVec.toNat_append]
  have := b1.isLt
  rw [Nat.shiftLeft_eq, Nat.mul_comm, ← Nat.two_pow_add_eq_or_of_lt b1.isLt]

/-- `SWAP16` (R122). -/
theorem swap16_toNat (v : Half) : (swap16 v).toNat = v.toNat % 256 * 256 + v.toNat / 256 := by
  have hv := v.isLt
  unfold swap16
  rw [BitVec.toNat_or, BitVec.toNat_ushiftRight, BitVec.toNat_shiftLeft, Nat.shiftLeft_eq, Nat.shiftRight_eq_div_pow]
  have h1 : v.toNat * 2^8 % 2^16 = (v.toNat % 256) * 2^8 := by omega
  rw [h1, Nat.or_comm, Nat.mul_comm, ← Nat.two_pow_add_eq_or_of_lt (by omega)]
  omega

/-- `FLEN` (R123). -/
theorem flen_eq_ofNat (w : Half) : flen w = BitVec.ofNat 11 (w.toNat % 2048) := by
  apply BitVec.eq_of_toNat_eq; simp [flen]

/-- `FSEG` (R124). -/
theorem fseg_eq_ofNat (w : Half) : fseg w = BitVec.ofNat 1 (w.toNat / 2048 % 2) := by
  have : (w &&& 0x800#16 ≠ 0#16) ↔ w.toNat / 2048 % 2 = 1 := by
    rw [ne_eq, ← BitVec.toNat_inj, BitVec.toNat_and]
    show w.toNat &&& 2^11 ≠ 0 ↔ _
    rw [Nat.and_two_pow, Nat.testBit_eq_decide_div_mod_eq]
    by_cases h : w.toNat / 2^11 % 2 = 1 <;> simp at h <;> simp [h]
  unfold fseg; split <;> rename_i hh
  · rw [this.1 hh]
  · have h2 : w.toNat / 2048 % 2 = 0 := by
      have h3 : ¬ w.toNat / 2048 % 2 = 1 := fun q => hh (this.2 q)
      omega
    rw [h2]

/-- The type nibble in its place (R125). -/
theorem typeMask_toNat (w : Half) : (w &&& 0xF000#16).toNat = w.toNat / 4096 * 4096 := by
  have : w &&& 0xF000#16 = (w >>> 12) <<< 12 := by
    apply BitVec.eq_of_getLsbD_eq; intro i hi;
    interval_cases i <;> simp
  rw [this, BitVec.toNat_shiftLeft, BitVec.toNat_ushiftRight, Nat.shiftLeft_eq, Nat.shiftRight_eq_div_pow]
  have := w.isLt
  omega

/-- `FTYPE` (R125). -/
theorem ftype_eq_ofNat (w : Half) :
    ftype w = BitVec.ofNat 16 (if w.toNat / 4096 = 10 then 3 else w.toNat / 4096 * 4096) := by
  have h := typeMask_toNat w
  unfold ftype
  by_cases hw : w.toNat / 4096 = 10
  · rw [if_pos, if_pos hw]
    apply BitVec.eq_of_toNat_eq; rw [h, hw]; rfl
  · rw [if_neg, if_neg hw]
    · apply BitVec.eq_of_toNat_eq; rw [h, BitVec.toNat_ofNat]; have := w.isLt; omega
    · intro e; have := congrArg BitVec.toNat e; rw [h] at this; simp at this; omega

/-- `CLSB` (R127). -/
theorem clsb_eq_ofNat : ∀ c : Byte, clsb c = BitVec.ofNat 1 (c.toNat % 2) := by decide

/-- `CPF` (R128). -/
theorem cpf_eq_ofNat : ∀ c : Byte, cpf c = BitVec.ofNat 1 (c.toNat / 16 % 2) := by decide

/-- `CRECV` (R129). -/
theorem crecv_eq_ofNat : ∀ c : Byte, crecv c = BitVec.ofNat 8 (c.toNat / 32 * 32) := by decide

/-- `CSEND` (R130). -/
theorem csend_eq_ofNat : ∀ c : Byte, csend c = BitVec.ofNat 8 (c.toNat / 2 % 8 * 2) := by decide

/-- The three inputs of the classifier (R140). -/
theorem controlParts_toNat : ∀ c : Byte, (clsb c).toNat = c.toNat % 2 ∧ (crecv c).toNat = c.toNat / 32 * 32 ∧
    (csend c).toNat = c.toNat / 2 % 8 * 2 := by decide

/-- The type nibble of a frame-format word (R62). -/
theorem formatWord_nibble (t : BitVec 4) (x : BitVec 12) : (formatWord t x).toNat / 4096 = t.toNat := by
  have := x.isLt
  simp only [formatWord, BitVec.toNat_append]
  rw [Nat.shiftLeft_eq, Nat.mul_comm, ← Nat.two_pow_add_eq_or_of_lt x.isLt]
  omega

/-- A word from its two octets (R121). -/
theorem be16_of_halves (w : Half) : be16 (w.extractLsb' 8 8) (w.extractLsb' 0 8) = w := by
  apply BitVec.eq_of_toNat_eq
  rw [be16_toNat]
  simp [Nat.shiftRight_eq_div_pow]
  have := w.isLt
  omega

/-- The type nibble of a frame-format word, as bits (R62). -/
theorem formatWord_high (t : BitVec 4) (x : BitVec 12) : (formatWord t x).extractLsb' 12 4 = t := by
  apply BitVec.eq_of_toNat_eq
  rw [BitVec.extractLsb'_toNat, Nat.shiftRight_eq_div_pow, show (2:Nat)^12=4096 from rfl, formatWord_nibble]
  omega

/-- The low twelve bits of a frame-format word (R62). -/
theorem formatWord_low (t : BitVec 4) (x : BitVec 12) : (formatWord t x).extractLsb' 0 12 = x := by
  apply BitVec.eq_of_toNat_eq
  have := x.isLt
  simp only [BitVec.extractLsb'_toNat, formatWord, BitVec.toNat_append]
  rw [Nat.shiftLeft_eq, Nat.mul_comm, ← Nat.two_pow_add_eq_or_of_lt x.isLt]
  simp; omega

/-- A checksum value from its wire bytes, low byte first (R43). -/
theorem swap16_of_wire (v : Half) : swap16 (be16Seq (halfBytes v).reverse) = v := by
  apply BitVec.eq_of_toNat_eq
  rw [swap16_toNat]
  simp only [halfBytes, be16Seq, List.reverse_cons, List.reverse_nil, List.nil_append, List.cons_append,
    List.getD_cons_zero, List.getD_cons_succ, be16_toNat]
  have := v.isLt
  simp [Nat.shiftRight_eq_div_pow]
  omega

/-- The wire bytes of a checksum value (R43). -/
theorem wire_of_swap16 (b0 b1 : Byte) : (halfBytes (swap16 (be16 b0 b1))).reverse = [b0, b1] := by
  have := b0.isLt; have := b1.isLt
  have e := swap16_toNat (be16 b0 b1)
  rw [be16_toNat, show (b0.toNat * 256 + b1.toNat) % 256 = b1.toNat by omega,
    show (b0.toNat * 256 + b1.toNat) / 256 = b0.toNat by omega] at e
  simp only [halfBytes, List.reverse_cons, List.reverse_nil, List.nil_append, List.cons_append, List.cons.injEq,
      and_true]
  constructor <;> apply BitVec.eq_of_toNat_eq <;> simp [e, Nat.shiftRight_eq_div_pow] <;> omega

/-- The frame-format word from its wire bytes, high-order byte first (R42). -/
theorem be16Seq_halfBytes (w : Half) : be16Seq (halfBytes w) = w := by
  simp [halfBytes, be16Seq, be16_of_halves]

end Sys2Proof.Machine
end

