-- ==== Sys2Proof/Laws/PerInstr.lean ====
section
/-! SUPPORT. One law per operation: the bytes it encodes to are as many as its place takes. -/

namespace Sys2Proof.Laws.WordWidth

open Sys2Proof

/-- An operation's encoding has the width of its place. -/
def Statement (i : Instr) : Prop :=
  ∀ pl bs, encode i = some (pl, bs) → bs.length = placeBytes pl

/-- An operation with one encoding of the right width. -/
theorem of_word (i : Instr) (pl : Place) (bs : List Byte) (h : encode i = some (pl, bs))
    (hl : bs.length = placeBytes pl) : Statement i := by
  intro pl' bs' h'
  rw [h] at h'
  cases h'
  exact hl

/-- An operation without an encoding. -/
theorem of_none (i : Instr) (h : encode i = none) : Statement i := by
  intro pl bs h'
  rw [h] at h'
  cases h'

theorem rd (n : Nat) : Statement (.rd n) := of_none _ rfl
theorem cnt : Statement .cnt := of_none _ rfl
theorem raw (a b : Nat) : Statement (.raw a b) := of_none _ rfl
theorem xflagO : Statement .xflagO := of_word _ _ _ rfl rfl
theorem xffmt : Statement .xffmt := of_word _ _ _ rfl rfl
theorem xaddrD : Statement .xaddrD := of_word _ _ _ rfl rfl
theorem xaddrS : Statement .xaddrS := of_word _ _ _ rfl rfl
theorem xctrl : Statement .xctrl := of_word _ _ _ rfl rfl
theorem xhcs : Statement .xhcs := of_word _ _ _ rfl rfl
theorem xinfo : Statement .xinfo := of_word _ _ _ rfl rfl
theorem xfcs : Statement .xfcs := of_word _ _ _ rfl rfl
theorem xflagC : Statement .xflagC := of_word _ _ _ rfl rfl
theorem be16 (b0 b1 : Byte) : Statement (.be16 b0 b1) := of_word _ _ _ rfl rfl
theorem swap16 (v : Half) : Statement (.swap16 v) := of_word _ _ _ rfl rfl
theorem flen (w : Half) : Statement (.flen w) := of_word _ _ _ rfl rfl
theorem fseg (w : Half) : Statement (.fseg w) := of_word _ _ _ rfl rfl
theorem ftype (w : Half) : Statement (.ftype w) := of_word _ _ _ rfl rfl
theorem ftypeA (x : BitVec 12) : Statement (.ftypeA x) := of_word _ _ _ rfl rfl
theorem ftypeOther (t : BitVec 4) (x : BitVec 12) : Statement (.ftypeOther t x) := of_word _ _ _ rfl rfl
theorem astop (b : Byte) : Statement (.astop b) := of_word _ _ _ rfl rfl
theorem clsb (c : Byte) : Statement (.clsb c) := of_word _ _ _ rfl rfl
theorem cpf (c : Byte) : Statement (.cpf c) := of_word _ _ _ rfl rfl
theorem crecv (c : Byte) : Statement (.crecv c) := of_word _ _ _ rfl rfl
theorem csend (c : Byte) : Statement (.csend c) := of_word _ _ _ rfl rfl
theorem classify (l r s : Nat) : Statement (.classify l r s) := by
  intro pl bs h
  simp only [encode, Option.map_eq_some_iff] at h
  obtain ⟨c, -, h⟩ := h
  cases h
  rfl
theorem classifyI (r : BitVec 3) (p : BitVec 1) (s : BitVec 3) : Statement (.classifyI r p s) := of_word _ _ _ rfl rfl
theorem classifySnrm (p : BitVec 1) : Statement (.classifySnrm p) := of_word _ _ _ rfl rfl
theorem classifyDisc (p : BitVec 1) : Statement (.classifyDisc p) := of_word _ _ _ rfl rfl
theorem classifyUa (p : BitVec 1) : Statement (.classifyUa p) := of_word _ _ _ rfl rfl
theorem classifyDm (p : BitVec 1) : Statement (.classifyDm p) := of_word _ _ _ rfl rfl
theorem classifyFrmr (p : BitVec 1) : Statement (.classifyFrmr p) := of_word _ _ _ rfl rfl
theorem classifyUi (p : BitVec 1) : Statement (.classifyUi p) := of_word _ _ _ rfl rfl
theorem classifyRnr (r : BitVec 3) (p : BitVec 1) : Statement (.classifyRnr r p) := of_word _ _ _ rfl rfl
theorem classifyRr (r : BitVec 3) (p : BitVec 1) : Statement (.classifyRr r p) := of_word _ _ _ rfl rfl
theorem classifyNone (r : BitVec 3) (p : BitVec 1) (s : BitVec 3) : Statement (.classifyNone r p s) := of_word _ _ _ rfl rfl
theorem cksum (s : List Byte) : Statement (.cksum s) := of_none _ rfl
theorem vchkH (e : Half) (r : List Byte) (p : Nat) : Statement (.vchkH e r p) := of_none _ rfl
theorem vchkF (e : Half) (r : List Byte) (p : Nat) : Statement (.vchkF e r p) := of_none _ rfl
theorem vlen : Statement .vlen := of_word _ _ _ rfl rfl
theorem ilen : Statement .ilen := of_word _ _ _ rfl rfl
theorem asm : Statement .asm := of_word _ _ _ rfl rfl
theorem decode : Statement .decode := of_none _ rfl
theorem load (s : List Byte) : Statement (.load s) := of_none _ rfl
theorem start : Statement .start := of_none _ rfl
theorem result (r : Reg) : Statement (.result r) := of_none _ rfl

end Sys2Proof.Laws.WordWidth
end

