-- ==== Sys2Proof/Laws/Reads.lean ====
section
/-! SUPPORT. What each read of the Frame Reader and of the extractors answers, on a buffer that is known and when
only its result is known (40_frame_reader.md R91 to R93, 41_field_extractors.md R101 to R109). -/

namespace Sys2Proof.Machine

/-- The one byte of a window of one. -/
theorem slice_one {s : State} (k : Nat) : (slice s k 1).getD 0 0#8 = byteAt s k := by
  simp [slice, byteAt, List.getD_eq_getElem?_getD, List.getElem?_drop]

/-- `RD(1)` (R91). -/
theorem rdByte_eq {s : State} (h : bufferOk s) :
   (s.cur < s.n → rdByte s = .ok (byteAt s s.cur) (s.setCur (s.cur+1))) ∧
   (s.n ≤ s.cur → rdByte s = .raised (.underrun s.cur 1 (s.n - s.cur)) s) := by
  rw [rdByte_lift h]; unfold callRead; rw [buffer_length h]
  refine ⟨fun hb => ?_, fun hb => ?_⟩
  · rw [if_neg (by omega)]
    have hb : (List.take 1 (List.drop s.cur (buffer s))).getD 0 0#8 = byteAt s s.cur := slice_one _
    simp only [Except.bind, hb]; rfl
  · rw [if_pos (by omega)]; rfl

/-- `be16(RD(2))` (R91, R121). -/
theorem rdHalf_eq {s : State} (h : bufferOk s) :
   (s.cur + 2 ≤ s.n → rdHalf s = .ok (be16 (byteAt s s.cur) (byteAt s (s.cur+1))) (s.setCur (s.cur+2))) ∧
   (s.n < s.cur + 2 → rdHalf s = .raised (.underrun s.cur 2 (s.n - s.cur)) s) := by
  rw [rdHalf_lift h]; unfold callRead; rw [buffer_length h]
  refine ⟨fun hb => ?_, fun hb => ?_⟩
  · rw [if_neg (by omega)]
    simp only [Except.bind, liftCall_ok, be16Seq, byteAt]
    simp [List.getD_eq_getElem?_getD, List.getElem?_drop]
  · rw [if_pos hb]; rfl

/-- The Flag Extractor (R101, R109). -/
theorem readFlag_eq {s : State} (h : bufferOk s) :
    (s.cur < s.n → byteAt s s.cur = 0x7E#8 → readFlag s = .ok 0x7E#8 (s.setCur (s.cur+1))) ∧
    (s.cur < s.n → byteAt s s.cur ≠ 0x7E#8 →
      readFlag s = .raised (.frameGuard s.cur (byteAt s s.cur)) (s.setCur (s.cur+1))) ∧
    (s.cur = s.n → readFlag s = .raised (.underrun s.cur 1 0) s) := by
  rw [readFlag_lift h]
  unfold callFlag callRead
  simp only [buffer_length h]
  have hb : (List.take 1 (List.drop s.cur (buffer s))).getD 0 0#8 = byteAt s s.cur := slice_one _
  refine ⟨fun h1 h2 => ?_, fun h1 h2 => ?_, fun h1 => ?_⟩
  · rw [if_neg (by omega)]; simp only [Except.bind, hb, h2]; rfl
  · rw [if_neg (by omega)]; simp only [Except.bind,
      hb]; rw [if_pos (show byteAt s s.cur ≠ Config.flagByte from h2)]; rfl
  · rw [if_pos (by omega)]; simp [Except.bind, h1]; rw [← h1]; rfl

/-- A checksum field and its comparison (R106, R108). -/
theorem readCheck_eq {s : State} (h : bufferOk s) (h1 : 1 ≤ s.cur) (kind) :
   (s.cur + 2 ≤ s.n → ∀ v : Half,  v.toNat = (byteAt s s.cur).toNat + 256 * (byteAt s (s.cur + 1)).toNat →
     (Config.ck (slice s 1 (s.cur - 1)) = v → readCheck Config.ck kind s = .ok v (s.setCur (s.cur+2))) ∧
     (Config.ck (slice s 1 (s.cur - 1)) ≠ v →
       readCheck Config.ck kind s =
           .raised (.checksum kind v (Config.ck (slice s 1 (s.cur - 1))) s.cur) (s.setCur (s.cur+2)))) ∧
   (s.n < s.cur + 2 → readCheck Config.ck kind s = .raised (.underrun s.cur 2 (s.n - s.cur)) s) := by
  rw [readCheck_lift h h1]; unfold callCheck callRead; rw [buffer_length h]
  refine ⟨fun hb v hv => ?_, fun hb => ?_⟩
  · rw [if_neg (by omega)]
    have hsw : swap16 (be16Seq (List.take 2 (List.drop s.cur (buffer s)))) = v := by
      apply BitVec.eq_of_toNat_eq
      have e : be16Seq (List.take 2 (List.drop s.cur (buffer s))) = be16 (byteAt s s.cur) (byteAt s (s.cur+1)) := by
        simp [be16Seq, byteAt, List.getD_eq_getElem?_getD, List.getElem?_drop]
      rw [swap16_toNat, e, be16_toNat, hv]
      have := (byteAt s s.cur).isLt; have := (byteAt s (s.cur+1)).isLt; omega
    simp only [Except.bind, hsw]
    show (Config.ck (slice s 1 (s.cur - 1)) = v → _) ∧ _
    refine ⟨fun e => ?_, fun e => ?_⟩
    · rw [if_neg (by simpa [slice] using e)]; rfl
    · rw [if_pos (by simpa [slice] using e)]; rfl
  · rw [if_pos (by omega)]; rfl

/-- How a sequence of two operations can end. -/
theorem bind_inv {α β : Type} {r : Res α} {k : α → State → Res β} :
   (∀ b t, r.bind k = .ok b t → ∃ a u, r = .ok a u ∧ k a u = .ok b t) ∧
   (∀ e t, r.bind k = .raised e t → r = .raised e t ∨ ∃ a u, r = .ok a u ∧ k a u = .raised e t) := by
  cases r <;> simp [Res.bind]

/-- A `RD` that succeeded (R91). -/
theorem rd_ok {n s a u} (h : rd n s = .ok a u) : u = s.setCur (s.cur+n) ∧ s.cur + n ≤ s.n ∧ memRead s.cur n s =
    .ok a := by
  unfold rd at h
  split at h
  · cases h
  · split at h
    · cases h; exact ⟨rfl, by omega, by assumption⟩
    · cases h

/-- A `RD` that raised (R91). -/
theorem rd_raised {n s e u} (h : rd n s = .raised e u) : u = s ∧ e = .underrun s.cur n (s.n - s.cur) ∧
    s.n < s.cur + n := by
  unfold rd at h
  split at h
  · cases h; exact ⟨rfl, rfl, by assumption⟩
  · split at h <;> cases h

/-- A `RD(1)` that succeeded. -/
theorem rdByte_ok {s a u} (h : rdByte s = .ok a u) : u = s.setCur (s.cur+1) ∧ s.cur + 1 ≤ s.n := by
  obtain ⟨a, v, h1, h2⟩ := bind_inv.1 _ _ h
  cases h2; exact ⟨(rd_ok h1).1, (rd_ok h1).2.1⟩

/-- A `RD(1)` that raised. -/
theorem rdByte_raised {s e u} (h : rdByte s = .raised e u) : u = s ∧ e = .underrun s.cur 1 (s.n - s.cur) := by
  rcases bind_inv.2 _ _ h with h1 | ⟨a, v, h1, h2⟩
  · exact ⟨(rd_raised h1).1, (rd_raised h1).2.1⟩
  · cases h2

/-- A `RD(2)` that succeeded. -/
theorem rdHalf_ok {s a u} (h : rdHalf s = .ok a u) : u = s.setCur (s.cur+2) ∧ s.cur + 2 ≤ s.n := by
  obtain ⟨a, v, h1, h2⟩ := bind_inv.1 _ _ h
  cases h2; exact ⟨(rd_ok h1).1, (rd_ok h1).2.1⟩

/-- A `RD(2)` that raised. -/
theorem rdHalf_raised {s e u} (h : rdHalf s = .raised e u) : u = s ∧ e = .underrun s.cur 2 (s.n - s.cur) := by
  rcases bind_inv.2 _ _ h with h1 | ⟨a, v, h1, h2⟩
  · exact ⟨(rd_raised h1).1, (rd_raised h1).2.1⟩
  · cases h2

/-- A flag that was taken (R101). -/
theorem readFlag_ok {s a u} (h : readFlag s = .ok a u) : u = s.setCur (s.cur+1) ∧ s.cur + 1 ≤ s.n ∧
    a = Config.flagByte := by
  obtain ⟨a, v, h1, h2⟩ := bind_inv.1 _ _ h
  split at h2
  · cases h2
  · cases h2; exact ⟨(rdByte_ok h1).1, (rdByte_ok h1).2, not_not.1 (by assumption)⟩

/-- A flag that was not taken (R214, R215). -/
theorem readFlag_raised {s e u} (h : readFlag s = .raised e u) : (errorRegs e).kind = .underrun ∨
    (errorRegs e).kind = .frameGuard := by
  rcases bind_inv.2 _ _ h with h1 | ⟨a, v, h1, h2⟩
  · rw [(rdByte_raised h1).2]; exact .inl rfl
  · split at h2
    · cases h2; exact .inr rfl
    · cases h2

/-- An address that was read (R103). -/
theorem readAddr_ok {fuel acc s a u} (h : readAddr fuel acc s = .ok a u) : acc.length ≤ a.length ∧
    a.length ≤ acc.length + fuel ∧ (0 < fuel → acc.length < a.length) ∧ u =
        s.setCur (s.cur + (a.length - acc.length)) := by
  induction fuel generalizing acc s with
  | zero => simp [readAddr] at h; obtain ⟨rfl, rfl⟩ := h; simp
  | succ fuel ih =>
    rw [readAddr] at h
    obtain ⟨b, v, h1, h2⟩ := bind_inv.1 _ _ h
    obtain ⟨rfl, -⟩ := rdByte_ok h1
    split at h2
    · cases h2; simp
    · have := ih h2
      simp at this
      refine ⟨by omega, by omega, by omega, ?_⟩
      rw [this.2.2.2]; congr 1; omega

/-- An address that ended too early (R215). -/
theorem readAddr_raised {fuel acc s e u} (h : readAddr fuel acc s = .raised e u) : (errorRegs e).kind = .underrun := by
  induction fuel generalizing acc s with
  | zero => cases h
  | succ fuel ih =>
    rw [readAddr] at h
    rcases bind_inv.2 _ _ h with h1 | ⟨a, v, h1, h2⟩
    · rw [(rdByte_raised h1).2]; rfl
    · split at h2
      · cases h2
      · exact ih h2

/-- Every end of `RAW` (R93). -/
theorem raw_inv {a b s} : (∀ r u, raw a b s = .ok r u → u = s ∧ a ≤ b ∧ b ≤ s.cur ∧ memRead a (b-a) s = .ok r) ∧
    (∀ e u, raw a b s ≠ .raised e u) := by
  unfold raw
  split
  · rename_i hab
    split
    · rename_i hh
      refine ⟨fun r u h => ?_, by simp⟩
      cases h; exact ⟨rfl, hab.1, hab.2, hh⟩
    · simp
  · simp

/-- A checksum that passed (R163, R164). -/
theorem readCheck_ok {ck kind s a u} (h : readCheck ck kind s = .ok a u) : u = s.setCur (s.cur+2) ∧ s.cur + 2 ≤ s.n ∧
    (bufferOk s → a = ck (slice s 1 (s.cur - 1))) := by
  obtain ⟨b, v, h1, h2⟩ := bind_inv.1 _ _ h
  obtain ⟨rfl, hn⟩ := rdHalf_ok h1
  obtain ⟨r, w, h3, h4⟩ := bind_inv.1 _ _ h2
  obtain ⟨rfl, h5, h6, h7⟩ := raw_inv.1 _ _ h3
  simp only [checkSum] at h4
  split at h4
  · cases h4
  · rename_i hh
    split at hh
    · cases hh
    cases h4; refine ⟨rfl, hn, fun hb => ?_⟩
    rename_i h8
    rw [memRead_ok ((bufferOk_setCur _ s).2 hb) _ _ (by simp; omega)] at h7
    cases h7
    exact (not_not.1 h8).symm

/-- A checksum that did not pass (R215, R216). -/
theorem readCheck_raised {ck kind s e u} (h : readCheck ck kind s = .raised e u) : (errorRegs e).kind = .underrun ∨
    (errorRegs e).kind = .checksum ∧ (errorRegs e).ck = some kind := by
  rcases bind_inv.2 _ _ h with h1 | ⟨a, v, h1, h2⟩
  · rw [(rdHalf_raised h1).2]; exact .inl rfl
  · rcases bind_inv.2 _ _ h2 with h3 | ⟨r, w, h3, h4⟩
    · exact absurd h3 (raw_inv.2 _ _)
    · simp only [checkSum] at h4
      split at h4
      · rename_i hh
        split at hh
        · cases hh; cases h4; exact .inr ⟨rfl, rfl⟩
        · cases hh
      · cases h4

end Sys2Proof.Machine
end

