-- ==== Sys2Proof/Laws/Phases.lean ====
section
/-! SUPPORT. Everything a phase operation that answers a next state can have done: its effect, or the error it took
(41_field_extractors.md R100 to R110, 45_sequencer_assembler_host.md R181). -/

namespace Sys2Proof.Machine

/-- The effect of a phase operation that succeeds from `s`: cursor `c`, phase `q` and field registers `g` answers it. -/
def OpEffect (i : Instr) (s : State) (c : Nat) (q : Phase) (g : Fields) : Prop :=
  match i with
  | .xflagO => q = .ffmt ∧ c = s.cur + 1 ∧ g = { s.f with flag := some Config.flagByte }
  | .xffmt => q = .dest ∧ c = s.cur + 2 ∧
    ∃ w, g = { s.f with len := some (flen w), seg := some (fseg w), fmtType := some (ftype w) }
  | .xaddrD => q = .src ∧ ∃ bs : List Byte, 1 ≤ bs.length ∧ bs.length ≤ 4 ∧ c = s.cur + bs.length ∧
    g = { s.f with dest := addrRegs bs }
  | .xaddrS => q = .ctrl ∧ ∃ bs : List Byte, 1 ≤ bs.length ∧ bs.length ≤ 4 ∧ c = s.cur + bs.length ∧
    g = { s.f with src := addrRegs bs }
  | .xctrl => q = .hcs ∧ c = s.cur + 1 ∧ ∃ b, g = controlFields b s.f
  | .xhcs => q = .ilen ∧ c = s.cur + 2 ∧ ∃ v, (bufferOk s → v = Config.ck (slice s 1 (s.cur - 1))) ∧
    g = { s.f with hcs := some v }
  | .ilen => c = s.cur ∧ ∃ len, s.f.len = some len ∧
       ((len.toNat : Int) = (s.cur : Int) - 1 ∧ q = .flagC ∧ g = { s.f with payload := some 0#1 } ∨
         ((len.toNat : Int) - 1 - (s.cur : Int)) ≥ 0 ∧ q = .info ∧
           g = { s.f with payload := some 1#1, infoN := some (len.toNat - 1 - s.cur) })
  | .xinfo => q = .fcs ∧ ∃ k, s.f.infoN = some k ∧ c = s.cur + k ∧ g = { s.f with infoOff := some s.cur }
  | .xfcs => q = .vlen ∧ c = s.cur + 2 ∧ ∃ v, (bufferOk s → v = Config.ck (slice s 1 (s.cur - 1))) ∧
    g = { s.f with fcs := some v }
  | .vlen => q = .flagC ∧ c = s.cur ∧ g = s.f ∧ ∃ len, s.f.len = some len ∧ (len.toNat : Int) = (s.cur : Int) - 1
  | .xflagC => q = .asm ∧ c = s.cur + 1 ∧ g = { s.f with flagEnd := some Config.flagByte }
  | .asm => q = .done ∧ c = s.cur ∧ g = s.f
  | _ => False

/-- The errors that a phase operation can take (R181, R218), by the error registers they write. -/
def RaisesOnly (i : Instr) (e : ErrRegs) : Prop :=
    (i = .xflagO ∨ i = .xflagC → e.kind = .underrun ∨ e.kind = .frameGuard) ∧
    (i = .xffmt ∨ i = .xaddrD ∨ i = .xaddrS ∨ i = .xctrl ∨ i = .xinfo → e.kind = .underrun) ∧
    (i = .xhcs → e.kind = .underrun ∨ (e.kind = .checksum ∧ e.ck = some .hcs)) ∧
    (i = .xfcs → e.kind = .underrun ∨ (e.kind = .checksum ∧ e.ck = some .fcs)) ∧
    (i = .ilen ∨ i = .vlen → e.kind = .length) ∧ i ≠ .asm

/-- The two ends of a phase operation that answers a next state. -/
theorem phaseOp_effect {i p s t} (hp : ownPhase i = some p) (h : exec i s = .next t) :
   s.phase = p ∧ ((∃ c q g, s.cur ≤ c ∧ (s.cur ≤ s.n → c ≤ s.n) ∧ t = ((s.setCur c).setF g).setPhase q ∧
     OpEffect i s c q g) ∨
     (∃ c e, s.cur ≤ c ∧ (s.cur ≤ s.n → c ≤ s.n) ∧ t = raise e (s.setCur c) ∧ RaisesOnly i (errorRegs e))) := by
  have key : ∀ {body : State → Res Phase} {mn : String}, phaseOp p mn body s = .next t →
     (∀ q u, body s = .ok q u → ∃ c g, s.cur ≤ c ∧ (s.cur ≤ s.n → c ≤ s.n) ∧ u = (s.setCur c).setF g ∧
         OpEffect i s c q g) →
     (∀ e u, body s = .raised e u → ∃ c, s.cur ≤ c ∧ (s.cur ≤ s.n → c ≤ s.n) ∧ u = s.setCur c) →
     (∀ e u, body s = .raised e u → RaisesOnly i (errorRegs e)) →
      s.phase = p ∧ ((∃ c q g, s.cur ≤ c ∧ (s.cur ≤ s.n → c ≤ s.n) ∧ t = ((s.setCur c).setF g).setPhase q ∧
        OpEffect i s c q g) ∨
     (∃ c e, s.cur ≤ c ∧ (s.cur ≤ s.n → c ≤ s.n) ∧ t = raise e (s.setCur c) ∧ RaisesOnly i (errorRegs e))) := by
    intro body mn h1 h2 h3 h4
    obtain ⟨hh, ⟨q, u, h5, rfl⟩ | ⟨e, u, h5, rfl⟩⟩ := phaseOp_next h1
    · obtain ⟨c, g, h6, h7, rfl, h8⟩ := h2 q u h5
      exact ⟨hh, .inl ⟨c, q, g, h6, h7, rfl, h8⟩⟩
    · obtain ⟨c, h6, h7, rfl⟩ := h3 e u h5
      exact ⟨hh, .inr ⟨c, e, h6, h7, rfl, h4 e _ h5⟩⟩
  have rz : ∀ {α} {r : Res α} {k : α → State → Res Phase}, r.sat (Moved s) → (∀ a u e v, k a u ≠ .raised e v) →
      (∀ e u, r.bind k = .raised e u → ∃ c, s.cur ≤ c ∧ (s.cur ≤ s.n → c ≤ s.n) ∧ u = s.setCur c) := by
    intro α r k h1 h2 e u h3
    rcases bind_inv.2 _ _ h3 with h4 | ⟨a, v, h4, h5⟩
    · rw [h4] at h1; exact h1
    · exact absurd h5 (h2 _ _ _ _)
  cases i <;> simp only [ownPhase, Option.some.injEq, reduceCtorEq] at hp <;> subst hp <;>
   simp only [exec, execXhcs, execXfcs, xhcsWith, xfcsWith, execXflagO, execXffmt, execXaddrD, execXaddrS, execXctrl,
       execXinfo, execXflagC, execVlen, execIlen, execAsm] at h
  case xflagO =>
    refine key h (fun q u h => ?_) ?_ (fun e u h => ?_)
    · obtain ⟨b, v, h1, h2⟩ := bind_inv.1 _ _ h
      obtain ⟨rfl, h3, rfl⟩ := readFlag_ok h1
      cases h2; exact ⟨_, _, by omega, fun _ => h3, rfl, rfl, rfl, rfl⟩
    · exact rz (readFlag_moved s) (by simp)
    · rcases bind_inv.2 _ _ h with h1 | ⟨_, _, _, h1⟩
      · simpa [RaisesOnly] using readFlag_raised h1
      · cases h1
  case xflagC =>
    refine key h (fun q u h => ?_) ?_ (fun e u h => ?_)
    · obtain ⟨b, v, h1, h2⟩ := bind_inv.1 _ _ h
      obtain ⟨rfl, h3, rfl⟩ := readFlag_ok h1
      cases h2; exact ⟨_, _, by omega, fun _ => h3, rfl, rfl, rfl, rfl⟩
    · exact rz (readFlag_moved s) (by simp)
    · rcases bind_inv.2 _ _ h with h1 | ⟨_, _, _, h1⟩
      · simpa [RaisesOnly] using readFlag_raised h1
      · cases h1
  case xffmt =>
    refine key h (fun q u h => ?_) ?_ (fun e u h => ?_)
    · obtain ⟨b, v, h1, h2⟩ := bind_inv.1 _ _ h
      obtain ⟨rfl, h3⟩ := rdHalf_ok h1
      cases h2; exact ⟨_, _, by omega, fun _ => h3, rfl, rfl, rfl, _, rfl⟩
    · exact rz (rdHalf_moved s) (by simp)
    · rcases bind_inv.2 _ _ h with h1 | ⟨_, _, _, h1⟩
      · rw [(rdHalf_raised h1).2]; simp [RaisesOnly, errorRegs]
      · cases h1
  case xctrl =>
    refine key h (fun q u h => ?_) ?_ (fun e u h => ?_)
    · obtain ⟨b, v, h1, h2⟩ := bind_inv.1 _ _ h
      obtain ⟨rfl, h3⟩ := rdByte_ok h1
      cases h2; exact ⟨_, _, by omega, fun _ => h3, rfl, rfl, rfl, _, rfl⟩
    · exact rz (rdByte_moved s) (by simp)
    · rcases bind_inv.2 _ _ h with h1 | ⟨_, _, _, h1⟩
      · rw [(rdByte_raised h1).2]; simp [RaisesOnly, errorRegs]
      · cases h1
  case xaddrD =>
    refine key h (fun q u h => ?_) ?_ (fun e u h => ?_)
    · obtain ⟨b, v, h1, h2⟩ := bind_inv.1 _ _ h
      have := readAddr_moved Config.addrMax [] s
      rw [h1] at this
      have h9 := readAddr_ok h1
      simp [Config.addrMax] at h9
      obtain ⟨c, h3, h4, h5⟩ := this
      have h6 : c = s.cur + b.length := by
        have := congrArg State.cur (h5.symm.trans h9.2.2); simpa using this
      cases h2; subst h5; exact ⟨_, _, h3, h4, rfl, rfl, b, by omega, by omega, h6, rfl⟩
    · exact rz (readAddr_moved _ _ s) (by simp)
    · rcases bind_inv.2 _ _ h with h1 | ⟨_, _, _, h1⟩
      · have := readAddr_raised h1; simp [RaisesOnly, this]
      · cases h1
  case xaddrS =>
    refine key h (fun q u h => ?_) ?_ (fun e u h => ?_)
    · obtain ⟨b, v, h1, h2⟩ := bind_inv.1 _ _ h
      have := readAddr_moved Config.addrMax [] s
      rw [h1] at this
      have h9 := readAddr_ok h1
      simp [Config.addrMax] at h9
      obtain ⟨c, h3, h4, h5⟩ := this
      have h6 : c = s.cur + b.length := by
        have := congrArg State.cur (h5.symm.trans h9.2.2); simpa using this
      cases h2; subst h5; exact ⟨_, _, h3, h4, rfl, rfl, b, by omega, by omega, h6, rfl⟩
    · exact rz (readAddr_moved _ _ s) (by simp)
    · rcases bind_inv.2 _ _ h with h1 | ⟨_, _, _, h1⟩
      · have := readAddr_raised h1; simp [RaisesOnly, this]
      · cases h1
  case xhcs =>
    refine key h (fun q u h => ?_) ?_ (fun e u h => ?_)
    · obtain ⟨b, v, h1, h2⟩ := bind_inv.1 _ _ h
      obtain ⟨rfl, h3, h4⟩ := readCheck_ok h1
      cases h2; exact ⟨_, _, by omega, fun _ => h3, rfl, rfl, rfl, _, h4, rfl⟩
    · exact rz (readCheck_moved _ _ s) (by simp)
    · rcases bind_inv.2 _ _ h with h1 | ⟨_, _, _, h1⟩
      · simpa [RaisesOnly] using readCheck_raised h1
      · cases h1
  case xfcs =>
    refine key h (fun q u h => ?_) ?_ (fun e u h => ?_)
    · obtain ⟨b, v, h1, h2⟩ := bind_inv.1 _ _ h
      obtain ⟨rfl, h3, h4⟩ := readCheck_ok h1
      cases h2; exact ⟨_, _, by omega, fun _ => h3, rfl, rfl, rfl, _, h4, rfl⟩
    · exact rz (readCheck_moved _ _ s) (by simp)
    · rcases bind_inv.2 _ _ h with h1 | ⟨_, _, _, h1⟩
      · simpa [RaisesOnly] using readCheck_raised h1
      · cases h1
  case xinfo =>
    refine key h (fun q u h => ?_) ?_ (fun e u h => ?_)
    · obtain ⟨k, v, h1, h2⟩ := bind_inv.1 _ _ h
      cases hk : s.f.infoN with
      | none => rw [hk] at h1; cases h1
      | some k' =>
      rw [hk] at h1; cases h1
      obtain ⟨bs, v, h3, h4⟩ := bind_inv.1 _ _ h2
      obtain ⟨rfl, h5, -⟩ := rd_ok h3
      cases h4; exact ⟨_, _, by omega, fun _ => h5, rfl, rfl, _, hk, rfl, rfl⟩
    · cases hk : s.f.infoN with
      | none => simp
      | some k' => simp only [readReg_some, bind_ok]; exact rz (rd_moved _ s) (by simp)
    · cases hk : s.f.infoN with
      | none => rw [hk] at h; cases h
      | some k' =>
        rw [hk] at h
        rcases bind_inv.2 _ _ h with h1 | ⟨_, _, h0, h1⟩
        · cases h1
        · cases h0
          rcases bind_inv.2 _ _ h1 with h1 | ⟨_, _, _, h1⟩
          · rw [(rd_raised h1).2.1]; simp [RaisesOnly, errorRegs]
          · cases h1
  case vlen =>
    cases hk : s.f.len with
      | none => simp [phaseOp, hk] at h; split at h <;> cases h
      | some len =>
    refine key h (fun q u h => ?_) ?_ (fun e u h => ?_)
    · rw [hk, readReg_some, bind_ok] at h
      split at h
      · cases h
      · cases h; exact ⟨_, _, le_rfl, id, rfl, rfl, rfl, rfl, _, hk, not_not.1 (by assumption)⟩
    · rw [hk, readReg_some, bind_ok]; split <;> simp; exact ⟨s.cur, le_rfl, id, rfl⟩
    · rw [hk, readReg_some, bind_ok] at h
      split at h
      · cases h; simp [RaisesOnly, errorRegs, lengthError]
      · cases h
  case ilen =>
    cases hk : s.f.len with
      | none => simp [phaseOp, hk] at h; split at h <;> cases h
      | some len =>
    refine key h (fun q u h => ?_) ?_ (fun e u h => ?_)
    · rw [hk, readReg_some, bind_ok] at h
      split at h
      · cases h; exact ⟨_, _, le_rfl, id, rfl, rfl, _, hk, .inl ⟨by assumption, rfl, rfl⟩⟩
      · split at h
        · cases h
        · rename_i h8
          cases h; refine ⟨s.cur, _, le_rfl, id, rfl, rfl, _, hk, .inr ⟨by omega, rfl, ?_⟩⟩
          rw [show ((len.toNat:Int) - 1 - (s.cur : Int)).toNat = len.toNat - 1 - s.cur by omega]
    · rw [hk, readReg_some, bind_ok]; split <;> simp; split <;> simp; exact ⟨s.cur, le_rfl, id, rfl⟩
    · rw [hk, readReg_some, bind_ok] at h
      split at h
      · cases h
      · split at h
        · cases h; simp [RaisesOnly, errorRegs, lengthError]
        · cases h
  case asm =>
    refine key h (fun q u h => ?_) ?_ (fun e u h => ?_)
    · cases h; exact ⟨_, _, le_rfl, id, rfl, rfl, rfl, rfl⟩
    · simp
    · cases h

end Sys2Proof.Machine
end

