-- ==== Sys2Proof/Laws/Points.lean ====
section
/-! SUPPORT. Each phase operation as a read of the whole call (45_sequencer_assembler_host.md R192), from a
state that is `s` at one phase of a run, and the step from there. -/

namespace Sys2Proof.Machine

/-- `s` at phase `p` of a run, with cursor `c`, field registers `f` and no error recorded. -/
def atPhase (s : State) (p : Phase) (c : Nat) (f : Fields) :
  State := { s with phase := p, cur := c, f := f, err := ErrRegs.clear }

theorem atPhase_phase (s p c f) : (atPhase s p c f).phase = p := rfl
theorem atPhase_cur (s p c f) : (atPhase s p c f).cur = c := rfl
theorem atPhase_f (s p c f) : (atPhase s p c f).f = f := rfl
theorem atPhase_pending (s p c f) : (atPhase s p c f).pending = s.pending := rfl
theorem atPhase_buf (s p c f) : buffer (atPhase s p c f) = buffer s := rfl
theorem atPhase_ok {s p c f} (h : bufferOk s) : bufferOk (atPhase s p c f) := h

/-- Where a read of the whole call leads: on to phase `q` with the field registers written, or to its error. -/
def answers {α} (r : Except (DecodeError × Nat) (α × Nat)) (s : State) (g : α → Fields) (q : Phase) :
  Host.Outcome State Fault Refusal :=
  match r with
  | .ok (b, c) => .next (atPhase s q c (g b))
  | .error (e, c) => .next (raise e (s.setCur c))

section

variable {s : State} {c : Nat} {f : Fields} (h : bufferOk s)
include h

/-- `XFLAG.O` (R101). -/
theorem xflagO_at : exec .xflagO (atPhase s .flagO c f) =
    answers (callFlag (buffer s) c) s (fun b => { f with flag := some b }) .ffmt := by
  simp only [exec, execXflagO, phaseOp_in (atPhase_phase ..), readFlag_lift (atPhase_ok h), atPhase_buf, atPhase_cur]
  rcases callFlag (buffer s) c with ⟨e, c⟩ | ⟨b, c⟩ <;> rfl

/-- `XFFMT` (R102). -/
theorem xffmt_at : exec .xffmt (atPhase s .ffmt c f) =
    answers (callRead (buffer s) c 2) s (fun w => { f with
      len := some (flen (be16Seq w))
      seg := some (fseg (be16Seq w))
      fmtType := some (ftype (be16Seq w)) }) .dest := by
  simp only [exec, execXffmt, phaseOp_in (atPhase_phase ..), rdHalf, rd_lift (atPhase_ok h), atPhase_buf, atPhase_cur]
  rcases callRead (buffer s) c 2 with ⟨e, c⟩ | ⟨b, c⟩ <;> rfl

/-- `XADDR.D` (R103). -/
theorem xaddrD_at : exec .xaddrD (atPhase s .dest c f) =
    answers (callAddr (buffer s) Config.addrMax [] c) s (fun b => { f with dest := addrRegs b }) .src := by
  simp only [exec, execXaddrD, phaseOp_in (atPhase_phase ..), readAddr_lift (atPhase_ok h), atPhase_buf, atPhase_cur]
  rcases callAddr (buffer s) Config.addrMax [] c with ⟨e, c⟩ | ⟨b, c⟩ <;> rfl

/-- `XADDR.S` (R104). -/
theorem xaddrS_at : exec .xaddrS (atPhase s .src c f) =
    answers (callAddr (buffer s) Config.addrMax [] c) s (fun b => { f with src := addrRegs b }) .ctrl := by
  simp only [exec, execXaddrS, phaseOp_in (atPhase_phase ..), readAddr_lift (atPhase_ok h), atPhase_buf, atPhase_cur]
  rcases callAddr (buffer s) Config.addrMax [] c with ⟨e, c⟩ | ⟨b, c⟩ <;> rfl

/-- `XCTRL` (R105). -/
theorem xctrl_at : exec .xctrl (atPhase s .ctrl c f) =
    answers (callRead (buffer s) c 1) s (fun b => controlFields (b.getD 0 0#8) f) .hcs := by
  simp only [exec, execXctrl, phaseOp_in (atPhase_phase ..), rdByte, rd_lift (atPhase_ok h), atPhase_buf, atPhase_cur]
  rcases callRead (buffer s) c 1 with ⟨e, c⟩ | ⟨b, c⟩ <;> rfl

/-- `XHCS` (R106). -/
theorem xhcs_at (h1 : 1 ≤ c) :
    exec .xhcs (atPhase s .hcs c f) = answers (callCheck Config.ck .hcs (buffer s) c) s (fun b => { f with hcs := some b }) .ilen := by
  simp only [exec, execXhcs, xhcsWith, phaseOp_in (atPhase_phase ..), readCheck_lift (atPhase_ok h) (s :=
      atPhase s .hcs c f) h1, atPhase_buf, atPhase_cur]
  rcases callCheck Config.ck .hcs (buffer s) c with ⟨e, c⟩ | ⟨b, c⟩ <;> rfl

/-- `XINFO` (R107). -/
theorem xinfo_at {k} (hk : f.infoN = some k) :
    exec .xinfo (atPhase s .info c f) = answers (callRead (buffer s) c k) s (fun _ => { f with infoOff := some c }) .fcs := by
  simp only [exec, execXinfo, phaseOp_in (atPhase_phase ..), atPhase_f, hk, readReg_some, bind_ok,
      rd_lift (atPhase_ok h), atPhase_buf, atPhase_cur]
  rcases callRead (buffer s) c k with ⟨e, c⟩ | ⟨b, c⟩
  · rfl
  · rw [← hk]; rfl

/-- `XFCS` (R108). -/
theorem xfcs_at (h1 : 1 ≤ c) :
    exec .xfcs (atPhase s .fcs c f) = answers (callCheck Config.ck .fcs (buffer s) c) s (fun b => { f with fcs := some b }) .vlen := by
  simp only [exec, execXfcs, xfcsWith, phaseOp_in (atPhase_phase ..), readCheck_lift (atPhase_ok h) (s :=
      atPhase s .fcs c f) h1, atPhase_buf, atPhase_cur]
  rcases callCheck Config.ck .fcs (buffer s) c with ⟨e, c⟩ | ⟨b, c⟩ <;> rfl

/-- `XFLAG.C` (R109). -/
theorem xflagC_at : exec .xflagC (atPhase s .flagC c f) =
    answers (callFlag (buffer s) c) s (fun b => { f with flagEnd := some b }) .asm := by
  simp only [exec, execXflagC, phaseOp_in (atPhase_phase ..), readFlag_lift (atPhase_ok h), atPhase_buf, atPhase_cur]
  rcases callFlag (buffer s) c with ⟨e, c⟩ | ⟨b, c⟩ <;> rfl

omit h in
/-- `ASM` (R190). -/
theorem asm_at : exec .asm (atPhase s .asm c f) = .next (atPhase s .done c f) := by
  simp only [exec, execAsm, phaseOp_in (atPhase_phase ..)]; rfl

omit h in
/-- `ILEN` (R166, R167). -/
theorem ilen_at {len} (hl : f.len = some len) : exec .ilen (atPhase s .ilen c f) =
    if (len.toNat : Int) = (c : Int) - 1 then .next (atPhase s .flagC c { f with payload := some 0#1 })
    else if (len.toNat : Int) - 1 - (c : Int) < 0 then .next (raise (.length len.toNat (c - 1) c) (s.setCur c))
    else .next (atPhase s .info c { f with payload := some 1#1, infoN := some ((len.toNat : Int) - 1 - (c : Int)).toNat }) := by
  simp only [exec, execIlen, phaseOp_in (atPhase_phase ..), atPhase_f, hl, readReg_some, bind_ok, atPhase_cur,
      lengthError]
  split
  · simp [← hl]; rfl
  · split
    · rfl
    · simp [← hl]; rfl

omit h in
/-- `VLEN` (R165). -/
theorem vlen_at {len} (hl : f.len = some len) : exec .vlen (atPhase s .vlen c f) =
    if (len.toNat : Int) ≠ (c : Int) - 1 then .next (raise (.length len.toNat (c - 1) c) (s.setCur c))
    else .next (atPhase s .flagC c f) := by
  simp only [exec, execVlen, phaseOp_in (atPhase_phase ..), atPhase_f, hl, readReg_some, bind_ok, lengthError]
  show finish (if (len.toNat : Int) ≠ (c : Int) - 1 then _ else _) _ = _
  split <;> rfl

end

end Sys2Proof.Machine
end

