-- ==== Sys2Proof/Laws/Run.lean ====
section
/-! SUPPORT. Runs of several steps, what one step can be, and the step of the sequencer from each working phase
(45_sequencer_assembler_host.md R180, R181, R183). -/

namespace Sys2Proof.Machine

/-- A run goes on answers its first step. -/
theorem core_run_succ (M : Host.Core) {k} {u v : M.State} (h : M.step u = .next v) : M.run (k+1) u = M.run k v := by
  simp [Host.Core.run, h]

/-- The same for this machine. -/
theorem run_succ {k} {u v : State} (h : step u = .next v) :
    Host.Core.run core (k+1) u = Host.Core.run core k v := core_run_succ core h

/-- In a working phase the sequencer runs the phase's operation. -/
theorem sequencerOp_phase {u i p} (hp : ownPhase i = some p) (h : u.phase = p) : sequencerOp u = .run i u := by
  unfold sequencerOp fetchBytes
  rw [h]
  cases i <;> simp only [ownPhase, Option.some.injEq, reduceCtorEq] at hp <;> subst hp <;> rfl

/-- What the sequencer does next: the operation of a working phase, or nothing outside a run. -/
theorem sequencerOp_cases (u : State) :
    (∃ i p, ownPhase i = some p ∧ u.phase = p ∧ sequencerOp u = .run i u) ∨
      phaseStatus u.phase ≠ .busy ∧ sequencerOp u = .rest u := by
  cases hp : u.phase
  case idle => exact .inr ⟨by decide, by simp [sequencerOp, fetchBytes, hp]; rfl⟩
  case done => exact .inr ⟨by decide, by simp [sequencerOp, fetchBytes, hp]; rfl⟩
  case error => exact .inr ⟨by decide, by simp [sequencerOp, fetchBytes, hp]; rfl⟩
  case flagO => exact .inl ⟨.xflagO, _, rfl, rfl, sequencerOp_phase rfl hp⟩
  case ffmt => exact .inl ⟨.xffmt, _, rfl, rfl, sequencerOp_phase rfl hp⟩
  case dest => exact .inl ⟨.xaddrD, _, rfl, rfl, sequencerOp_phase rfl hp⟩
  case src => exact .inl ⟨.xaddrS, _, rfl, rfl, sequencerOp_phase rfl hp⟩
  case ctrl => exact .inl ⟨.xctrl, _, rfl, rfl, sequencerOp_phase rfl hp⟩
  case hcs => exact .inl ⟨.xhcs, _, rfl, rfl, sequencerOp_phase rfl hp⟩
  case ilen => exact .inl ⟨.ilen, _, rfl, rfl, sequencerOp_phase rfl hp⟩
  case info => exact .inl ⟨.xinfo, _, rfl, rfl, sequencerOp_phase rfl hp⟩
  case fcs => exact .inl ⟨.xfcs, _, rfl, rfl, sequencerOp_phase rfl hp⟩
  case vlen => exact .inl ⟨.vlen, _, rfl, rfl, sequencerOp_phase rfl hp⟩
  case flagC => exact .inl ⟨.xflagC, _, rfl, rfl, sequencerOp_phase rfl hp⟩
  case asm => exact .inl ⟨.asm, _, rfl, rfl, sequencerOp_phase rfl hp⟩

/-- From a working phase the step is the phase's operation. -/
theorem step_phase {u i p} (hp : ownPhase i = some p) (h : u.phase = p) (hn : u.pending = []) : step u = exec i u := by
  simp [step, nextOp, hn, sequencerOp_phase hp h]

/-- Everything a step that answers a next state can be: nothing outside a run, an empty move taken there, a power-on reset,
a pending operation, or the operation of the present phase. -/
theorem step_cases {s t} (h : step s = .next t) :
    t = s ∨ (∃ ms, s.pending = .tick :: ms ∧ t = s.setPending ms) ∨
    (∃ ms, s.pending = .powerOn :: ms ∧ t = powerOn (s.setPending ms)) ∨
    (∃ i ms, s.pending = .op i :: ms ∧ exec i (s.setPending ms) = .next t) ∨
    (∃ i p ms, (s.pending = .tick :: ms ∨ s.pending = [] ∧ ms = []) ∧ ownPhase i = some p ∧
      exec i (s.setPending ms) = .next t) := by
  unfold step nextOp at h
  split at h <;> rename_i hu
  · split at hu
    · cases hu; exact .inr (.inr (.inr (.inl ⟨_, _, by assumption, h⟩)))
    · rename_i ms hm
      obtain ⟨j, p, h1, -, h2⟩ | ⟨-, h2⟩ := sequencerOp_cases (s.setPending ms) <;> rw [hu] at h2 <;> cases h2
      exact .inr (.inr (.inr (.inr ⟨_, p, _, .inl hm, h1, h⟩)))
    · cases hu
    · rename_i hm
      obtain ⟨j, p, h1, -, h2⟩ | ⟨-, h2⟩ := sequencerOp_cases s <;> rw [hu] at h2 <;> cases h2
      have : s.setPending [] = s := by rw [← hm]; rfl
      exact .inr (.inr (.inr (.inr ⟨_, p, [], .inr ⟨hm, rfl⟩, h1, by rw [this]; exact h⟩)))
  · cases h
    split at hu
    · cases hu
    · rename_i ms hm
      obtain ⟨j, p, h1, -, h2⟩ | ⟨-, h2⟩ := sequencerOp_cases (s.setPending ms) <;> rw [hu] at h2 <;> cases h2
      exact .inr (.inl ⟨ms, hm, rfl⟩)
    · rename_i ms hm
      cases hu; exact .inr (.inr (.inl ⟨ms, hm, rfl⟩))
    · obtain ⟨j, p, h1, -, h2⟩ | ⟨-, h2⟩ := sequencerOp_cases s <;> rw [hu] at h2 <;> cases h2
      exact .inl rfl

/-- A working phase has not ended the run. -/
theorem not_ended_of_phase {u i p} (hp : ownPhase i = some p) (h : u.phase = p) : ¬ ended u := by
  unfold ended; rw [h]
  cases i <;> simp only [ownPhase, Option.some.injEq, reduceCtorEq] at hp <;> subst hp <;> simp

end Sys2Proof.Machine
end

