-- ==== Sys2Proof/Tests/Slice0.lean ====
section
/-! SUPPORT. Tests of the model against the spec's own vectors (95_test_vectors.md, cited by their names) and words written out
from its encodings, the refusal of ill-formed operations, and for every statement with hypotheses a state and operands that
meet them. -/

namespace Sys2Proof.Tests

open Sys2Proof Sys2Proof.Machine

/-! ### Frames and states -/

/-- Frame A (S1). -/
def frameA : List Byte :=
  [0x7E, 0xA0, 0x11, 0x61, 0x03, 0x30, 0xD3, 0xBE, 0xE6, 0xE7, 0x00, 0xC7, 0x01, 0x81, 0x01, 0x00, 0x52, 0xAB, 0x7E]

/-- Frame B (S2). -/
def frameB : List Byte := [0x7E, 0xA0, 0x07, 0x03, 0x41, 0x31, 0x42, 0xE2, 0x7E]

/-- The bytes of the S5 range. -/
def rangeS5 : List Byte :=
  [0xA0, 0x20, 0x03, 0x61, 0x93, 0x1B, 0x9F, 0x81, 0x80, 0x14, 0x05, 0x02, 0x08, 0x00, 0x06, 0x02, 0x08, 0x00, 0x07, 0x04,
   0x00, 0x00, 0x00, 0x07, 0x08, 0x04, 0x00, 0x00, 0x00, 0x07]

/-- A parser that holds a frame, at a phase and an offset, with the field registers given. -/
def parserAt (frame : List Byte) (p : Phase) (c : Nat) (f : Fields := Fields.empty) : State :=
  { loaded frame State.reset with phase := p, cur := c, f := f }

/-- The state an outcome answers, where it answers one. -/
def after (o : Host.Outcome State Fault Refusal) : Option State :=
  match o with
  | .next s => some s
  | _ => none

/-- The value given back. -/
def gave (o : Host.Outcome State Fault Refusal) : Option Value := (after o).bind State.ret

/-! ### Ill-formed operations -/

theorem test_raw_illFormed : wellFormed (.raw 2 1) = false ∧ wellFormed (.raw 1 1) = true := by decide
theorem test_ftypeOther_illFormed : wellFormed (.ftypeOther 0xA 0) = false ∧ wellFormed (.ftypeOther 0xB 0) = true := by
  decide
theorem test_classifyNone_illFormed :
    wellFormed (.classifyNone 0b100 0 0b001) = false ∧ wellFormed (.classifyNone 0b100 0 0b100) = true := by decide
theorem test_load_illFormed : wellFormed (.load (List.replicate (Config.bufCap + 1) 0)) = false := by
  simp [wellFormed]

/-! ### Decoding, on words written out from the spec's encodings -/

/-- R14: codes 1 to 12. -/
theorem test_decode_phaseCodes :
    decode .phase [0b0000_0001] = .ok (.xflagO, []) ∧ decode .phase [0b0000_0010] = .ok (.xffmt, []) ∧
    decode .phase [0b0000_0011] = .ok (.xaddrD, []) ∧ decode .phase [0b0000_0100] = .ok (.xaddrS, []) ∧
    decode .phase [0b0000_0101] = .ok (.xctrl, []) ∧ decode .phase [0b0000_0110] = .ok (.xhcs, []) ∧
    decode .phase [0b0000_0111] = .ok (.ilen, []) ∧ decode .phase [0b0000_1000] = .ok (.xinfo, []) ∧
    decode .phase [0b0000_1001] = .ok (.xfcs, []) ∧ decode .phase [0b0000_1010] = .ok (.vlen, []) ∧
    decode .phase [0b0000_1011] = .ok (.xflagC, []) ∧ decode .phase [0b0000_1100] = .ok (.asm, []) :=
  ⟨rfl, rfl, rfl, rfl, rfl, rfl, rfl, rfl, rfl, rfl, rfl, rfl⟩

/-- R14, U10: codes without an operation; R61: a byte that is no flag; too few bytes. -/
theorem test_decode_rejects :
    decode .phase [0b0000_0000] = .error .phaseIdle ∧ decode .phase [0b0000_1101] = .error .phaseDone ∧
    decode .phase [0b0000_1110] = .error .phaseError ∧ decode .phase [0b0000_1111] = .error .noSuchPhase ∧
    decode .phase [0b0001_0001] = .error .noSuchPhase ∧ decode .flag [0b0111_1111] = .error .notFlag ∧
    decode .frameFormat [0xA0] = .error .tooShort ∧ decode .control [] = .error .tooShort :=
  ⟨rfl, rfl, rfl, rfl, rfl, rfl, rfl, rfl⟩

/-- R70: one byte per row of the classifier, poll/final set. -/
theorem test_decode_control :
    decode .control [0b101_1_110_0] = .ok (.classifyI 0b101 1 0b110, []) ∧
    decode .control [0b100_1_001_1] = .ok (.classifySnrm 1, []) ∧
    decode .control [0b010_1_001_1] = .ok (.classifyDisc 1, []) ∧
    decode .control [0b011_1_001_1] = .ok (.classifyUa 1, []) ∧
    decode .control [0b000_1_111_1] = .ok (.classifyDm 1, []) ∧
    decode .control [0b100_1_011_1] = .ok (.classifyFrmr 1, []) ∧
    decode .control [0b000_1_001_1] = .ok (.classifyUi 1, []) ∧
    decode .control [0b111_1_010_1] = .ok (.classifyRnr 0b111 1, []) ∧
    decode .control [0b111_1_000_1] = .ok (.classifyRr 0b111 1, []) ∧
    decode .control [0b001_1_001_1] = .ok (.classifyNone 0b001 1 0b001, []) :=
  ⟨rfl, rfl, rfl, rfl, rfl, rfl, rfl, rfl, rfl, rfl⟩

/-- R72: the two rows of FTYPE, and the operand words of the functions, high-order byte first. -/
theorem test_decode_operands :
    decode .frameFormat [0b1010_0000, 0b0010_0000] = .ok (.ftypeA 0x020, []) ∧
    decode .frameFormat [0b1001_1000, 0b0001_0000] = .ok (.ftypeOther 0x9 0x810, []) ∧
    decode .be16 [0xD3, 0xBE] = .ok (.be16 0xD3 0xBE, []) ∧ decode .swap16 [0x12, 0x34] = .ok (.swap16 0x1234, []) ∧
    decode .flen [0xA7, 0xFF] = .ok (.flen 0xA7FF, []) ∧ decode .fseg [0x08, 0x00] = .ok (.fseg 0x0800, []) ∧
    decode .ftype [0xB0, 0x07] = .ok (.ftype 0xB007, []) ∧ decode .astop [0x61] = .ok (.astop 0x61, []) ∧
    decode .clsb [0x93] = .ok (.clsb 0x93, []) ∧ decode .cpf [0x93] = .ok (.cpf 0x93, []) ∧
    decode .crecv [0x93] = .ok (.crecv 0x93, []) ∧ decode .csend [0x93] = .ok (.csend 0x93, []) ∧
    decode .classify [0x93] = .ok (.classify 1 128 2, []) ∧ decode .flag [0x7E, 0xA0] = .ok (.xflagO, [0xA0]) :=
  ⟨rfl, rfl, rfl, rfl, rfl, rfl, rfl, rfl, rfl, rfl, rfl, rfl, rfl, rfl⟩

/-- The words of the opcode table (the `match` values). -/
theorem test_decodeTableWord :
    decodeTableWord 8 0x7E = some .xflagO ∧ decodeTableWord 16 0xA000 = some (.ftypeA 0) ∧
    decodeTableWord 8 0x83 = some (.classifySnrm 0) ∧ decodeTableWord 8 0x05 = some (.classifyRnr 0 0) ∧
    decodeTableWord 8 0x00 = some (.classifyI 0 0 0) ∧ decodeTableWord 4 0b1010 = some .vlen ∧
    decodeTableWord 4 0b1101 = none ∧ decodeTableWord 8 0x100 = none := by decide

/-! ### The step -/

/-- A placed word is run by the very next step. -/
theorem test_step_placedWord :
    gave (step (State.reset.withFetchWord 8 0x83)) = some (.cls .snrm) ∧
    gave (step (State.reset.withFetchWord 16 0xA020)) = some (.half 3) ∧
    (after (step (State.reset.withFetchWord 8 0x7E))).map (fun s => (s.phase, s.cur, s.f.flag)) =
      some (.ffmt, 1, some 0x7E) ∧
    (after (step (State.reset.withFetchWord 4 0b1100))).map State.phase = some .done :=
  ⟨rfl, rfl, rfl, rfl⟩

/-- P2, steps 1 to 5: the sequencer from LOAD and START on. -/
theorem test_step_frameB :
    (after (Host.Core.run core 5 (started (loaded frameB State.reset)))).map (fun s => (s.phase, s.cur)) =
      some (.hcs, 6) ∧
    (after (Host.Core.run core 5 (started (loaded frameB State.reset)))).map (fun s => s.f.cls) = some (some .rr) :=
  ⟨rfl, rfl⟩

/-- V-H-2: START after reset runs on the empty buffer into an UnderrunError at offset 0. -/
theorem test_step_emptyBuffer :
    (after (Host.Core.run core 2 { State.reset with pending := [.op .start] })).map (fun s => s.err) =
      some ⟨.underrun, none, some 1, some 0, some 0⟩ := rfl

/-- R240: a power-on reset abandons the run in progress, and the parser then takes a START. -/
theorem test_step_powerOn :
    step { parserAt frameB .src 4 with pending := [.powerOn] } = .next State.reset ∧
    (after (Host.Core.run core 2 { parserAt frameB .src 4 with pending := [.powerOn, .op .start] })).map State.phase =
      some .flagO := ⟨rfl, rfl⟩

/-! ### The operations, on the spec's vectors -/

/-- V-RD-2, V-RD-6. -/
theorem test_rd : exec (.rd 2) (parserAt frameB .idle 1) =
      .next { parserAt frameB .idle 3 with ret := some (.bytes [0xA0, 0x07]) } ∧
    gave (exec (.rd 0) (parserAt frameB .idle 9)) = some (.bytes []) := ⟨rfl, rfl⟩
/-- V-RD-5: the one remaining byte is not consumed. -/
theorem test_rd_underrun : (after (exec (.rd 2) (parserAt frameB .idle 8))).map (fun s => (s.err, s.cur)) =
    some (⟨.underrun, none, some 2, some 1, some 8⟩, 8) := rfl
/-- V-CNT-1. -/
theorem test_cnt : gave (exec .cnt (parserAt frameB .idle 8)) = some (.num 8) := rfl
/-- V-RAW-1, V-RAW-3. -/
theorem test_raw : gave (exec (.raw 1 6) (parserAt frameB .idle 6)) = some (.bytes [0xA0, 0x07, 0x03, 0x41, 0x31]) ∧
    gave (exec (.raw 1 1) (parserAt frameB .idle 6)) = some (.bytes []) := ⟨rfl, rfl⟩
/-- R93: outside its domain. -/
theorem test_raw_domain : exec (.raw 1 7) (parserAt frameB .idle 6) = .fault (.rawRange 1 7) := rfl
/-- V-E-2. -/
theorem test_xflagO_guard : (after (exec .xflagO (parserAt [0x7F, 0xA0] .flagO 0))).map (fun s => s.err) =
    some ⟨.frameGuard, none, some 0x7E, some 0x7F, some 0⟩ := rfl
/-- V-E-21. -/
theorem test_xflagC_guard : (after (exec .xflagC (parserAt (frameB.take 8 ++ [0x7F]) .flagC 8))).map (fun s => s.err) =
    some ⟨.frameGuard, none, some 0x7E, some 0x7F, some 8⟩ := rfl
/-- P4, step 2. -/
theorem test_xffmt : (after (exec .xffmt (parserAt [0x7E, 0x98, 0x10] .ffmt 1))).map
    (fun s => (s.f.len, s.f.seg, s.f.fmtType, s.cur)) = some (some 16, some 1, some 0x9000, 3) := rfl
/-- V-E-5. -/
theorem test_xffmt_underrun : (after (exec .xffmt (parserAt [0x7E, 0xA0] .ffmt 1))).map (fun s => s.err) =
    some ⟨.underrun, none, some 2, some 1, some 1⟩ := rfl
/-- V-AD-5: four bytes without a stop bit. -/
theorem test_xaddrD : (after (exec .xaddrD (parserAt [0x7E, 0xA0, 0x0B, 0x00, 0x02, 0x04, 0x06, 0x08, 0x41] .dest 3))).map
    (fun s => (s.f.dest, s.cur)) = some (⟨some 0x00, some 0x02, some 0x04, some 0x06, some 4⟩, 7) := rfl
/-- V-AD-10. -/
theorem test_xaddrD_underrun : (after (exec .xaddrD (parserAt [0x7E, 0xA0, 0x07, 0x00, 0x02, 0x04] .dest 3))).map
    (fun s => s.err) = some ⟨.underrun, none, some 1, some 0, some 6⟩ := rfl
/-- S7 and V-AD-5: the stop bit ends the field. -/
theorem test_xaddrS : (after (exec .xaddrS (parserAt [0x7E, 0xA0, 0x0B, 0x00, 0x02, 0x04, 0x06, 0x08, 0x41, 0x31] .src 7))).map
    (fun s => (s.f.src, s.cur)) = some (⟨some 0x08, some 0x41, none, none, some 2⟩, 9) := rfl
/-- P3, step 5. -/
theorem test_xctrl : (after (exec .xctrl (parserAt [0x93] .ctrl 0))).map
    (fun s => (s.f.lsb, s.f.pf, s.f.recv, s.f.send, s.f.cls)) =
      some (some 1, some 1, some 128, some 2, some .snrm) := rfl
/-- P2, step 6 and P5, step 6, with CRC-16/X-25. -/
theorem test_xhcs : (after (xhcsWith Config.crc16X25 (parserAt frameB .hcs 6))).map (fun s => (s.f.hcs, s.cur)) =
      some (some 57922, 8) ∧
    (after (xhcsWith Config.crc16X25 (parserAt (frameB.take 7 ++ [0xE3, 0x7E]) .hcs 6))).map (fun s => s.err) =
      some ⟨.checksum, some .hcs, some 58178, some 57922, some 6⟩ := by
  decide +kernel
/-- P1, step 9 and P9, step 9, with CRC-16/X-25. -/
theorem test_xfcs : (after (xfcsWith Config.crc16X25 (parserAt frameA .fcs 16))).map (fun s => (s.f.fcs, s.cur)) =
      some (some 43858, 18) ∧
    (after (xfcsWith Config.crc16X25 (parserAt (frameA.take 17 ++ [0xAC, 0x7E]) .fcs 16))).map (fun s => s.err) =
      some ⟨.checksum, some .fcs, some 44114, some 43858, some 16⟩ := by
  decide +kernel
/-- P1, step 8 and P6, step 8. -/
theorem test_xinfo : (after (exec .xinfo (parserAt frameA .info 8 { Fields.empty with infoN := some 8 }))).map
      (fun s => (s.f.infoOff, s.cur)) = some (some 8, 16) ∧
    (after (exec .xinfo (parserAt (frameA.take 12) .info 8 { Fields.empty with infoN := some 8 }))).map (fun s => s.err) =
      some ⟨.underrun, none, some 8, some 4, some 8⟩ := ⟨rfl, rfl⟩
/-- Section 2.6, H = 7: lengths 7, 9 and 2047. -/
theorem test_ilen :
    (after (exec .ilen (parserAt [] .ilen 8 { Fields.empty with len := some 7 }))).map
      (fun s => (s.f.payload, s.f.infoN, s.phase)) = some (some 0, none, .flagC) ∧
    (after (exec .ilen (parserAt [] .ilen 8 { Fields.empty with len := some 9 }))).map
      (fun s => (s.f.payload, s.f.infoN, s.phase)) = some (some 1, some 0, .info) ∧
    (after (exec .ilen (parserAt [] .ilen 8 { Fields.empty with len := some 2047 }))).map (fun s => s.f.infoN) =
      some (some 2038) := ⟨rfl, rfl, rfl⟩
/-- Section 2.6, H = 7: lengths 0, 6 and 8. -/
theorem test_ilen_length :
    (after (exec .ilen (parserAt [] .ilen 8 { Fields.empty with len := some 0 }))).map (fun s => s.err) =
      some ⟨.length, none, some 0, some 7, some 8⟩ ∧
    (after (exec .ilen (parserAt [] .ilen 8 { Fields.empty with len := some 6 }))).map (fun s => s.err) =
      some ⟨.length, none, some 6, some 7, some 8⟩ ∧
    (after (exec .ilen (parserAt [] .ilen 8 { Fields.empty with len := some 8 }))).map (fun s => s.err) =
      some ⟨.length, none, some 8, some 7, some 8⟩ := ⟨rfl, rfl, rfl⟩
/-- S6, and P1, step 10. -/
theorem test_vlen :
    (after (exec .vlen (parserAt [] .vlen 34 { Fields.empty with len := some 38 }))).map (fun s => s.err) =
      some ⟨.length, none, some 38, some 33, some 34⟩ ∧
    (after (exec .vlen (parserAt [] .vlen 18 { Fields.empty with len := some 17 }))).map State.phase = some .flagC :=
  ⟨rfl, rfl⟩
/-- P1, step 12. -/
theorem test_asm : (after (exec .asm (parserAt frameA .asm 19))).map State.phase = some .done := rfl
/-- V-BE-3 to V-BE-5. -/
theorem test_be16 (s : State) : gave (exec (.be16 0xA0 0x11) s) = some (.half 0xA011) ∧
    gave (exec (.be16 0 1) s) = some (.half 1) ∧ gave (exec (.be16 1 0) s) = some (.half 256) := ⟨rfl, rfl, rfl⟩
/-- V-SW-2, V-SW-5 and V-SW-6. -/
theorem test_swap16 (s : State) : gave (exec (.swap16 0x00FF) s) = some (.half 0xFF00) ∧
    gave (exec (.swap16 0xD3BE) s) = some (.half 48851) ∧ gave (exec (.swap16 0x1234) s) = some (.half 0x3412) :=
  ⟨rfl, rfl, rfl⟩
/-- V-FF-3, V-FF-4 and V-FF-11. -/
theorem test_flen (s : State) : gave (exec (.flen 0xA7FF) s) = some (.len 2047) ∧
    gave (exec (.flen 0xA800) s) = some (.len 0) ∧ gave (exec (.flen 0x9FA0) s) = some (.len 1952) := ⟨rfl, rfl, rfl⟩
/-- V-FF-3 and V-FF-12. -/
theorem test_fseg (s : State) : gave (exec (.fseg 0xA7FF) s) = some (.bit 0) ∧
    gave (exec (.fseg 0x0800) s) = some (.bit 1) := ⟨rfl, rfl⟩
/-- S3, V-FF-7 and V-FF-10. -/
theorem test_ftype (s : State) : gave (exec (.ftype 40985) s) = some (.half 3) ∧
    gave (exec (.ftype 0x3011) s) = some (.half 12288) ∧ gave (exec (.ftype 0xB007) s) = some (.half 45056) :=
  ⟨rfl, rfl, rfl⟩
/-- V-FF-5. -/
theorem test_ftypeA (s : State) : gave (exec (.ftypeA 0xFFF) s) = some (.half 3) := rfl
/-- V-FF-8; a word of nibble 0xA is not of the row. -/
theorem test_ftypeOther (s : State) : gave (exec (.ftypeOther 0x9 0x810) s) = some (.half 36864) ∧
    exec (.ftypeOther 0xA 0) s = .refused (.rowDoesNotApply "FTYPE.OTHER") := ⟨rfl, rfl⟩
/-- V-CB-12 and V-CB-13. -/
theorem test_astop (s : State) : gave (exec (.astop 0xFE) s) = some (.bit 0) ∧
    gave (exec (.astop 0x61) s) = some (.bit 1) := ⟨rfl, rfl⟩
/-- V-CB-10. -/
theorem test_controlFields (s : State) : gave (exec (.clsb 0x93) s) = some (.bit 1) ∧
    gave (exec (.cpf 0x93) s) = some (.bit 1) ∧ gave (exec (.crecv 0x93) s) = some (.byte 128) ∧
    gave (exec (.csend 0x93) s) = some (.byte 2) := ⟨rfl, rfl, rfl, rfl⟩
/-- V-CB-6. -/
theorem test_controlFields_noPoll (s : State) : gave (exec (.cpf 0xEF) s) = some (.bit 0) ∧
    gave (exec (.crecv 0xEF) s) = some (.byte 224) ∧ gave (exec (.csend 0xEF) s) = some (.byte 14) := ⟨rfl, rfl, rfl⟩
/-- V-CL-1 to V-CL-16; they meet every clause of ClassifyFollowsTheOrderedList. -/
theorem test_classify :
    classify 0 128 2 = .i ∧ classify 0 0 14 = .i ∧ classify 1 128 2 = .snrm ∧ classify 1 64 2 = .disc ∧
    classify 1 96 2 = .ua ∧ classify 1 0 14 = .dm ∧ classify 1 128 6 = .frmr ∧ classify 1 0 2 = .ui ∧
    classify 1 224 4 = .rnr ∧ classify 1 224 0 = .rr ∧ classify 1 32 2 = .none ∧ classify 1 0 6 = .none ∧
    classify 1 32 14 = .none ∧ classify 1 0 8 = .none ∧ classify 1 0 12 = .none ∧ classify 1 224 14 = .none := by decide
/-- Section 2.3, the counts of the map. -/
theorem test_classify_counts :
    ((List.range 256).filter (fun k => classifyByte (BitVec.ofNat 8 k) == .i)).length = 128 ∧
    ((List.range 256).filter (fun k => classifyByte (BitVec.ofNat 8 k) == .rr)).length = 16 ∧
    ((List.range 256).filter (fun k => classifyByte (BitVec.ofNat 8 k) == .none)).length = 84 := ⟨rfl, rfl, rfl⟩
/-- A byte that another row matches is not of the row NONE (R151). -/
theorem test_classifyNone_refused (s : State) :
    exec (.classifyNone 0b100 0 0b001) s = .refused (.rowDoesNotApply "CLASSIFY.NONE") := rfl
/-- V-CK-1 to V-CK-4, V-CK-6 to V-CK-8. -/
theorem test_crc16X25 :
    Config.crc16X25 [] = 0 ∧ Config.crc16X25 [0x00] = 0xF078 ∧
    Config.crc16X25 [0x31, 0x32, 0x33, 0x34, 0x35, 0x36, 0x37, 0x38, 0x39] = 0x906E ∧
    Config.crc16X25 [0xA0, 0x11, 0x61, 0x03, 0x30] = 0xBED3 ∧ Config.crc16X25 [0xA0, 0x07, 0x03, 0x41, 0x31] = 0xE242 ∧
    Config.crc16X25 [0xA0, 0x20, 0x03, 0x61, 0x93] = 0x9F1B ∧ Config.crc16X25 rangeS5 = 0xC6B3 := by
  decide +kernel
/-- V-VC-2 and V-VC-3, with CK_ZERO; V-VC-5 (S5). -/
theorem test_vchk (s : State) :
    vchkWith Config.ckZero .hcs 0 [0xA0, 0x11, 0x61, 0x03, 0x30] 6 s = .next s ∧
    (after (vchkWith Config.ckZero .hcs 0xBED3 [0xA0, 0x11, 0x61, 0x03, 0x30] 6 s)).map (fun s => s.err) =
      some ⟨.checksum, some .hcs, some 48851, some 0, some 6⟩ ∧
    (checkSum Config.crc16X25 .hcs 4 rangeS5 31) = some (.checksum .hcs 4 50867 31) :=
  ⟨rfl, rfl, by decide +kernel⟩

/-! ### The whole call -/

/-- S1: frame A with CRC-16/X-25. -/
theorem test_decode_frameA : decodeCall Config.crc16X25 frameA = .ok ⟨0x7E, 17, 0, 3, [0x61], [0x03],
    ⟨0, .i, 32, 0, 1⟩, 48851, some [0xE6, 0xE7, 0x00, 0xC7, 0x01, 0x81, 0x01, 0x00], some 43858, 0x7E⟩ := by
  decide +kernel
/-- S2: frame B, and V-N-1: bytes after the closing flag are not read. -/
theorem test_decode_frameB : decodeRun Config.crc16X25 (frameB ++ [0xFF, 0xFF]) = .ok (⟨0x7E, 7, 0, 3, [0x03], [0x41],
    ⟨1, .rr, 32, 0, 1⟩, 57922, none, none, 0x7E⟩, 9) := by
  decide +kernel
/-- P4. -/
theorem test_decode_extended : decodeCall Config.crc16X25
    [0x7E, 0x98, 0x10, 0x00, 0x02, 0x04, 0x06, 0x02, 0x23, 0x13, 0x33, 0x5E, 0x01, 0x02, 0x03, 0x80, 0x94, 0x7E] =
    .ok ⟨0x7E, 16, 1, 36864, [0x00, 0x02, 0x04, 0x06], [0x02, 0x23], ⟨1, .ui, 0, 2, 1⟩, 24115, some [1, 2, 3],
      some 38016, 0x7E⟩ := by
  decide +kernel
/-- P5 to P7, P9 and P10. -/
theorem test_decode_errors :
    decodeCall Config.crc16X25 [0x7E, 0xA0, 0x07, 0x03, 0x41, 0x31, 0x42, 0xE3, 0x7E] =
      .error (.checksum .hcs 58178 57922 6) ∧
    decodeCall Config.crc16X25 (frameA.take 12) = .error (.underrun 8 8 4) ∧
    decodeCall Config.crc16X25 [0x7E, 0xA0, 0x05, 0x03, 0x41, 0x31, 0x34, 0xDB, 0x7E] = .error (.length 5 7 8) ∧
    decodeCall Config.crc16X25 (frameA.take 17 ++ [0xAC, 0x7E]) = .error (.checksum .fcs 44114 43858 16) ∧
    decodeCall Config.crc16X25 (frameB.take 8 ++ [0x7F]) = .error (.frameGuard 8 0x7F) := by
  decide +kernel
/-- V-CZ-3 and V-CZ-4, with CK_ZERO. -/
theorem test_decode_ckZero :
    (decodeRun Config.ckZero [0x7E, 0xA0, 0x0B, 0x03, 0x41, 0x31, 0, 0, 0xAA, 0xBB, 0, 0, 0x7E]).toOption.map
      (fun r => (r.1.information, r.1.fcs, r.2)) = some (some [0xAA, 0xBB], some 0, 13) ∧
    decodeCall Config.ckZero [0x7E, 0xA0, 0x0A, 0x03, 0x41, 0x31, 0, 0, 0xAA, 0xBB, 0, 0, 0x7E] =
      .error (.checksum .fcs 187 0 9) := by decide
/-- P8 as one step: the state DECODE leaves; P7: the error it leaves. -/
theorem test_decode_step :
    (after (decodeWith Config.crc16X25
      (loaded [0x7E, 0xA0, 0x09, 0x03, 0x41, 0x31, 0x00, 0x4C, 0x47, 0x0F, 0x7E] State.reset))).map
      (fun s => (s.phase, s.cur, s.f.infoOff, s.f.infoN, s.f.fcs)) = some (.done, 11, some 8, some 0, some 3911) ∧
    (after (decodeWith Config.crc16X25
      (loaded [0x7E, 0xA0, 0x05, 0x03, 0x41, 0x31, 0x34, 0xDB, 0x7E] State.reset))).map (fun s => (s.phase, s.err)) =
      some (.error, ⟨.length, none, some 5, some 7, some 8⟩) := by
  decide +kernel

/-! ### The host's commands -/

theorem nine_fits : (9 : Nat) ≤ Config.bufCap := by unfold Config.bufCap; omega

/-- V-H-5: after LOAD the phase is IDLE, nothing is held, and N is the length. -/
theorem test_load (s : State) (h : phaseStatus s.phase ≠ .busy) :
    exec (.load frameB) s = .next (loaded frameB s) ∧ (loaded frameB s).n = 9 := by
  have hl : frameB.length ≤ Config.bufCap := nine_fits
  exact ⟨by simp only [exec, execLoad, if_neg h, if_pos hl], rfl⟩
/-- R196, R198: START, and START while BUSY. -/
theorem test_start : (after (exec .start (parserAt frameB .done 9))).map (fun s => (s.phase, s.cur, s.n)) =
      some (.flagO, 0, 9) ∧
    exec .start (parserAt frameB .src 4) = .refused (.busy "START") := ⟨rfl, rfl⟩
/-- V-H-1 and the table of R197. -/
theorem test_result : gave (exec (.result .status) State.reset) = some (.status .idle) ∧
    gave (exec (.result .n) State.reset) = some (.num 0) ∧ gave (exec (.result .errKind) State.reset) = some (.errKind .none) ∧
    exec (.result .cur) State.reset = .fault (.notReadable .cur) ∧
    gave (exec (.result (.buf 3)) (parserAt frameB .done 9)) = some (.byte 0x03) ∧
    exec (.result .fcs) (parserAt frameB .done 9) = .fault (.noValue .fcs) := ⟨rfl, rfl, rfl, rfl, rfl, rfl⟩

/-! ### Witnesses: for each statement with hypotheses, states and operands that meet them, one for each clause -/

/-- A header-only frame and a frame with a payload whose checksums are `CK` of their ranges, whatever `CK` is. -/
def hcsB : Half := Config.ck [0xA0, 0x07, 0x03, 0x41, 0x31]
/-- See `hcsB`. -/
def frameCk : List Byte := [0x7E, 0xA0, 0x07, 0x03, 0x41, 0x31] ++ (halfBytes hcsB).reverse ++ [0x7E]
/-- See `hcsB`. -/
def hcsP : Half := Config.ck [0xA0, 0x0B, 0x03, 0x41, 0x31]
/-- See `hcsB`. -/
def fcsP : Half := Config.ck ([0xA0, 0x0B, 0x03, 0x41, 0x31] ++ (halfBytes hcsP).reverse ++ [0xAA, 0xBB])
/-- See `hcsB`. -/
def frameCkP : List Byte :=
  [0x7E, 0xA0, 0x0B, 0x03, 0x41, 0x31] ++ (halfBytes hcsP).reverse ++ [0xAA, 0xBB] ++ (halfBytes fcsP).reverse ++ [0x7E]

/-- The field registers of `frameCk` at DONE. -/
def fieldsCk : Fields where
  flag := some 0x7E
  len := some 7
  seg := some 0
  fmtType := some 3
  dest := addrRegs [0x03]
  src := addrRegs [0x41]
  lsb := some 1
  pf := some 1
  recv := some 32
  send := some 0
  cls := some .rr
  hcs := some hcsB
  payload := some 0
  infoOff := none
  infoN := none
  fcs := none
  flagEnd := some 0x7E

/-- The field registers of `frameCkP` before the Length Validator. -/
def fieldsCkP : Fields :=
  { fieldsCk with len := some 11, hcs := some hcsP, payload := some 1, infoOff := some 8, infoN := some 2, fcs := some fcsP,
                  flagEnd := none }

theorem wire_toNat (v : Half) : v.toNat = (v.extractLsb' 0 8).toNat + 256 * (v.extractLsb' 8 8).toNat := by
  simp [Nat.shiftRight_eq_div_pow]
  omega

theorem ck_next_differs (r : List Byte) : Config.ck r ≠ Config.ck r + 1 := by simp

theorem oneByte_field (b : Byte) (h : astop b = 1) : addressField [b] :=
  ⟨Nat.le_refl 1, (by decide : 1 ≤ 4), fun k hk => by simp at hk, fun _ => h⟩

theorem fourBytes_field : addressField [0x00, 0x02, 0x04, 0x06] := by
  refine ⟨by decide, by decide, fun k hk => ?_, fun h => by simp at h⟩
  match k, hk with
  | 0, _ => rfl
  | 1, _ => rfl
  | 2, _ => rfl
  | k + 3, h => exact absurd h (by show ¬ k + 3 + 1 < 4; omega)

theorem witness_encoded :
    (wellFormed (.classifyRr 7 1) = true ∧ encode (.classifyRr 7 1) = some (.control, [0xF1])) ∧
    (wellFormed (.ftypeOther 0xB 7) = true ∧ encode (.ftypeOther 0xB 7) = some (.frameFormat, [0xB0, 0x07])) ∧
    (wellFormed (.classify 1 128 2) = true ∧ encode (.classify 1 128 2) = some (.classify, [0x83])) ∧
    (wellFormed .xhcs = true ∧ encode .xhcs = some (.phase, [0x06])) := by decide
theorem witness_phaseCodes : 15 ≤ (0x0F#8).toNat ∧ 15 ≤ (0xFF#8).toNat := by decide
theorem witness_stepRuns :
    ((parserAt frameB .src 4).pending = [] ∧ decode .phase (fetchBytes (parserAt frameB .src 4)) = .ok (.xaddrS, [])) ∧
    (({ parserAt frameB .src 4 with pending := [.tick, .op .start] } : State).pending = .tick :: [.op .start] ∧
      decode .phase (fetchBytes { parserAt frameB .src 4 with pending := [.tick, .op .start] }) = .ok (.xaddrS, [])) ∧
    ({ State.reset with pending := [.op .start, .tick] } : State).pending = .op .start :: [.tick] := ⟨⟨rfl, rfl⟩, ⟨rfl, rfl⟩, rfl⟩
/-- A power-on reset in the middle of a run, with a move to come after it. -/
theorem witness_powerOn :
    phaseStatus (parserAt frameB .src 4).phase = .busy ∧
    ({ parserAt frameB .src 4 with pending := [.powerOn, .op .start] } : State).pending = .powerOn :: [.op .start] := ⟨rfl, rfl⟩
theorem witness_emptyMove : ({ State.reset with pending := [.tick, .op .start] } : State).pending = .tick :: [.op .start] := rfl
theorem witness_notBusy : (phaseStatus State.reset.phase ≠ .busy ∧ State.reset.pending = [] ∧ bufferOk State.reset) ∧
    (phaseStatus (parserAt frameB .done 9).phase ≠ .busy ∧ (parserAt frameB .done 9).pending = [] ∧
      bufferOk (parserAt frameB .done 9)) ∧
    (phaseStatus (parserAt frameB .error 9).phase ≠ .busy ∧ (parserAt frameB .error 9).pending = [] ∧
      bufferOk (parserAt frameB .error 9)) :=
  ⟨⟨by decide, rfl, rfl⟩, ⟨by decide, rfl, rfl⟩, ⟨by decide, rfl, rfl⟩⟩
theorem witness_rd : bufferOk (parserAt frameB .idle 8) ∧ (parserAt frameB .idle 8).cur ≤ (parserAt frameB .idle 8).n ∧
    1 ≤ (parserAt frameB .idle 8).n - (parserAt frameB .idle 8).cur ∧
    (parserAt frameB .idle 8).n - (parserAt frameB .idle 8).cur < 2 := ⟨rfl, by decide, by decide, by decide⟩
theorem witness_raw : bufferOk (parserAt frameB .idle 9) ∧ 1 ≤ 9 ∧ 9 ≤ (parserAt frameB .idle 9).cur ∧
    (parserAt frameB .idle 9).cur ≤ (parserAt frameB .idle 9).n := ⟨rfl, by decide, by decide, by decide⟩
theorem witness_openingFlag :
    (bufferOk (parserAt [0x7E] .flagO 0) ∧ (parserAt [0x7E] .flagO 0).cur < (parserAt [0x7E] .flagO 0).n ∧
      byteAt (parserAt [0x7E] .flagO 0) 0 = 0x7E) ∧
    (bufferOk (parserAt [0x7F] .flagO 0) ∧ (parserAt [0x7F] .flagO 0).cur < (parserAt [0x7F] .flagO 0).n ∧
      byteAt (parserAt [0x7F] .flagO 0) 0 ≠ 0x7E) ∧
    (bufferOk (parserAt [] .flagO 0) ∧ (parserAt [] .flagO 0).cur = (parserAt [] .flagO 0).n) :=
  ⟨⟨rfl, by decide, rfl⟩, ⟨rfl, by decide, by decide⟩, rfl, rfl⟩
theorem witness_closingFlag :
    (bufferOk (parserAt frameB .flagC 8) ∧ (parserAt frameB .flagC 8).cur < (parserAt frameB .flagC 8).n ∧
      byteAt (parserAt frameB .flagC 8) 8 = 0x7E) ∧
    (bufferOk (parserAt frameB .flagC 7) ∧ (parserAt frameB .flagC 7).cur < (parserAt frameB .flagC 7).n ∧
      byteAt (parserAt frameB .flagC 7) 7 ≠ 0x7E) ∧
    (bufferOk (parserAt frameB .flagC 9) ∧ (parserAt frameB .flagC 9).cur = (parserAt frameB .flagC 9).n) :=
  ⟨⟨rfl, by decide, rfl⟩, ⟨rfl, by decide, by decide⟩, rfl, rfl⟩
theorem witness_twoBytes (p : Phase) :
    (bufferOk (parserAt frameB p 7) ∧ (parserAt frameB p 7).phase = p ∧ 1 ≤ (parserAt frameB p 7).cur ∧
      (parserAt frameB p 7).cur + 2 ≤ (parserAt frameB p 7).n) ∧
    (bufferOk (parserAt frameB p 8) ∧ (parserAt frameB p 8).phase = p ∧ 1 ≤ (parserAt frameB p 8).cur ∧
      (parserAt frameB p 8).cur ≤ (parserAt frameB p 8).n ∧ (parserAt frameB p 8).n < (parserAt frameB p 8).cur + 2) :=
  ⟨⟨rfl, rfl, (by decide : 1 ≤ 7), (by decide : 7 + 2 ≤ 9)⟩, rfl, rfl, (by decide : 1 ≤ 8), (by decide : 8 ≤ 9),
    (by decide : 9 < 8 + 2)⟩
theorem witness_address (p : Phase) :
    (addressField [0x00, 0x02, 0x04, 0x06] ∧ bufferOk (parserAt [0x7E, 0x00, 0x02, 0x04, 0x06] p 1) ∧
      (parserAt [0x7E, 0x00, 0x02, 0x04, 0x06] p 1).cur + 4 ≤ (parserAt [0x7E, 0x00, 0x02, 0x04, 0x06] p 1).n ∧
      slice (parserAt [0x7E, 0x00, 0x02, 0x04, 0x06] p 1) 1 4 = [0x00, 0x02, 0x04, 0x06]) ∧
    (addressField [0x03] ∧ bufferOk (parserAt frameB p 3) ∧ (parserAt frameB p 3).cur + 1 ≤ (parserAt frameB p 3).n ∧
      slice (parserAt frameB p 3) 3 1 = [0x03]) ∧
    (bufferOk (parserAt [0x00, 0x02, 0x04] p 0) ∧
      (parserAt [0x00, 0x02, 0x04] p 0).n < (parserAt [0x00, 0x02, 0x04] p 0).cur + 4 ∧
      ∀ k, 0 ≤ k → k < (parserAt [0x00, 0x02, 0x04] p 0).n → astop (byteAt (parserAt [0x00, 0x02, 0x04] p 0) k) = 0) := by
  refine ⟨⟨fourBytes_field, rfl, Nat.le_refl 5, rfl⟩, ⟨oneByte_field _ rfl, rfl, (by decide : 4 ≤ 9), rfl⟩, rfl,
    (by decide : 3 < 4), fun k _ hk => ?_⟩
  have h : ∀ k, k < 3 → astop ([0x00, 0x02, 0x04].getD k 0#8) = 0 := by decide
  exact h k hk
theorem witness_control : (bufferOk (parserAt frameB .ctrl 5) ∧
      (parserAt frameB .ctrl 5).cur < (parserAt frameB .ctrl 5).n ∧ 0x31 = (byteAt (parserAt frameB .ctrl 5) 5).toNat) ∧
    (bufferOk (parserAt frameB .ctrl 9) ∧ (parserAt frameB .ctrl 9).cur = (parserAt frameB .ctrl 9).n) :=
  ⟨⟨rfl, by decide, rfl⟩, rfl, rfl⟩
theorem witness_headerChecksum :
    (hcsB.toNat = (byteAt (parserAt frameCk .hcs 6) 6).toNat + 256 * (byteAt (parserAt frameCk .hcs 6) 7).toNat ∧
      Config.ck (slice (parserAt frameCk .hcs 6) 1 5) = hcsB) ∧
    (0xE242 = (byteAt (parserAt frameB .hcs 6) 6).toNat + 256 * (byteAt (parserAt frameB .hcs 6) 7).toNat ∧
      0xE342 = (byteAt (parserAt (frameB.take 7 ++ [0xE3, 0x7E]) .hcs 6) 6).toNat +
        256 * (byteAt (parserAt (frameB.take 7 ++ [0xE3, 0x7E]) .hcs 6) 7).toNat ∧
      (Config.ck (slice (parserAt frameB .hcs 6) 1 5) ≠ 0xE242 ∨
        Config.ck (slice (parserAt (frameB.take 7 ++ [0xE3, 0x7E]) .hcs 6) 1 5) ≠ 0xE342)) := by
  refine ⟨⟨wire_toNat hcsB, rfl⟩, rfl, rfl, ?_⟩
  by_cases h : Config.ck [0xA0, 0x07, 0x03, 0x41, 0x31] = 0xE242
  · exact .inr (by show Config.ck [0xA0, 0x07, 0x03, 0x41, 0x31] ≠ 0xE342; rw [h]; decide)
  · exact .inl h
theorem witness_frameChecksum :
    (fcsP.toNat = (byteAt (parserAt frameCkP .fcs 10) 10).toNat + 256 * (byteAt (parserAt frameCkP .fcs 10) 11).toNat ∧
      Config.ck (slice (parserAt frameCkP .fcs 10) 1 9) = fcsP) ∧
    (Config.ck (slice (parserAt frameB .fcs 6) 1 5) ≠ 0xE242 ∨
      Config.ck (slice (parserAt (frameB.take 7 ++ [0xE3, 0x7E]) .fcs 6) 1 5) ≠ 0xE342) :=
  ⟨⟨wire_toNat fcsP, rfl⟩, witness_headerChecksum.2.2.2⟩
theorem witness_information :
    (bufferOk (parserAt frameA .info 8 { Fields.empty with infoN := some 11 }) ∧
      (parserAt frameA .info 8 { Fields.empty with infoN := some 11 }).cur + 11 ≤ (parserAt frameA .info 8).n) ∧
    (bufferOk (parserAt frameA .info 8 { Fields.empty with infoN := some 12 }) ∧
      (parserAt frameA .info 8 { Fields.empty with infoN := some 12 }).cur ≤ (parserAt frameA .info 8).n ∧
      (parserAt frameA .info 8).n < (parserAt frameA .info 8).cur + 12) :=
  ⟨⟨rfl, by decide⟩, rfl, by decide, by decide⟩
theorem witness_payloadTest : (7#11).toNat = 7 ∧ 7 + 2 ≤ (9#11).toNat ∧ (6#11).toNat < 7 ∧ (8#11).toNat = 7 + 1 ∧
    (parserAt [] .ilen 8 { Fields.empty with len := some 9 }).cur = 7 + 1 := by decide
theorem witness_lengthValidator : 1 ≤ (parserAt [] .vlen 18 { Fields.empty with len := some 17 }).cur ∧
    (17#11).toNat = (parserAt [] .vlen 18).cur - 1 ∧ (18#11).toNat ≠ (parserAt [] .vlen 18).cur - 1 := by decide
theorem witness_lowByteFirst :
    (bufferOk (parserAt frameCk .hcs 6) ∧ ∃ t, exec .xhcs (parserAt frameCk .hcs 6) = .next t ∧ t.phase ≠ .error) ∧
    (bufferOk (parserAt frameCkP .fcs 10) ∧ ∃ t, exec .xfcs (parserAt frameCkP .fcs 10) = .next t ∧ t.phase ≠ .error) := by
  have h := ((readCheck_eq (s := parserAt frameCk .hcs 6) rfl (by decide) .hcs).1 (by decide) hcsB (wire_toNat hcsB)).1 rfl
  have g := ((readCheck_eq (s := parserAt frameCkP .fcs 10) rfl (by decide) .fcs).1 (by decide) fcsP (wire_toNat fcsP)).1 rfl
  constructor
  · refine ⟨rfl, parserAt frameCk .ilen 8 { Fields.empty with hcs := some hcsB }, ?_, by decide⟩
    show finish ((readCheck Config.ck .hcs (parserAt frameCk .hcs 6)).bind _) _ = _
    rw [h]; rfl
  · refine ⟨rfl, parserAt frameCkP .vlen 12 { Fields.empty with fcs := some fcsP }, ?_, by decide⟩
    show finish ((readCheck Config.ck .fcs (parserAt frameCkP .fcs 10)).bind _) _ = _
    rw [g]; rfl
theorem witness_comparison : (∃ v, Config.ck [] = v) ∧ Config.ck [] ≠ Config.ck [] + 1 := ⟨⟨_, rfl⟩, ck_next_differs []⟩
theorem witness_ftypeOther : (0x9#4 ≠ 0xA#4) ∧ (0xB#4 ≠ 0xA#4) := by decide
/-- The hypothesis on the row NONE of ClassifierRowsGiveTheirClass, at a neighbour of each row. -/
theorem witness_classNone (k r : BitVec 3) (h : (k, r) ∈ [(0b100#3, 0b000#3), (0b001#3, 0b001#3), (0b111#3, 0b001#3),
      (0b011#3, 0b000#3)]) :
    k ≠ 0b010 ∧ k ≠ 0b000 ∧ (k = 0b001 → r ≠ 0b100 ∧ r ≠ 0b010 ∧ r ≠ 0b011 ∧ r ≠ 0b000) ∧ (k = 0b111 → r ≠ 0b000) ∧
      (k = 0b011 → r ≠ 0b100) := by
  revert k r
  decide
theorem witness_assembler : (parserAt frameB .asm 9).phase = .asm := rfl
theorem witness_load : phaseStatus (parserAt frameB .error 9).phase ≠ .busy ∧ frameB.length ≤ Config.bufCap ∧
    (List.replicate 2049 0#8).length ≤ Config.bufCap ∧
    Config.bufCap < (List.replicate (Config.bufCap + 1) 0#8).length := by
  refine ⟨by decide, nine_fits, ?_, ?_⟩
  · rw [List.length_replicate]
    unfold Config.bufCap
    omega
  · rw [List.length_replicate]
    omega
theorem witness_busy : phaseStatus (parserAt frameB .flagO 0).phase = .busy ∧
    phaseStatus (parserAt frameB .asm 9).phase = .busy := by decide
theorem witness_resultGives :
    regValue (parserAt frameB .src 4) .status = some (.status .busy) ∧
    regValue (parserAt frameB .error 9) .n = some (.num 9) ∧ regValue State.reset .errKind = some (.errKind .none) ∧
    regValue (parserAt frameCk .done 9 fieldsCk) .cur = some (.num 9) ∧
    regValue (parserAt frameCk .done 9 fieldsCk) .len = some (.len 7) ∧ Reg.len ∈ fieldRegs ∧
    regValue (parserAt frameCk .done 9 fieldsCk) (.buf 8) = some (.byte 0x7E) ∧
    regValue (raise (.checksum .hcs 1 2 6) State.reset) .errExpected = some (.num 1) ∧
    regValue (raise (.checksum .hcs 1 2 6) State.reset) .errActual = some (.num 2) ∧
    regValue (raise (.checksum .hcs 1 2 6) State.reset) .errPos = some (.num 6) ∧
    regValue (raise (.checksum .hcs 1 2 6) State.reset) .errCk = some (.ckKind .hcs) ∧
    (raise (.checksum .hcs 1 2 6) State.reset).err.kind = .checksum :=
  ⟨rfl, rfl, rfl, rfl, rfl, by decide, rfl, rfl, rfl, rfl, rfl, rfl⟩
theorem witness_resultHides :
    phaseStatus (parserAt frameB .src 4).phase = .busy ∧ Reg.flag ≠ Reg.status ∧
    phaseStatus (parserAt frameB .error 9).phase ≠ .done ∧ Reg.flag ∈ fieldRegs ∧
    phaseStatus (parserAt frameB .done 9).phase ≠ .error ∧ Reg.errPos ∈ contextRegs ∧
    phaseStatus (parserAt frameCk .done 9 fieldsCk).phase = .done ∧ Reg.fcs ∈ fieldRegs ∧
    regValue (parserAt frameCk .done 9 fieldsCk) .fcs = none ∧
    phaseStatus (raise (.length 5 7 8) State.reset).phase = .error ∧
    (raise (.length 5 7 8) State.reset).err.kind ≠ .checksum ∧
    (parserAt frameCk .done 9 fieldsCk).n = 9 ∧
    phaseStatus (parserAt frameB .error 9).phase = .error ∧ regValue (parserAt frameB .error 9) .errPos = none :=
  ⟨rfl, by decide, by decide, by decide, by decide, by decide, rfl, by decide, rfl, rfl, by decide, rfl, rfl, rfl⟩
/-- The clause on ERR.CK without a value needs a ChecksumError that has lost its kind, which no run reaches. -/
theorem witness_resultHides_errCk :
    phaseStatus (parserAt frameB .error 9).phase = .error ∧ Reg.errCk ∈ contextRegs ∧
    ({ parserAt frameB .error 9 with err := ⟨.checksum, none, none, none, none⟩ } : State).err.kind = .checksum ∧
    regValue { parserAt frameB .error 9 with err := ⟨.checksum, none, none, none, none⟩ } .errCk = none :=
  ⟨rfl, by decide, rfl, rfl⟩
/-- Two address bytes of four and every other register hold a value here; the other two hold one in `test_xaddrD`. -/
theorem witness_registerNames (f : Fields) (h : f = { fieldsCkP with flagEnd := some 0x7E }) :
    f.flag = some 0x7E ∧ f.len = some 11 ∧ f.seg = some 0 ∧ f.fmtType = some 3 ∧ f.dest.b0 = some 0x03 ∧ f.dest.n = some 1 ∧
    f.src.b0 = some 0x41 ∧ f.src.n = some 1 ∧ f.lsb = some 1 ∧ f.pf = some 1 ∧ f.recv = some 32 ∧ f.send = some 0 ∧
    f.cls = some .rr ∧ f.hcs = some hcsP ∧ f.payload = some 1 ∧ f.infoOff = some 8 ∧ f.infoN = some 2 ∧
    f.fcs = some fcsP ∧ f.flagEnd = some 0x7E ∧
    (addrRegs [0x00, 0x02, 0x04, 0x06]).b1 = some 0x02 ∧ (addrRegs [0x00, 0x02, 0x04, 0x06]).b2 = some 0x04 ∧
    (addrRegs [0x00, 0x02, 0x04, 0x06]).b3 = some 0x06 ∧ bufferOk (parserAt frameCkP .done 13) ∧
    12 < (parserAt frameCkP .done 13).n := by
  subst h
  exact ⟨rfl, rfl, rfl, rfl, rfl, rfl, rfl, rfl, rfl, rfl, rfl, rfl, rfl, rfl, rfl, rfl, rfl, rfl, rfl, rfl, rfl, rfl, rfl,
    by decide⟩
theorem witness_errorNames : (raise (.checksum .fcs 1 2 6) State.reset).err.ck = some .fcs ∧
    (raise (.checksum .fcs 1 2 6) State.reset).err.expected = some 1 ∧
    (raise (.checksum .fcs 1 2 6) State.reset).err.actual = some 2 ∧
    (raise (.checksum .fcs 1 2 6) State.reset).err.pos = some 6 := ⟨rfl, rfl, rfl, rfl⟩
theorem witness_wholeCallAccepts :
    (addressField [0x03] ∧ addressField [0x41] ∧ (0 : Half) = Config.ckZero (halfBytes 0xA007 ++ [0x03] ++ [0x41] ++ [0x31]) ∧
      (0xA007#16).toNat % 2048 + 2 = (frameBytes 0xA007 [0x03] [0x41] 0x31 0 none).length) ∧
    (addressField [0x00, 0x02, 0x04, 0x06] ∧
      (0 : Half) = Config.ckZero (halfBytes 0xA00E ++ [0x00, 0x02, 0x04, 0x06] ++ [0x41] ++ [0x31] ++ (halfBytes 0).reverse ++
        [0xAA, 0xBB]) ∧
      (0xA00E#16).toNat % 2048 + 2 =
        (frameBytes 0xA00E [0x00, 0x02, 0x04, 0x06] [0x41] 0x31 0 (some ([0xAA, 0xBB], 0))).length) :=
  ⟨⟨oneByte_field _ rfl, oneByte_field _ rfl, rfl, rfl⟩, fourBytes_field, rfl, rfl⟩
theorem witness_wholeCallFailsClosed : decodeCall Config.ckZero [0x7E, 0xA0, 0x07, 0x03, 0x41, 0x31, 0, 0, 0x7E] =
    .ok ⟨0x7E, 7, 0, 3, [0x03], [0x41], ⟨1, .rr, 32, 0, 1⟩, 0, none, none, 0x7E⟩ := by decide +kernel

/-- `frameCk` is accepted whatever `CK` is. -/
theorem witness_successfulRun :
    bufferOk (loaded frameCk State.reset) ∧ (loaded frameCk State.reset).pending = [] ∧
    decodeCall Config.ck (buffer (loaded frameCk State.reset)) =
      .ok ⟨0x7E, 7, 0, 3, [0x03], [0x41], ⟨1, .rr, 32, 0, 1⟩, hcsB, none, none, 0x7E⟩ := by
  refine ⟨rfl, rfl, ?_⟩
  have h : callCheck Config.ck .hcs frameCk 6 = .ok (hcsB, 8) := by
    have hs : swap16 (be16Seq (halfBytes hcsB).reverse) = hcsB := swap16_of_wire hcsB
    show (if Config.ck [0xA0, 0x07, 0x03, 0x41, 0x31] ≠ swap16 (be16Seq (halfBytes hcsB).reverse) then _
      else Except.ok (swap16 (be16Seq (halfBytes hcsB).reverse), 8)) = _
    rw [hs]
    exact if_neg (not_not.2 rfl)
  have hd : decodeRun Config.ck frameCk = (callCheck Config.ck .hcs frameCk 6).bind (fun (hcs, cur) =>
      (callPayload Config.ck frameCk 7 cur).bind (fun (info, fcs, cur) =>
        (callFlag frameCk cur).bind (fun (flagEnd, cur) =>
          .ok (⟨0x7E, 7, 0, 3, [0x03], [0x41], ⟨1, .rr, 32, 0, 1⟩, hcs, info, fcs, flagEnd⟩, cur)))) := rfl
  show decodeCall Config.ck frameCk = _
  unfold decodeCall
  rw [hd, h]
  rfl
theorem witness_outcomeDepends :
    (parserAt frameB .done 9 fieldsCk).mem = (parserAt frameB .error 2).mem ∧
    (∃ t, exec .decode (parserAt frameB .done 9 fieldsCk) = .next t) ∧
    ∃ t, exec .decode (parserAt frameB .error 2) = .next t := ⟨rfl, ⟨_, rfl⟩, _, rfl⟩
theorem witness_outOfPhase : ownPhase .vlen = some .vlen ∧ (parserAt frameB .done 9).phase ≠ .vlen ∧
    (parserAt frameB .error 9).phase ≠ .vlen := by decide
theorem witness_functions : isFunction (.classifyNone 0 0 0b100) = true ∧
    exec (.classifyNone 0 0 0b100) State.reset = .next { State.reset with ret := some (.cls .none) } ∧
    isFunction (.be16 1 0) = true ∧ exec (.be16 1 0) State.reset = .next { State.reset with ret := some (.half 256) } :=
  ⟨rfl, rfl, rfl, rfl⟩
/-- A phase operation that goes on and one that takes its error, for each error of PhaseOperationRaisesOnlyItsErrors. -/
theorem witness_phaseOps :
    (after (exec .xflagO (parserAt frameB .flagO 0))).map State.phase = some .ffmt ∧
    (after (exec .xflagO (parserAt [0x00] .flagO 0))).map State.phase = some .error ∧
    (after (exec .xflagC (parserAt frameB .flagC 9))).map State.phase = some .error ∧
    (after (exec .xffmt (parserAt frameB .ffmt 8))).map State.phase = some .error ∧
    (after (exec .xaddrD (parserAt frameB .dest 9))).map State.phase = some .error ∧
    (after (exec .xaddrS (parserAt frameB .src 9))).map State.phase = some .error ∧
    (after (exec .xctrl (parserAt frameB .ctrl 9))).map State.phase = some .error ∧
    (after (exec .xhcs (parserAt frameB .hcs 8))).map State.phase = some .error ∧
    (after (exec .xfcs (parserAt frameB .fcs 8))).map State.phase = some .error ∧
    (after (exec .xinfo (parserAt frameB .info 8 fieldsCkP))).map State.phase = some .error ∧
    (after (exec .ilen (parserAt frameB .ilen 9 fieldsCk))).map State.phase = some .error ∧
    (after (exec .vlen (parserAt frameB .vlen 9 fieldsCk))).map State.phase = some .error ∧
    (after (exec .asm (parserAt frameB .asm 9))).map State.phase = some .done :=
  ⟨rfl, rfl, rfl, rfl, rfl, rfl, rfl, rfl, rfl, rfl, rfl, rfl, rfl⟩
/-- Each operation of ReaderComparisonAndResultFrame answers a next state. -/
theorem witness_readerFrame :
    (∃ t, exec (.rd 2) (parserAt frameB .idle 7) = .next t) ∧ (∃ t, exec (.rd 2) (parserAt frameB .idle 8) = .next t) ∧
    (∃ t, exec .cnt (parserAt frameB .idle 7) = .next t) ∧ (∃ t, exec (.raw 0 7) (parserAt frameB .idle 7) = .next t) ∧
    (∃ t, exec (.vchkH (Config.ck []) [] 0) (parserAt frameB .idle 7) = .next t) ∧
    (∃ t, exec (.vchkF (Config.ck []) [] 0) (parserAt frameB .idle 7) = .next t) ∧
    ∃ t, exec (.result .status) (parserAt frameB .idle 7) = .next t := by
  refine ⟨⟨_, rfl⟩, ⟨_, rfl⟩, ⟨_, rfl⟩, ⟨_, rfl⟩, ⟨parserAt frameB .idle 7, ?_⟩, ⟨parserAt frameB .idle 7, ?_⟩, _, rfl⟩ <;>
    simp [exec, execVchkH, execVchkF, vchkWith, checkSum]
theorem witness_notLoad : (∀ bytes, Instr.start ≠ .load bytes) ∧ exec .start State.reset = .next (started State.reset) ∧
    (∀ bytes, Instr.cnt ≠ .load bytes) ∧ Instr.cnt ≠ .start ∧ Instr.cnt ≠ .decode ∧
    exec .cnt State.reset = .next { State.reset with ret := some (.num 0) } :=
  ⟨by simp, rfl, by simp, by simp, by simp, rfl⟩

theorem addrRegs_empty_ok : addrRegsOk AddrRegs.empty := .inl rfl

/-- A run that has just started. -/
theorem witness_runStarted : RunInv (started (loaded frameB State.reset)) ∧
    phaseStatus (started (loaded frameB State.reset)).phase = .busy ∧
    (started (loaded frameB State.reset)).pending = [] ∧
    step (started (loaded frameB State.reset)) = exec .xflagO (started (loaded frameB State.reset)) ∧
    ∃ t, exec .xflagO (started (loaded frameB State.reset)) = .next t := by
  refine ⟨⟨⟨rfl, nine_fits, by decide, by decide, ⟨rfl, rfl, rfl, rfl⟩, ?_, ?_⟩, rfl, rfl, ?_⟩, rfl, rfl, rfl, _, rfl⟩
  · constructor <;> decide
  · constructor <;> simp [Fields.empty, addrRegs_empty_ok]
  · constructor <;> simp [Fields.empty]

/-- A run at the Length Validator. -/
theorem witness_runAtVlen : RunInv (parserAt frameCkP .vlen 12 fieldsCkP) ∧
    (parserAt frameCkP .vlen 12 fieldsCkP).phase = .vlen := by
  have hc : (13 : Nat) ≤ Config.bufCap := by unfold Config.bufCap; omega
  refine ⟨⟨⟨rfl, hc, (by decide : 12 ≤ 13), ?_, ⟨rfl, rfl, rfl, rfl⟩, ?_, ?_⟩, rfl, ?_, ?_⟩, rfl⟩
  · exact ⟨fun h => absurd rfl h, fun h => by cases h⟩
  · constructor <;> first | rfl | exact fun _ => rfl
  · constructor
    case dest => exact .inr ⟨[0x03], by decide, by decide, rfl⟩
    case src => exact .inr ⟨[0x41], by decide, by decide, rfl⟩
    all_goals simp [parserAt, fieldsCkP, fieldsCk, Config.flagByte]
    rintro _ _ _ _ rfl rfl rfl rfl
    decide
  · intro len h
    cases h
    rfl
  · constructor
    · intro len h
      cases h
    · intro len k _ h1 h2
      cases h1
      cases h2
      rfl
    · intro off h
      cases h
      rfl
    · intro v h
      cases h
      rfl
    · intro v len h1 h2
      cases h1
      cases h2
      rfl

/-- A run that has ended in DONE. -/
theorem witness_runDone : RunInv (parserAt frameCk .done 9 fieldsCk) ∧ (parserAt frameCk .done 9 fieldsCk).phase = .done := by
  refine ⟨⟨⟨rfl, nine_fits, (by decide : 9 ≤ 9), ?_, ⟨rfl, rfl, rfl, rfl⟩, ?_, ?_⟩, rfl, ?_, ?_⟩, rfl⟩
  · exact ⟨fun h => absurd rfl h, fun h => by cases h⟩
  · constructor <;> first | rfl | exact fun _ => rfl | simp [parserAt]
  · constructor
    case dest => exact .inr ⟨[0x03], by decide, by decide, rfl⟩
    case src => exact .inr ⟨[0x41], by decide, by decide, rfl⟩
    all_goals simp [parserAt, fieldsCk, Config.flagByte]
    rintro _ _ _ _ rfl rfl rfl rfl
    decide
  · intro len h
    cases h
    rfl
  · constructor
    · intro len _ h
      cases h
      rfl
    · intro len k h
      cases h
    · intro off h
      cases h
    · intro v h
      cases h
      rfl
    · intro v len h
      cases h

end Sys2Proof.Tests
end

/-! ### The encoder and the decoder (10_state.md R14, 30_encoding.md R62, R64, R70) -/

namespace Sys2Proof.Machine

/-- Any bytes after the encoding of `i` are left over when it is decoded at its place. -/
def Decodes (i : Instr) : Prop :=
  ∀ (pl : Place) (bs rest : List Byte), encode i = some (pl, bs) → decode pl (bs ++ rest) = .ok (i, rest)

/-- An operation with one encoding, and what the decoder answers on it. -/
theorem decodes_of_encode {i : Instr} {pl : Place} {bs : List Byte} (he : encode i = some (pl, bs))
    (hd : ∀ rest, decode pl (bs ++ rest) = .ok (i, rest)) : Decodes i := by
  intro pl' bs' rest h
  cases he.symm.trans h
  exact hd rest

/-- An operation that the table gives no bits (D22). -/
theorem decodes_of_encode_none {i : Instr} (he : encode i = none) : Decodes i := by
  intro pl bs rest h
  cases he.symm.trans h

/-- A phase operation is the one that its phase's code names (R14). -/
theorem decodes_of_ownPhase {i : Instr} {p : Phase} (hp : ownPhase i = some p) : Decodes i := by
  cases i <;> simp only [ownPhase, Option.some.injEq, reduceCtorEq] at hp <;> subst hp <;>
    exact decodes_of_encode rfl fun _ => rfl

/-- The decoder reads a 16-bit word back from its two bytes (R42). -/
@[simp] theorem decodeHalf_halfBytes (f : Half → Instr) (w : Half) (rest : List Byte) :
    decodeHalf f (halfBytes w ++ rest) = .ok (f w, rest) := by
  simp [halfBytes, decodeHalf, be16_of_halves]

/-- The operands of `BE16` are the octets of the word that its place reads (R121). -/
theorem be16_octets (b0 b1 : Byte) : (be16 b0 b1).extractLsb' 8 8 = b0 ∧ (be16 b0 b1).extractLsb' 0 8 = b1 := by
  have h0 := b0.isLt
  have h1 := b1.isLt
  constructor <;> apply BitVec.eq_of_toNat_eq <;>
    simp only [BitVec.extractLsb'_toNat, be16_toNat, Nat.shiftRight_eq_div_pow] <;> omega

/-- A frame-format word of nibble 0xA is of the row `FTYPE.A` (R125). -/
theorem decodeFormat_typeA (x : BitVec 12) : decodeFormat (formatWord 0xA#4 x) = .ftypeA x := by
  simp [decodeFormat, formatWord_high, formatWord_low]

/-- A frame-format word of any other nibble is of the row `FTYPE.OTHER` (R125). -/
theorem decodeFormat_typeOther {t : BitVec 4} (ht : t ≠ 0xA#4) (x : BitVec 12) :
    decodeFormat (formatWord t x) = .ftypeOther t x := by
  simp [decodeFormat, formatWord_high, formatWord_low, ht]

/-- The fields receive, poll/final and send of a control byte (R64). -/
theorem ctrlByte_fields : ∀ (r : BitVec 3) (p : BitVec 1) (s : BitVec 3) (l : BitVec 1),
    (ctrlByte r p s l).extractLsb' 5 3 = r ∧ (ctrlByte r p s l).extractLsb' 4 1 = p ∧
      (ctrlByte r p s l).extractLsb' 1 3 = s := by decide

/-- The row of a control byte given by its fields: the table's class, and the bits that the row leaves free (R70). -/
def controlRow (cls : FrameClass) (r : BitVec 3) (p : BitVec 1) (s : BitVec 3) : Instr :=
  match cls with
  | .i => .classifyI r p s
  | .snrm => .classifySnrm p
  | .disc => .classifyDisc p
  | .ua => .classifyUa p
  | .dm => .classifyDm p
  | .frmr => .classifyFrmr p
  | .ui => .classifyUi p
  | .rnr => .classifyRnr r p
  | .rr => .classifyRr r p
  | .none => .classifyNone r p s

/-- The decoder finds the row of a control byte by its class alone (R70). -/
theorem decodeControl_ctrlByte {cls : FrameClass} {r : BitVec 3} {p : BitVec 1} {s : BitVec 3} {l : BitVec 1}
    (h : classByTable (ctrlByte r p s l) = cls) : decodeControl (ctrlByte r p s l) = controlRow cls r p s := by
  obtain ⟨hr, hp, hs⟩ := ctrlByte_fields r p s l
  subst h
  simp only [decodeControl, hr, hp, hs]
  rfl

/-- A classifier row whose control byte has the row's class decodes to itself (R70). -/
theorem decodes_of_class {i : Instr} {cls : FrameClass} {r : BitVec 3} {p : BitVec 1} {s : BitVec 3} {l : BitVec 1}
    (he : encode i = some (.control, [ctrlByte r p s l])) (hc : classByTable (ctrlByte r p s l) = cls)
    (hi : controlRow cls r p s = i) : Decodes i :=
  decodes_of_encode he fun rest => by
    show Except.ok (decodeControl (ctrlByte r p s l), rest) = _
    rw [decodeControl_ctrlByte hc, hi]

/-- A `CLASSIFY` on the three values of a control byte decodes to itself (R140). -/
theorem classify_decodes (l r s : Nat) : Decodes (.classify l r s) := by
  intro pl bs rest h
  obtain ⟨c, hc, hb⟩ := Option.map_eq_some_iff.1 (show (tripleByte l r s).map _ = _ from h)
  cases hb
  obtain ⟨⟨hl, hr, hs⟩, hc⟩ := (Option.ite_none_right_eq_some ..).1 hc
  cases hc
  show Except.ok (Instr.classify _ _ _, rest) = _
  rw [hl, hr, hs]

/-- Settles O1, by the place of each operation: a phase code, an operand word, a frame-format word or a control byte. -/
theorem encodedOperationDecodesToItself : Obligations.EncodedOperationDecodesToItself := by
  suffices key : ∀ i, wellFormed i = true → Decodes i from fun i pl bs rest hw => key i hw pl bs rest
  intro i hw
  cases i
  case xflagO | xffmt | xaddrD | xaddrS | xctrl | xhcs | xinfo | xfcs | xflagC | vlen | ilen | asm =>
    exact decodes_of_ownPhase rfl
  case rd | cnt | raw | cksum | vchkH | vchkF | decode | load | start | result => exact decodes_of_encode_none rfl
  case astop | clsb | cpf | crecv | csend => exact decodes_of_encode rfl fun _ => rfl
  case swap16 | flen | fseg | ftype => exact decodes_of_encode rfl (decodeHalf_halfBytes _ _)
  case be16 b0 b1 =>
    refine decodes_of_encode rfl fun rest => ?_
    show Except.ok (Instr.be16 ((be16 b0 b1).extractLsb' 8 8) ((be16 b0 b1).extractLsb' 0 8), rest) = _
    rw [(be16_octets b0 b1).1, (be16_octets b0 b1).2]
  case ftypeA x =>
    refine decodes_of_encode rfl fun rest => ?_
    rw [← decodeFormat_typeA x]
    exact decodeHalf_halfBytes decodeFormat _ rest
  case ftypeOther t x =>
    refine decodes_of_encode rfl fun rest => ?_
    rw [← decodeFormat_typeOther (bne_iff_ne.1 hw) x]
    exact decodeHalf_halfBytes decodeFormat _ rest
  case classify l r s => exact classify_decodes l r s
  case classifyNone r p s => exact decodes_of_class rfl (beq_iff_eq.1 hw) rfl
  case classifyI => exact decodes_of_class (cls := .i) rfl (by decide +revert) rfl
  case classifySnrm => exact decodes_of_class (cls := .snrm) rfl (by decide +revert) rfl
  case classifyDisc => exact decodes_of_class (cls := .disc) rfl (by decide +revert) rfl
  case classifyUa => exact decodes_of_class (cls := .ua) rfl (by decide +revert) rfl
  case classifyDm => exact decodes_of_class (cls := .dm) rfl (by decide +revert) rfl
  case classifyFrmr => exact decodes_of_class (cls := .frmr) rfl (by decide +revert) rfl
  case classifyUi => exact decodes_of_class (cls := .ui) rfl (by decide +revert) rfl
  case classifyRnr => exact decodes_of_class (cls := .rnr) rfl (by decide +revert) rfl
  case classifyRr => exact decodes_of_class (cls := .rr) rfl (by decide +revert) rfl

/-- Settles O2, by running the decoder on each word. -/
theorem specWordsDecodeAsWritten : Obligations.SpecWordsDecodeAsWritten :=
  ⟨rfl, rfl, rfl, rfl, rfl, rfl, rfl, rfl, rfl⟩

/-- A byte of 16 or more is no phase code (log 6). -/
theorem decode_phase_high {b : Byte} (hb : 16 ≤ b.toNat) : decode .phase [b] = .error .noSuchPhase := by
  have hx : b.extractLsb' 4 4 ≠ 0#4 := fun h => by
    have := congrArg BitVec.toNat h
    simp only [BitVec.extractLsb'_toNat, Nat.shiftRight_eq_div_pow, BitVec.toNat_ofNat] at this
    omega
  simp [decode, decodeByte, hx, Except.map]

/-- Settles O3: the sixteen codes by running the decoder, the larger bytes by their high bits. -/
theorem phaseCodesNameTheirOperation : Obligations.PhaseCodesNameTheirOperation := by
  refine ⟨by decide, rfl, rfl, rfl, fun b hb => ?_⟩
  obtain hb | hb := Nat.lt_or_eq_of_le hb
  · exact decode_phase_high hb
  · cases BitVec.eq_of_toNat_eq (y := 15#8) hb.symm
    rfl

end Sys2Proof.Machine

/-! ### What any operation can have done -/

namespace Sys2Proof.Machine

/-- The next states that operation `i` can answer from `s`. Only `LOAD` has another buffer (20_memory.md R52); the cursor
moves by reads alone (40_frame_reader.md R94) or begins anew. -/
inductive ExecEnd (s : State) : Instr → State → Prop
  /-- a value is given back and nothing else is written -/
  | gives (i : Instr) (v : Value) : ExecEnd s i (s.returns v)
  /-- `RD` moved the cursor and gives back the bytes (R91) -/
  | reads (count : Nat) (u : State) (v : Value) (hu : Moved s u) : ExecEnd s (.rd count) (u.returns v)
  /-- a checksum comparison passed (R162) -/
  | passes (i : Instr) : ExecEnd s i s
  /-- an error was taken, after reads that may have moved the cursor (60_exceptions.md R213) -/
  | raises (i : Instr) (u : State) (e : DecodeError) (hu : Moved s u) : ExecEnd s i (raise e u)
  /-- a phase operation succeeded in its phase (R110, R181) -/
  | phases (i : Instr) (c : Nat) (q : Phase) (g : Fields) (hp : ownPhase i = some s.phase)
      (hu : Moved s (s.setCur c)) (he : OpEffect i s c q g) : ExecEnd s i (((s.setCur c).setF g).setPhase q)
  /-- the whole call ran on the bytes below `N` (R192) -/
  | calls (buf : List Byte) (hb : memRead 0 s.n s = .ok buf) : ExecEnd s .decode (callState (decodeRun Config.ck buf) s)
  /-- a frame was loaded (R195) -/
  | loads (bytes : List Byte) (hl : bytes.length ≤ Config.bufCap) : ExecEnd s (.load bytes) (loaded bytes s)
  /-- a run was started (R196) -/
  | starts : ExecEnd s .start (started s)

theorem setCur_moved {s : State} {c : Nat} (h : s.cur ≤ c) (hn : s.cur ≤ s.n → c ≤ s.n) : Moved s (s.setCur c) :=
  ⟨c, h, hn, rfl⟩

/-- An operation that gives back a value. -/
theorem execEnd_of_returns {i : Instr} {s t : State} {v : Value}
    (h : (.next (s.returns v) : Host.Outcome State Fault Refusal) = .next t) : ExecEnd s i t := by
  cases h
  exact .gives i v

/-- A classifier row (R142 to R151). -/
theorem classRow_end {i : Instr} {cls : FrameClass} {mn : String} {c : Byte} {s t : State}
    (h : classRow cls mn c s = .next t) : ExecEnd s i t := by
  unfold classRow at h
  split at h
  · exact execEnd_of_returns h
  · cases h

/-- `FTYPE.OTHER` (R125). -/
theorem execFtypeOther_end {i : Instr} {y : BitVec 4} {x : BitVec 12} {s t : State}
    (h : execFtypeOther y x s = .next t) : ExecEnd s i t := by
  unfold execFtypeOther at h
  split at h
  · cases h
  · exact execEnd_of_returns h

/-- A checksum comparison on its own (R162). -/
theorem vchkWith_end {i : Instr} {ck : List Byte → Half} {kind : CkKind} {e : Half} {range : List Byte} {pos : Nat}
    {s t : State} (h : vchkWith ck kind e range pos s = .next t) : ExecEnd s i t := by
  unfold vchkWith at h
  split at h <;> cases h
  · exact .raises i s _ (moved_refl s)
  · exact .passes i

/-- `RESULT` (R197). -/
theorem execResult_end {i : Instr} {r : Reg} {s t : State} (h : execResult r s = .next t) : ExecEnd s i t := by
  unfold execResult at h
  split at h
  · split at h
    · exact execEnd_of_returns h
    · cases h
  · cases h

/-- `RD` (R91). -/
theorem execRd_end {count : Nat} {s t : State} (h : execRd count s = .next t) : ExecEnd s (.rd count) t := by
  have hm := rd_moved count s
  obtain ⟨bs, u, hr, rfl⟩ | ⟨e, u, hr, rfl⟩ := finish_next h <;> rw [hr] at hm
  · exact .reads count u _ hm
  · exact .raises _ u e hm

/-- `RAW` (R93). -/
theorem execRaw_end {i : Instr} {a b : Nat} {s t : State} (h : execRaw a b s = .next t) : ExecEnd s i t := by
  obtain ⟨bs, u, hr, rfl⟩ | ⟨e, u, hr, -⟩ := finish_next h
  · obtain ⟨rfl, -⟩ := raw_inv.1 _ _ hr
    exact .gives i _
  · exact absurd hr (raw_inv.2 _ _)

/-- A phase operation (R181). -/
theorem phase_end {i : Instr} {p : Phase} {s t : State} (hp : ownPhase i = some p) (h : exec i s = .next t) :
    ExecEnd s i t := by
  obtain ⟨rfl, ⟨c, q, g, hc, hn, rfl, he⟩ | ⟨c, e, hc, hn, rfl, -⟩⟩ := phaseOp_effect hp h
  · exact .phases i c q g hp (setCur_moved hc hn) he
  · exact .raises i _ e (setCur_moved hc hn)

/-- `DECODE` answers the whole call on the bytes below `N` (R192). -/
theorem execDecode_next {s t : State} (h : exec .decode s = .next t) :
    ∃ buf, memRead 0 s.n s = .ok buf ∧ t = callState (decodeRun Config.ck buf) s := by
  change decodeWith Config.ck s = _ at h
  unfold decodeWith at h
  split at h
  · cases h
  · split at h
    · cases h
      exact ⟨_, by assumption, rfl⟩
    · cases h

/-- `LOAD` (R195). -/
theorem execLoad_next {bytes : List Byte} {s t : State} (h : exec (.load bytes) s = .next t) :
    bytes.length ≤ Config.bufCap ∧ t = loaded bytes s := by
  change execLoad bytes s = _ at h
  unfold execLoad at h
  split at h
  · cases h
  · split at h
    · cases h
      exact ⟨by assumption, rfl⟩
    · cases h

/-- `START` (R196). -/
theorem execStart_next {s t : State} (h : exec .start s = .next t) : t = started s := by
  change execStart s = _ at h
  unfold execStart at h
  split at h
  · cases h
  · cases h
    rfl

/-- Everything an operation that answers a next state can have done. -/
theorem exec_end {i : Instr} {s t : State} (h : exec i s = .next t) : ExecEnd s i t := by
  cases i
  case xflagO | xffmt | xaddrD | xaddrS | xctrl | xhcs | xinfo | xfcs | xflagC | vlen | ilen | asm =>
    exact phase_end rfl h
  case be16 | swap16 | flen | fseg | ftype | ftypeA | astop | clsb | cpf | crecv | csend | classify | cksum | cnt =>
    exact execEnd_of_returns h
  case classifyI | classifySnrm | classifyDisc | classifyUa | classifyDm | classifyFrmr | classifyUi | classifyRnr |
      classifyRr | classifyNone => exact classRow_end h
  case ftypeOther => exact execFtypeOther_end h
  case vchkH | vchkF => exact vchkWith_end h
  case result => exact execResult_end h
  case rd => exact execRd_end h
  case raw => exact execRaw_end h
  case decode =>
    obtain ⟨buf, hb, rfl⟩ := execDecode_next h
    exact .calls buf hb
  case load =>
    obtain ⟨hl, rfl⟩ := execLoad_next h
    exact .loads _ hl
  case start =>
    cases execStart_next h
    exact .starts

/-! ### The frame buffer (10_state.md R11, R12, 20_memory.md R52) -/

/-- Reads leave the buffer as it was. -/
theorem moved_buf {s t : State} (h : Moved s t) : t.mem = s.mem ∧ t.n = s.n := by
  obtain ⟨c, -, -, rfl⟩ := h
  exact ⟨rfl, rfl⟩

/-- The whole call leaves the buffer as it was (R192). -/
theorem callState_buf (r : Except (DecodeError × Nat) (DecodedFrame × Nat)) (s : State) :
    (callState r s).mem = s.mem ∧ (callState r s).n = s.n := by
  rcases r with ⟨e, c⟩ | ⟨fr, c⟩ <;> exact ⟨rfl, rfl⟩

/-- Every operation but `LOAD` leaves the buffer as it was (R52). -/
theorem exec_buf {i : Instr} {s t : State} (hi : ∀ bytes, i ≠ .load bytes) (h : exec i s = .next t) :
    t.mem = s.mem ∧ t.n = s.n := by
  cases exec_end h with
  | gives | passes | phases | starts => exact ⟨rfl, rfl⟩
  | reads _ u v hu => simpa using moved_buf hu
  | raises _ u e hu => simpa using moved_buf hu
  | calls buf => exact callState_buf _ s
  | loads bytes => exact absurd rfl (hi bytes)

/-- Settles O50, by what each operation can have done. -/
theorem onlyLoadWritesTheBuffer : Obligations.OnlyLoadWritesTheBuffer := by
  intro i s t hi h
  obtain ⟨hm, hn⟩ := exec_buf hi h
  exact ⟨hn, fun k => by rw [hm]⟩

/-- `MemRead` looks at the buffer alone (R41). -/
theorem memRead_congr {s t : State} (hm : s.mem = t.mem) (hn : s.n = t.n) (a count : Nat) :
    memRead a count s = memRead a count t := by
  simp only [memRead, hm, hn]

/-- What a whole call leaves depends on the buffer alone, but for the moves still to come (R37, R241). -/
theorem callState_congr {s t : State} (hm : s.mem = t.mem) (hn : s.n = t.n)
    (r : Except (DecodeError × Nat) (DecodedFrame × Nat)) :
    (callState r s).setPending (callState r t).pending = callState r t := by
  rcases r with ⟨e, c⟩ | ⟨fr, c⟩ <;>
    simp [callState, raise, State.clearRun, State.setCur, State.setF, State.setErr, State.setPhase, State.returns,
      State.setPending, hm, hn]

/-- Settles O43: the call reads the buffer alone, and every register it leaves is written from the call's answer. -/
theorem outcomeDependsOnTheBufferAlone : Obligations.OutcomeDependsOnTheBufferAlone := by
  intro s t s' t' hm hn hs ht
  obtain ⟨buf, hb, rfl⟩ := execDecode_next hs
  obtain ⟨buf', hb', rfl⟩ := execDecode_next ht
  rw [memRead_congr hm hn, hn, hb'] at hb
  cases hb
  exact callState_congr hm hn _

end Sys2Proof.Machine

/-! ### The invariant of the parser (10_state.md R12 to R35) -/

namespace Sys2Proof.Machine

/-! #### The error record and the field registers where nothing is decoded -/

/-- No error is recorded (R32 to R35). -/
theorem errorRecordOk_clear : errorRecordOk ErrRegs.clear := ⟨rfl, rfl, rfl, rfl⟩

/-- Every error leaves a whole record of its kind (R211, R212). -/
theorem errorRecordOk_errorRegs (e : DecodeError) : errorRecordOk (errorRegs e) := by
  cases e <;> exact ⟨rfl, rfl, rfl, rfl⟩

/-- Every error has a kind (R211). -/
theorem errorRegs_kind (e : DecodeError) : (errorRegs e).kind ≠ .none := by
  cases e <;> simp [errorRegs]

/-- Before a run's first field and in `ERROR` no field register holds a value (R15, R38, R213). -/
theorem fieldsHeld_empty {p : Phase} (hp : p = .idle ∨ p = .flagO ∨ p = .error) : FieldsHeld p Fields.empty := by
  rcases hp with rfl | rfl | rfl <;>
    exact ⟨rfl, rfl, rfl, rfl, rfl, rfl, rfl, rfl, rfl, rfl, rfl, rfl, rfl, rfl, rfl, rfl, rfl, by simp⟩

/-- Where no field register holds a value, none holds an illegal one. -/
theorem fieldValues_empty : FieldValues Fields.empty where
  flag := nofun
  flagEnd := nofun
  fmtType := nofun
  dest := .inl rfl
  src := .inl rfl
  recv := nofun
  send := nofun
  cls := nofun
  infoN := nofun

/-! #### The values that the decoders give -/

theorem ftype_legal (w : Half) : ftype w = 3#16 ∨ (ftype w &&& 0x0FFF#16 = 0#16 ∧ ftype w ≠ 0xA000#16) := by
  unfold ftype
  split
  · exact .inl rfl
  · next h => exact .inr ⟨by rw [BitVec.and_assoc]; exact BitVec.and_zero, h⟩

theorem crecv_legal (c : Byte) : crecv c &&& 0x1F#8 = 0#8 := by
  rw [crecv, BitVec.and_assoc]
  exact BitVec.and_zero

theorem csend_legal (c : Byte) : csend c &&& 0xF1#8 = 0#8 := by
  rw [csend, BitVec.and_assoc]
  exact BitVec.and_zero

theorem fieldValues_control {f : Fields} (h : FieldValues f) (c : Byte) : FieldValues (controlFields c f) :=
  { h with
    recv := by rintro _ ⟨⟩; exact crecv_legal c
    send := by rintro _ ⟨⟩; exact csend_legal c
    cls := by rintro _ _ _ _ ⟨⟩ ⟨⟩ ⟨⟩ ⟨⟩; rfl }

/-! #### Phase operations -/

/-- A phase operation that succeeds leaves the registers of its write map with a value, and no other change of which
registers hold one (R110, R181). -/
theorem opEffect_held {i : Instr} {s : State} {c : Nat} {q : Phase} {g : Fields} (hp : ownPhase i = some s.phase)
    (he : OpEffect i s c q g) (h : FieldsHeld s.phase s.f) : FieldsHeld q g := by
  generalize s.phase = p at hp h
  cases i <;> simp only [ownPhase, Option.some.injEq, reduceCtorEq] at hp <;> subst hp
  case xflagO =>
    obtain ⟨rfl, -, rfl⟩ := he
    exact { h with flag := rfl, branch := by simp }
  case xffmt =>
    obtain ⟨rfl, -, w, rfl⟩ := he
    exact { h with len := rfl, seg := rfl, fmtType := rfl, branch := by simp }
  case xaddrD =>
    obtain ⟨rfl, bs, -, -, -, rfl⟩ := he
    exact { h with dest := rfl, branch := by simp }
  case xaddrS =>
    obtain ⟨rfl, bs, -, -, -, rfl⟩ := he
    exact { h with src := rfl, branch := by simp }
  case xctrl =>
    obtain ⟨rfl, -, b, rfl⟩ := he
    exact { h with lsb := rfl, pf := rfl, recv := rfl, send := rfl, cls := rfl, branch := by simp }
  case xhcs =>
    obtain ⟨rfl, -, v, -, rfl⟩ := he
    exact { h with hcs := rfl, branch := by simp }
  case ilen =>
    obtain ⟨-, len, -, ⟨-, rfl, rfl⟩ | ⟨-, rfl, rfl⟩⟩ := he
    · exact { h with payload := rfl, branch := by simp }
    · exact { h with payload := rfl, infoN := rfl, branch := fun _ => rfl }
  case xinfo =>
    obtain ⟨rfl, k, -, -, rfl⟩ := he
    have hb := h.branch (by simp)
    exact { h with infoOff := by simp [hb]; rfl, branch := fun _ => hb }
  case xfcs =>
    obtain ⟨rfl, -, v, -, rfl⟩ := he
    have hb := h.branch (by simp)
    exact { h with fcs := by simp [hb]; rfl, branch := fun _ => hb }
  case vlen =>
    obtain ⟨rfl, -, rfl, -⟩ := he
    exact { h with branch := by simp }
  case xflagC =>
    obtain ⟨rfl, -, rfl⟩ := he
    exact { h with flagEnd := rfl, branch := by simp }
  case asm =>
    obtain ⟨rfl, -, rfl⟩ := he
    exact { h with branch := by simp }

/-- A phase operation that succeeds writes legal values (R17, R20 to R27, R29, R31). -/
theorem opEffect_values {i : Instr} {s : State} {c : Nat} {p q : Phase} {g : Fields} (hp : ownPhase i = some p)
    (he : OpEffect i s c q g) (h : FieldValues s.f) : FieldValues g := by
  cases i <;> simp only [ownPhase, Option.some.injEq, reduceCtorEq] at hp
  case xflagO =>
    obtain ⟨-, -, rfl⟩ := he
    exact { h with flag := by rintro _ ⟨⟩; rfl }
  case xffmt =>
    obtain ⟨-, -, w, rfl⟩ := he
    exact { h with fmtType := by rintro _ ⟨⟩; exact ftype_legal w }
  case xaddrD =>
    obtain ⟨-, bs, h1, h4, -, rfl⟩ := he
    exact { h with dest := .inr ⟨bs, h1, h4, rfl⟩ }
  case xaddrS =>
    obtain ⟨-, bs, h1, h4, -, rfl⟩ := he
    exact { h with src := .inr ⟨bs, h1, h4, rfl⟩ }
  case xctrl =>
    obtain ⟨-, -, b, rfl⟩ := he
    exact fieldValues_control h b
  case ilen =>
    obtain ⟨-, len, -, ⟨-, -, rfl⟩ | ⟨-, -, rfl⟩⟩ := he
    · exact { h with }
    · have := len.isLt
      exact { h with infoN := by rintro _ ⟨⟩; omega }
  case xflagC =>
    obtain ⟨-, -, rfl⟩ := he
    exact { h with flagEnd := by rintro _ ⟨⟩; rfl }
  case xhcs | xfcs =>
    obtain ⟨-, -, v, -, rfl⟩ := he
    exact { h with }
  case xinfo =>
    obtain ⟨-, k, -, -, rfl⟩ := he
    exact { h with }
  case vlen =>
    obtain ⟨-, -, rfl, -⟩ := he
    exact h
  case asm =>
    obtain ⟨-, -, rfl⟩ := he
    exact h

/-- A phase operation that succeeds does not lead to `ERROR` (R181). -/
theorem opEffect_phase {i : Instr} {s : State} {c : Nat} {p q : Phase} {g : Fields} (hp : ownPhase i = some p)
    (he : OpEffect i s c q g) : p ≠ .error ∧ q ≠ .error := by
  cases i <;> simp only [ownPhase, Option.some.injEq, reduceCtorEq] at hp <;> subst hp
  case ilen =>
    obtain ⟨-, len, -, ⟨-, rfl, -⟩ | ⟨-, rfl, -⟩⟩ := he <;> simp
  all_goals
    obtain ⟨rfl, -⟩ := he
    simp

/-! #### The whole call (45_sequencer_assembler_host.md R192) -/

/-- A part of the whole call that succeeded, with what followed it. -/
theorem except_bind_ok {ε α β : Type} {r : Except ε α} {k : α → Except ε β} {b : β} (h : r.bind k = .ok b) :
    ∃ a, r = .ok a ∧ k a = .ok b := by
  cases r with
  | error e => cases h
  | ok a => exact ⟨a, rfl, h⟩

/-- The payload part, where it succeeds: header-only, or the information and the FCS, in the length declared (R166 to R169). -/
theorem callPayload_ok {ck : List Byte → Half} {buf : List Byte} {len : BitVec 11} {cur c : Nat}
    {info : Option (List Byte)} {fcs : Option Half} (h : callPayload ck buf len cur = .ok (info, fcs, c)) :
    (info = none ∧ fcs = none ∧ c = cur ∧ (len.toNat : Int) = (cur : Int) - 1) ∨
    ∃ bs v, info = some bs ∧ fcs = some v ∧ len.toNat = cur + 1 + bs.length ∧ c = len.toNat + 1 ∧
      callRead buf cur bs.length = .ok (bs, cur + bs.length) ∧
      callCheck ck .fcs buf (cur + bs.length) = .ok (v, c) := by
  unfold callPayload at h
  split at h
  · next hl =>
    cases h
    exact .inl ⟨rfl, rfl, rfl, hl⟩
  · dsimp only at h
    split at h
    · cases h
    · obtain ⟨⟨bs, d⟩, hr, h⟩ := except_bind_ok h
      obtain ⟨⟨v, e⟩, hc, h⟩ := except_bind_ok h
      dsimp only at h
      split at h
      · cases h
      · cases h
        obtain ⟨rfl, hn, hbs⟩ := callRead_ok hr
        obtain ⟨rfl, -, -⟩ := callCheck_ok hc
        have hlen : bs.length = ((len.toNat : Int) - 1 - (cur : Int)).toNat := by
          rw [hbs, List.length_take, List.length_drop]
          omega
        rw [← hlen] at hr hc ⊢
        exact .inr ⟨bs, v, rfl, rfl, by omega, by omega, hr, hc⟩

/-- The parts of a whole call that succeeded, each at its offset (20_memory.md R50). -/
theorem decodeRun_ok {ck : List Byte → Half} {buf : List Byte} {fr : DecodedFrame} {n : Nat}
    (h : decodeRun ck buf = .ok (fr, n)) : ∃ (fmt ctl : List Byte) (c : Nat),
      callFlag buf 0 = .ok (fr.flag, 1) ∧
      callRead buf 1 2 = .ok (fmt, 3) ∧
      callAddr buf Config.addrMax [] 3 = .ok (fr.destAddr, 3 + fr.destAddr.length) ∧
      callAddr buf Config.addrMax [] (3 + fr.destAddr.length) =
        .ok (fr.srcAddr, 3 + fr.destAddr.length + fr.srcAddr.length) ∧
      callRead buf (3 + fr.destAddr.length + fr.srcAddr.length) 1 =
        .ok (ctl, 4 + fr.destAddr.length + fr.srcAddr.length) ∧
      callCheck ck .hcs buf (4 + fr.destAddr.length + fr.srcAddr.length) =
        .ok (fr.hcs, 6 + fr.destAddr.length + fr.srcAddr.length) ∧
      callPayload ck buf fr.frameLen (6 + fr.destAddr.length + fr.srcAddr.length) = .ok (fr.information, fr.fcs, c) ∧
      callFlag buf c = .ok (fr.flagEnd, n) ∧
      fr.frameLen = flen (be16Seq fmt) ∧ fr.segmentationBit = fseg (be16Seq fmt) ∧ fr.formatType = ftype (be16Seq fmt) ∧
      fr.control = controlOf (ctl.getD 0 0#8) := by
  unfold decodeRun at h
  obtain ⟨⟨flag, c1⟩, h1, h⟩ := except_bind_ok h
  obtain ⟨⟨fmt, c2⟩, h2, h⟩ := except_bind_ok h
  obtain ⟨⟨dest, c3⟩, h3, h⟩ := except_bind_ok h
  obtain ⟨⟨src, c4⟩, h4, h⟩ := except_bind_ok h
  obtain ⟨⟨ctl, c5⟩, h5, h⟩ := except_bind_ok h
  obtain ⟨⟨hcs, c6⟩, h6, h⟩ := except_bind_ok h
  obtain ⟨⟨info, fcs, c7⟩, h7, h⟩ := except_bind_ok h
  obtain ⟨⟨flagEnd, c8⟩, h8, h⟩ := except_bind_ok h
  cases h
  obtain ⟨rfl, -⟩ := callFlag_ok h1
  obtain ⟨rfl, -⟩ := callRead_ok h2
  obtain ⟨-, -, rfl, -⟩ := callAddr_field h3
  obtain ⟨-, -, rfl, -⟩ := callAddr_field h4
  obtain ⟨rfl, -⟩ := callRead_ok h5
  obtain ⟨rfl, -⟩ := callCheck_ok h6
  have e5 : 3 + dest.length + src.length + 1 = 4 + dest.length + src.length := by omega
  have e6 : 4 + dest.length + src.length + 2 = 6 + dest.length + src.length := by omega
  simp only [Nat.zero_add, Nat.reduceAdd, e5, e6] at *
  exact ⟨fmt, ctl, c7, h1, h2, h3, h4, h5, h6, h7, h8, rfl, rfl, rfl, rfl⟩

/-- Where a part of the whole call ends, `cursor` being the cursor of its answer: at or before offset `n`, whether it
succeeds or fails (10_state.md R13). -/
def EndsWithin {α : Type} (n : Nat) (cursor : α → Nat) (r : Except (DecodeError × Nat) α) : Prop :=
  match r with
  | .ok a => cursor a ≤ n
  | .error (_, c) => c ≤ n

theorem bind_endsWithin {α β : Type} {n : Nat} {f : α → Nat} {g : β → Nat} {r : Except (DecodeError × Nat) α}
    {k : α → Except (DecodeError × Nat) β} (hr : EndsWithin n f r) (hk : ∀ a, f a ≤ n → EndsWithin n g (k a)) :
    EndsWithin n g (r.bind k) := by
  cases r with
  | error ec => exact hr
  | ok a => exact hk a hr

section

variable {buf : List Byte} {cur : Nat} (h : cur ≤ buf.length)
include h

theorem callRead_endsWithin (count : Nat) : EndsWithin buf.length Prod.snd (callRead buf cur count) := by
  unfold callRead
  split
  · exact h
  · next hb => exact Nat.not_lt.1 hb

theorem callFlag_endsWithin : EndsWithin buf.length Prod.snd (callFlag buf cur) :=
  bind_endsWithin (callRead_endsWithin h 1) fun a ha => by
    dsimp only
    split <;> exact ha

theorem callAddr_endsWithin (fuel : Nat) (acc : List Byte) :
    EndsWithin buf.length Prod.snd (callAddr buf fuel acc cur) := by
  induction fuel generalizing acc cur with
  | zero => exact h
  | succ fuel ih =>
    refine bind_endsWithin (callRead_endsWithin h 1) fun a ha => ?_
    dsimp only
    split
    · exact ha
    · exact ih ha _

theorem callCheck_endsWithin (ck : List Byte → Half) (kind : CkKind) :
    EndsWithin buf.length Prod.snd (callCheck ck kind buf cur) :=
  bind_endsWithin (callRead_endsWithin h 2) fun a ha => by
    dsimp only
    split <;> exact ha

theorem callPayload_endsWithin (ck : List Byte → Half) (len : BitVec 11) :
    EndsWithin buf.length (fun a => a.2.2) (callPayload ck buf len cur) := by
  unfold callPayload
  split
  · exact h
  · dsimp only
    split
    · exact h
    · refine bind_endsWithin (callRead_endsWithin h _) fun a ha => ?_
      refine bind_endsWithin (callCheck_endsWithin ha ck .fcs) fun b hb => ?_
      split <;> exact hb

end

/-- The whole call ends inside the buffer. -/
theorem decodeRun_endsWithin (ck : List Byte → Half) (buf : List Byte) :
    EndsWithin buf.length Prod.snd (decodeRun ck buf) :=
  bind_endsWithin (callFlag_endsWithin (Nat.zero_le _)) fun _ h =>
  bind_endsWithin (callRead_endsWithin h 2) fun _ h =>
  bind_endsWithin (callAddr_endsWithin h _ _) fun _ h =>
  bind_endsWithin (callAddr_endsWithin h _ _) fun _ h =>
  bind_endsWithin (callRead_endsWithin h 1) fun _ h =>
  bind_endsWithin (callCheck_endsWithin h ck .hcs) fun _ h =>
  bind_endsWithin (callPayload_endsWithin h ck _) fun _ h =>
  bind_endsWithin (callFlag_endsWithin h) fun _ h => h

/-- A frame that the whole call answers fills the registers of `DONE` (R15, R16, R190). -/
theorem frameFields_held {fr : DecodedFrame} (h : fr.information.isSome = fr.fcs.isSome) :
    FieldsHeld .done (frameFields fr) := by
  have hinfo : fr.information.isSome = (writtenBy 8 .done &&
      (some (if fr.information.isSome then 1#1 else 0#1) == some 1#1)) := by
    cases fr.information <;> rfl
  exact ⟨rfl, rfl, rfl, rfl, rfl, rfl, rfl, rfl, rfl, rfl, rfl, rfl, rfl, Option.isSome_map.trans hinfo,
    Option.isSome_map.trans hinfo, h.symm.trans hinfo, rfl, by simp⟩

/-- A frame that the whole call answers fills the registers with legal values (R17, R20 to R31). -/
theorem frameFields_values {ck : List Byte → Half} {buf : List Byte} {fr : DecodedFrame} {n : Nat}
    (h : decodeRun ck buf = .ok (fr, n)) : FieldValues (frameFields fr) := by
  obtain ⟨fmt, ctl, c, hflag, -, hdest, hsrc, -, -, hpay, hend, -, -, htype, hctl⟩ := decodeRun_ok h
  obtain ⟨-, -, hflag, -⟩ := callFlag_ok hflag
  obtain ⟨-, -, hend, -⟩ := callFlag_ok hend
  obtain ⟨hd1, hd4, -⟩ := callAddr_field hdest
  obtain ⟨hs1, hs4, -⟩ := callAddr_field hsrc
  exact {
    flag := by rintro _ ⟨⟩; exact hflag
    flagEnd := by rintro _ ⟨⟩; exact hend
    fmtType := by rintro _ ⟨⟩; rw [htype]; exact ftype_legal _
    dest := .inr ⟨_, hd1, hd4, rfl⟩
    src := .inr ⟨_, hs1, hs4, rfl⟩
    recv := by rintro _ ⟨⟩; rw [hctl]; exact crecv_legal _
    send := by rintro _ ⟨⟩; rw [hctl]; exact csend_legal _
    cls := by rintro _ _ _ _ ⟨⟩ ⟨⟩ ⟨⟩ ⟨⟩; rw [hctl]; rfl
    infoN := by
      intro k hk
      obtain ⟨hi, -⟩ | ⟨bs, v, hi, -, hlen, -⟩ := callPayload_ok hpay <;> simp only [frameFields, hi] at hk
      · cases hk
      · cases hk
        have := fr.frameLen.isLt
        omega }

/-! #### The invariant, operation by operation -/

/-- The invariant looks neither at the moves still to come nor at what was given back. -/
theorem ParserInv.setPending {s : State} (h : ParserInv s) (ms : List Move) : ParserInv (s.setPending ms) := { h with }
theorem ParserInv.returns {s : State} (h : ParserInv s) (v : Value) : ParserInv (s.returns v) := { h with }

/-- Reads keep the invariant (R13). -/
theorem ParserInv.moved {s t : State} (h : ParserInv s) (hm : Moved s t) : ParserInv t := by
  obtain ⟨c, -, hc, rfl⟩ := hm
  exact { h with cursor := hc h.cursor }

/-- Taking an error keeps the invariant, in whatever phase (60_exceptions.md R213). -/
theorem ParserInv.raise {s : State} (h : ParserInv s) (e : DecodeError) : ParserInv (Machine.raise e s) :=
  { h with
    error := iff_of_true (errorRegs_kind e) rfl
    record := errorRecordOk_errorRegs e
    held := fieldsHeld_empty (.inr (.inr rfl))
    values := fieldValues_empty }

/-- A phase operation that succeeds keeps the invariant (R110, R181). -/
theorem ParserInv.phaseOp {i : Instr} {s : State} {c : Nat} {q : Phase} {g : Fields} (h : ParserInv s)
    (hp : ownPhase i = some s.phase) (hm : Moved s (s.setCur c)) (he : OpEffect i s c q g) :
    ParserInv (((s.setCur c).setF g).setPhase q) := by
  obtain ⟨hs, hq⟩ := opEffect_phase hp he
  exact { h.moved hm with
    error := iff_of_false (mt h.error.1 hs) hq
    held := opEffect_held hp he h.held
    values := opEffect_values hp he h.values }

/-- A state with no error recorded and nothing decoded, such as `LOAD`, `START` and a power-on reset leave (R38). -/
theorem parserInv_cleared {s : State} (hb : bufferOk s) (hn : s.n ≤ Config.bufCap) (hc : s.cur = 0)
    (hp : s.phase = .idle ∨ s.phase = .flagO) (hf : s.f = Fields.empty) (he : s.err = ErrRegs.clear) : ParserInv s where
  buffer := hb
  capacity := hn
  cursor := by omega
  error := by
    rw [he]
    exact iff_of_false (not_not.2 rfl) (by rcases hp with hp | hp <;> simp [hp])
  record := he ▸ errorRecordOk_clear
  held := hf ▸ fieldsHeld_empty (hp.imp_right .inl)
  values := hf ▸ fieldValues_empty

/-- A whole call keeps the invariant (R185, R192). -/
theorem ParserInv.callState {s : State} (h : ParserInv s) (ck : List Byte → Half) :
    ParserInv (Machine.callState (decodeRun ck (Machine.buffer s)) s) := by
  have hw := decodeRun_endsWithin ck (Machine.buffer s)
  rw [buffer_length h.buffer] at hw
  cases hr : decodeRun ck (Machine.buffer s) with
  | error ec =>
    rw [hr] at hw
    have hs : ParserInv ((started s).setCur ec.2) :=
      (parserInv_cleared (s := started s) h.buffer h.capacity rfl (.inr rfl) rfl rfl).moved
        ⟨ec.2, Nat.zero_le _, fun _ => hw, rfl⟩
    exact (hs.raise ec.1).returns _
  | ok fc =>
    rw [hr] at hw
    obtain ⟨fmt, ctl, c, -, -, -, -, -, -, hpay, -⟩ := decodeRun_ok hr
    exact {
      buffer := h.buffer
      capacity := h.capacity
      cursor := hw
      error := iff_of_false (not_not.2 rfl) (by simp [Machine.callState])
      record := errorRecordOk_clear
      held := frameFields_held (by
        obtain ⟨hi, hf, -⟩ | ⟨bs, v, hi, hf, -⟩ := callPayload_ok hpay <;> rw [hi, hf] <;> rfl)
      values := frameFields_values hr }

/-- Every operation keeps the invariant. -/
theorem exec_keeps_parserInv {i : Instr} {s t : State} (hs : ParserInv s) (h : exec i s = .next t) : ParserInv t := by
  cases exec_end h with
  | gives _ v => exact hs.returns v
  | reads _ u v hu => exact (hs.moved hu).returns v
  | passes => exact hs
  | raises _ u e hu => exact (hs.moved hu).raise e
  | phases _ c q g hp hu he => exact hs.phaseOp hp hu he
  | calls buf hb =>
    cases (memRead_all hs.buffer).symm.trans hb
    exact hs.callState Config.ck
  | loads bytes hl => exact parserInv_cleared (load_offsets bytes) hl rfl (.inl rfl) rfl rfl
  | starts => exact parserInv_cleared (s := started s) hs.buffer hs.capacity rfl (.inr rfl) rfl rfl

/-- Settles O52: reset leaves a cleared state with an empty buffer. -/
theorem resetMeetsTheInvariant : Obligations.ResetMeetsTheInvariant :=
  parserInv_cleared rfl (Nat.zero_le _) rfl (.inl rfl) rfl rfl

/-- Settles O53: each of the ends of a step keeps the invariant, and a power-on reset meets it. -/
theorem everyStepKeepsTheInvariant : Obligations.EveryStepKeepsTheInvariant := by
  intro s t hs h
  obtain rfl | ⟨ms, -, rfl⟩ | ⟨ms, -, rfl⟩ | ⟨i, ms, -, hi⟩ | ⟨i, p, ms, -, -, hi⟩ := step_cases h
  · exact hs
  · exact hs.setPending ms
  · exact resetMeetsTheInvariant.setPending _
  · exact exec_keeps_parserInv (hs.setPending ms) hi
  · exact exec_keeps_parserInv (hs.setPending ms) hi

end Sys2Proof.Machine

/-! ### Register names and reset values (10_state.md R10, R38) -/

namespace Sys2Proof.Machine

/-- Where nothing is decoded and no error is recorded, no field and no error-context register holds a value (R38). -/
theorem regValue_cleared {s : State} (hf : s.f = Fields.empty) (he : s.err = ErrRegs.clear) :
    ∀ r ∈ fieldRegs ++ contextRegs, regValue s r = none := by
  simp [fieldRegs, contextRegs, regValue, addrByte, hf, he, Fields.empty, AddrRegs.empty, ErrRegs.clear]

/-- A pending power-on reset is the next step, whatever the phase (70_reset_and_hazards.md R240). -/
theorem step_powerOn {s : State} {ms : List Move} (h : s.pending = .powerOn :: ms) :
    step s = .next (powerOn (s.setPending ms)) := by
  simp [step, nextOp, h]

/-- `START` while not BUSY (R196). -/
theorem exec_start {s : State} (h : phaseStatus s.phase ≠ .busy) : exec .start s = .next (started s) := if_neg h

/-- Settles O6: the state after reset and the state START leaves are cleared alike. -/
theorem resetAndStartHoldNoValues : Obligations.ResetAndStartHoldNoValues :=
  ⟨⟨rfl, rfl, rfl, rfl, regValue_cleared rfl rfl⟩, fun _ _ => step_powerOn,
    fun s h => ⟨started s, exec_start h, rfl, rfl, rfl, rfl, rfl, regValue_cleared rfl rfl⟩⟩

/-- A byte of the buffer below `N` is read under its offset (R12). -/
theorem regValue_buf {s : State} {k : Nat} (h : bufferOk s) (hk : k < s.n) :
    regValue s (.buf k) = some (.byte (byteAt s k)) := by
  have hl : k < (buffer s).length := by rwa [buffer_length h]
  simp [regValue, hk, read_buffer h, byteAt, hl]

/-- Settles O37: each name is read by its own equation of `regValue`. -/
theorem registerNamesReadTheirRegister : Obligations.RegisterNamesReadTheirRegister := by
  intro s w b x len k c
  refine ⟨?_, ?_, ?_, ?_, ?_, ?_, ?_, ?_, ?_, ?_, ?_, ?_, ?_, ?_, ?_, ?_, ?_, ?_, ?_, ?_, ?_, ?_, ?_, ?_, ?_,
    regValue_buf, rfl, rfl, rfl, rfl, rfl, ?_, ?_, ?_, ?_⟩
  case refine_26 =>
    intro e h
    simp [regValue, h]
  all_goals
    intro h
    simp [regValue, addrByte, h]

/-! ### The invariant of a run (10_state.md R38, R39) -/

/-- Settles O54: no register that a relation of a run speaks of holds a value at reset. -/
theorem resetMeetsTheRunInvariant : Obligations.ResetMeetsTheRunInvariant where
  inv := resetMeetsTheInvariant
  outside := rfl
  position := rfl
  facts := ⟨nofun, nofun, nofun, nofun, nofun⟩

/-- The count of address bytes, where it holds a value, is one to four (R21, R39 item 2). -/
theorem addrRegsOk_count {a : AddrRegs} {d : Nat} (h : addrRegsOk a) (hn : a.n = some d) : 1 ≤ d ∧ d ≤ 4 := by
  obtain rfl | ⟨bs, h1, h4, rfl⟩ := h
  · cases hn
  · cases hn
    exact ⟨h1, h4⟩

/-- A finished frame's length, cursor, information and FCS, by its payload bit (R39 items 3 and 5). -/
theorem done_payload {s : State} (h : RunInv s) (hp : s.phase = .done) {len : BitVec 11} (hl : s.f.len = some len) :
    s.f.payload = some 0#1 ∧ len.toNat = headerCount s.f ∧ s.cur = headerCount s.f + 2 ∨
    ∃ (i : Nat) (fcs : Half), s.f.payload = some 1#1 ∧ s.f.infoN = some i ∧ len.toNat = headerCount s.f + i + 2 ∧
      s.f.infoOff = some (headerCount s.f + 1) ∧ s.cur = len.toNat + 2 ∧ s.f.fcs = some fcs ∧
      fcs = Config.ck (slice s 1 (len.toNat - 2)) := by
  obtain ⟨hinv, -, hpos, hfacts⟩ := h
  have held := hinv.held
  rw [hp] at held hpos
  have hcur : s.cur = len.toNat + 2 := hpos len hl
  obtain ⟨x, hx⟩ := Option.isSome_iff_exists.1 held.payload
  obtain rfl | rfl := BitVec.eq_zero_or_eq_one x
  · have hlen := hfacts.headerOnly len hx hl
    exact .inl ⟨hx, hlen, by rw [hcur, hlen]⟩
  · have hn := held.infoN
    have ho := held.infoOff
    have hf := held.fcs
    rw [hx] at hn ho hf
    obtain ⟨i, hi⟩ := Option.isSome_iff_exists.1 hn
    obtain ⟨off, hoff⟩ := Option.isSome_iff_exists.1 ho
    obtain ⟨fcs, hfcs⟩ := Option.isSome_iff_exists.1 hf
    exact .inr ⟨i, fcs, hx, hi, hfacts.payload len i hx hl hi, hfacts.window off hoff ▸ hoff, hcur, hfcs,
      hfacts.fcs fcs len hfcs hl⟩

/-- Settles O56: the registers that `DONE` holds, with the values and relations that the invariant of a run gives them. -/
theorem finishedFrameIsConsistent : Obligations.FinishedFrameIsConsistent := by
  intro s h hp
  have held := h.inv.held
  have vals := h.inv.values
  rw [hp] at held
  obtain ⟨b, hb⟩ := Option.isSome_iff_exists.1 held.flag
  obtain ⟨e, he⟩ := Option.isSome_iff_exists.1 held.flagEnd
  obtain ⟨d, hd⟩ := Option.isSome_iff_exists.1 held.dest
  obtain ⟨k, hk⟩ := Option.isSome_iff_exists.1 held.src
  obtain ⟨len, hl⟩ := Option.isSome_iff_exists.1 held.len
  obtain ⟨hcs, hh⟩ := Option.isSome_iff_exists.1 held.hcs
  obtain ⟨l, hlsb⟩ := Option.isSome_iff_exists.1 held.lsb
  obtain ⟨r, hrecv⟩ := Option.isSome_iff_exists.1 held.recv
  obtain ⟨z, hsend⟩ := Option.isSome_iff_exists.1 held.send
  obtain ⟨c, hcls⟩ := Option.isSome_iff_exists.1 held.cls
  obtain ⟨hd1, hd4⟩ := addrRegsOk_count vals.dest hd
  obtain ⟨hk1, hk4⟩ := addrRegsOk_count vals.src hk
  have hcount : headerCount s.f = 5 + d + k := by simp [headerCount, hd, hk]
  exact ⟨hb.trans (congrArg some (vals.flag b hb)), he.trans (congrArg some (vals.flagEnd e he)), d, k, len, hcs,
    hd, hk, hd1, hd4, hk1, hk4, hl, hh, h.inv.cursor, hcount ▸ h.facts.hcs hcs hh, hcount ▸ done_payload h hp hl,
    l, r, z, hlsb, hrecv, hsend,
    vals.cls l r z c hlsb hrecv hsend hcls ▸ hcls⟩

end Sys2Proof.Machine

/-! ### Every step of a run keeps its invariant (20_memory.md R50, 10_state.md R39) -/

namespace Sys2Proof.Machine

/-- No operation changes the moves still to come (log 4). -/
theorem exec_pending {i : Instr} {s t : State} (h : exec i s = .next t) : t.pending = s.pending := by
  have hmoved : ∀ u, Moved s u → u.pending = s.pending := by
    rintro u ⟨c, -, -, rfl⟩
    rfl
  cases exec_end h with
  | gives | passes | phases | loads | starts => rfl
  | reads _ u v hu => exact hmoved u hu
  | raises _ u e hu => exact hmoved u hu
  | calls buf =>
    rcases decodeRun Config.ck buf with ⟨e, c⟩ | ⟨fr, c⟩ <;> rfl

/-! #### Before the HCS and outside a run the relations say nothing -/

/-- A register written later holds a value only where one written earlier does. -/
theorem writtenBy_of_le {j k : Nat} {p : Phase} (hjk : j ≤ k) (h : writtenBy k p = true) : writtenBy j p = true := by
  simp only [writtenBy, Bool.and_eq_true, decide_eq_true_eq] at h ⊢
  omega

/-- Before the HCS is written none of the registers that the relations of a frame start from holds a value (R110). -/
theorem frameFacts_of_hcs_unwritten {s : State} (h : FieldsHeld s.phase s.f) (hp : writtenBy 7 s.phase = false) :
    FrameFacts s := by
  have later : ∀ k, 7 ≤ k → writtenBy k s.phase = false := fun k hk =>
    Bool.eq_false_iff.2 fun hw => by simp [writtenBy_of_le hk hw] at hp
  have hhcs : s.f.hcs = none := by simpa [hp] using h.hcs
  have hpay : s.f.payload = none := by simpa [later 8] using h.payload
  have hoff : s.f.infoOff = none := by simpa [later 9] using h.infoOff
  have hfcs : s.f.fcs = none := by simpa [later 10] using h.fcs
  constructor <;> simp [hhcs, hpay, hoff, hfcs]

/-! #### The phase operations that succeed -/

/-- A phase operation that succeeds leaves the cursor at the offset of the field that its successor reads (R50). -/
theorem opEffect_position {i : Instr} {s : State} {c : Nat} {q : Phase} {g : Fields} (hp : ownPhase i = some s.phase)
    (he : OpEffect i s c q g) (held : FieldsHeld s.phase s.f) (hpos : positionOk s.phase s.f s.cur)
    (hf : FrameFacts s) : positionOk q g c := by
  generalize s.phase = p at hp held hpos
  cases i <;> simp only [ownPhase, Option.some.injEq, reduceCtorEq] at hp <;> subst hp <;>
    simp only [positionOk] at hpos
  case xflagO =>
    obtain ⟨rfl, rfl, rfl⟩ := he
    simp [positionOk, hpos]
  case xffmt =>
    obtain ⟨rfl, rfl, w, rfl⟩ := he
    simp [positionOk, hpos]
  case xaddrD =>
    obtain ⟨rfl, bs, -, -, rfl, rfl⟩ := he
    simp [positionOk, hpos, addrRegs]
  case xaddrS =>
    obtain ⟨rfl, bs, -, -, rfl, rfl⟩ := he
    simp [positionOk, hpos, addrRegs]
  case xctrl =>
    obtain ⟨rfl, rfl, b, rfl⟩ := he
    simp only [positionOk, headerCount, controlFields]
    omega
  case xhcs =>
    obtain ⟨rfl, rfl, v, -, rfl⟩ := he
    simp only [positionOk, headerCount] at hpos ⊢
    omega
  case ilen =>
    obtain ⟨rfl, len, hl, ⟨hc, rfl, rfl⟩ | ⟨-, rfl, rfl⟩⟩ := he
    · intro len' hl'
      cases hl.symm.trans hl'
      omega
    · exact hpos
  case xinfo =>
    obtain ⟨rfl, k, hk, rfl, rfl⟩ := he
    simp [positionOk, headerCount, hpos, hk]
  case xfcs =>
    obtain ⟨rfl, rfl, v, -, rfl⟩ := he
    intro len hl
    have hb := held.branch (by simp)
    have hn := held.infoN
    rw [hb] at hn
    obtain ⟨k, hk⟩ := Option.isSome_iff_exists.1 hn
    have hlen := hf.payload len k hb hl hk
    rw [hk, Option.getD_some] at hpos
    omega
  case vlen =>
    obtain ⟨rfl, rfl, rfl, -⟩ := he
    exact hpos
  case xflagC =>
    obtain ⟨rfl, rfl, rfl⟩ := he
    intro len hl
    rw [hpos len hl]
  case asm =>
    obtain ⟨rfl, rfl, rfl⟩ := he
    exact hpos

/-- A phase operation that succeeds relates the registers it writes to the frame as far as it is read (R39). -/
theorem opEffect_facts {i : Instr} {s : State} {c : Nat} {q : Phase} {g : Fields} (hp : ownPhase i = some s.phase)
    (he : OpEffect i s c q g) (hs : RunInv s) : FrameFacts (((s.setCur c).setF g).setPhase q) := by
  have ht : FieldsHeld q g := opEffect_held hp he hs.inv.held
  have hnext : positionOk q g c := opEffect_position hp he hs.inv.held hs.position hs.facts
  obtain ⟨hinv, -, hpos, hf⟩ := hs
  generalize s.phase = p at hp hpos
  cases i <;> simp only [ownPhase, Option.some.injEq, reduceCtorEq] at hp <;> subst hp
  case xflagO | xffmt | xaddrD | xaddrS | xctrl =>
    obtain ⟨rfl, -⟩ := he
    exact frameFacts_of_hcs_unwritten ht rfl
  case xhcs =>
    obtain ⟨-, -, v, hv, rfl⟩ := he
    have hcur : s.cur - 1 = headerCount s.f - 2 := by
      simp only [positionOk] at hpos
      omega
    exact { hf with hcs := by rintro _ ⟨⟩; exact hcur ▸ hv hinv.buffer }
  case ilen =>
    simp only [positionOk] at hpos
    obtain ⟨-, len, hl, ⟨hc, rfl, rfl⟩ | ⟨hc, rfl, rfl⟩⟩ := he
    · exact { hf with
        headerOnly := by
          intro len' _ hl'
          cases hl.symm.trans hl'
          show len.toNat = headerCount s.f
          omega
        payload := nofun }
    · exact { hf with
        headerOnly := nofun
        payload := by
          intro len' k _ hl' hk
          cases hl.symm.trans hl'
          cases hk
          show len.toNat = headerCount s.f + (len.toNat - 1 - s.cur) + 2
          omega }
  case xinfo =>
    obtain ⟨-, k, -, -, rfl⟩ := he
    exact { hf with window := by rintro _ ⟨⟩; exact hpos }
  case xfcs =>
    obtain ⟨rfl, rfl, v, hv, rfl⟩ := he
    exact { hf with
      fcs := by
        rintro _ len ⟨⟩ hl
        have hcur : s.cur - 1 = len.toNat - 2 := by
          have := hnext len hl
          omega
        exact hcur ▸ hv hinv.buffer }
  case vlen =>
    obtain ⟨-, -, rfl, -⟩ := he
    exact { hf with }
  case xflagC | asm =>
    obtain ⟨-, -, rfl⟩ := he
    exact { hf with }

/-! #### The invariant, step by step -/

/-- The invariant of a run looks at the moves still to come only to see that the spec has them (log 4). -/
theorem RunInv.setPending {s : State} (h : RunInv s) {ms : List Move} (hm : ms.all outsideMove = true) :
    RunInv (s.setPending ms) where
  inv := h.inv.setPending ms
  outside := hm
  position := h.position
  facts := { h.facts with }

/-- An operation of the sequencer's or the host's keeps the invariant of a run. -/
theorem exec_keeps_runInv {i : Instr} {s t : State} (hs : RunInv s)
    (hi : outsideMove (.op i) = true ∨ ∃ p, ownPhase i = some p) (h : exec i s = .next t) : RunInv t := by
  have hinv : ParserInv t := exec_keeps_parserInv hs.inv h
  have hout : OutsideOnly t := by
    unfold OutsideOnly
    rw [exec_pending h]
    exact hs.outside
  cases exec_end h with
  | gives _ v => exact ⟨hinv, hout, hs.position, { hs.facts with }⟩
  | passes => exact hs
  | raises _ u e hu => exact ⟨hinv, hout, trivial, frameFacts_of_hcs_unwritten hinv.held rfl⟩
  | phases _ c q g hp hu he =>
    exact ⟨hinv, hout, opEffect_position hp he hs.inv.held hs.position hs.facts, opEffect_facts hp he hs⟩
  | loads | starts => exact ⟨hinv, hout, rfl, frameFacts_of_hcs_unwritten hinv.held rfl⟩
  | reads | calls => simp [outsideMove, ownPhase] at hi

/-- Settles O55: each of the ends of a step keeps the invariant of a run, and a power-on reset meets it. -/
theorem everyStepKeepsTheRunInvariant : Obligations.EveryStepKeepsTheRunInvariant := by
  intro s t hs h
  have rest : ∀ {m ms}, s.pending = m :: ms → outsideMove m = true ∧ ms.all outsideMove = true := by
    intro m ms hm
    have hout := hs.outside
    rwa [OutsideOnly, hm, List.all_cons, Bool.and_eq_true] at hout
  obtain rfl | ⟨ms, hm, rfl⟩ | ⟨ms, hm, rfl⟩ | ⟨i, ms, hm, hi⟩ | ⟨i, p, ms, hm, hp, hi⟩ := step_cases h
  · exact hs
  · exact hs.setPending (rest hm).2
  · exact resetMeetsTheRunInvariant.setPending (rest hm).2
  · exact exec_keeps_runInv (hs.setPending (rest hm).2) (.inl (rest hm).1) hi
  · have hms : ms.all outsideMove = true := by
      obtain hm | ⟨-, rfl⟩ := hm
      · exact (rest hm).2
      · rfl
    exact exec_keeps_runInv (hs.setPending hms) (.inr ⟨p, hp⟩) hi

end Sys2Proof.Machine

/-! ### The byte order of the checksum fields (20_memory.md R43) -/

namespace Sys2Proof.Machine

/-- Two bytes reassembled big-endian and swapped: the first read is the low-order byte (R43). -/
theorem swap16_be16_toNat (b0 b1 : Byte) : (swap16 (be16 b0 b1)).toNat = b1.toNat * 256 + b0.toNat := by
  have := b1.isLt
  rw [swap16_toNat, be16_toNat]
  omega

/-- The value of a checksum field that was taken is that of the two bytes at the cursor, swapped (R106, R108). -/
theorem readCheck_value {ck : List Byte → Half} {kind : CkKind} {s u : State} {v : Half} (hb : bufferOk s)
    (h : readCheck ck kind s = .ok v u) : v = swap16 (be16 (byteAt s s.cur) (byteAt s (s.cur + 1))) := by
  obtain ⟨w, t, hw, hraw⟩ := bind_inv.1 _ _ h
  obtain ⟨range, t', -, h⟩ := bind_inv.1 _ _ hraw
  cases hw.symm.trans ((rdHalf_eq hb).1 (rdHalf_ok hw).2)
  split at h
  · cases h
  · cases h
    rfl

/-- A phase operation that reads a checksum field and writes it with `put`, where it succeeds (R106, R108). -/
theorem checkOp_next {ck : List Byte → Half} {kind : CkKind} {p q : Phase} {mn : String}
    (put : Half → Fields → Fields) {s t : State} (hb : bufferOk s) (ht : t.phase ≠ .error)
    (h : phaseOp p mn (fun s => (readCheck ck kind s).bind (fun v u => .ok q (u.setF (put v u.f)))) s = .next t) :
    t.f = put (swap16 (be16 (byteAt s s.cur) (byteAt s (s.cur + 1)))) s.f := by
  obtain ⟨-, ⟨q', u, hok, rfl⟩ | ⟨e, u, -, rfl⟩⟩ := phaseOp_next h
  · obtain ⟨v, w, hv, hok⟩ := bind_inv.1 _ _ hok
    obtain ⟨rfl, -⟩ := readCheck_ok hv
    cases hok
    rw [readCheck_value hb hv]
    rfl
  · exact absurd rfl ht

/-- Settles O60, by the value that a successful XHCS or XFCS writes. -/
theorem checksumFieldsAreLowByteFirst : Obligations.ChecksumFieldsAreLowByteFirst := by
  refine ⟨swap16_be16_toNat, fun s t hb h ht => ⟨_, ?_, swap16_be16_toNat _ _⟩,
    fun s t hb h ht => ⟨_, ?_, swap16_be16_toNat _ _⟩⟩
  · exact congrArg Fields.hcs (checkOp_next (fun v f => { f with hcs := some v }) hb ht h)
  · exact congrArg Fields.fcs (checkOp_next (fun v f => { f with fcs := some v }) hb ht h)

end Sys2Proof.Machine

/-! ### The control-byte table and the ordered list (30_encoding.md R70, 43_control_classifier.md R141, R152) -/

namespace Sys2Proof.Machine

/-! #### The table as a list of tests -/

/-- The class that the first matching row of `rows` gives (R70). -/
def classInRows (rows : List ClassRow) (c : Byte) : FrameClass :=
  ((rows.find? (fun row => rowMatches row c)).map ClassRow.cls).getD .none

theorem classByTable_eq_classInRows (c : Byte) : classByTable c = classInRows classRows c := by
  unfold classByTable classInRows
  cases classRows.find? (fun row => rowMatches row c) <;> rfl

@[simp] theorem classInRows_nil (c : Byte) : classInRows [] c = .none := rfl

@[simp] theorem classInRows_cons (row : ClassRow) (rows : List ClassRow) (c : Byte) :
    classInRows (row :: rows) c = if rowMatches row c then row.cls else classInRows rows c := by
  unfold classInRows
  split
  case isTrue h => simp only [List.find?_cons, h, Option.map_some, Option.getD_some]
  case isFalse h => simp only [List.find?_cons, h]

theorem rowMatches_iff_toNat {row : ClassRow} {c : Byte} :
    rowMatches row c = true ↔ (c &&& row.mask).toNat = row.value.toNat := by
  rw [rowMatches, beq_iff_eq, BitVec.toNat_inj]

/-- What the three masks of the table keep: bit 0, the low nibble, and all but poll/final (R70). -/
theorem classMasks_toNat : ∀ c : Byte, (c &&& 0x01#8).toNat = c.toNat % 2 ∧ (c &&& 0x0F#8).toNat = c.toNat % 16 ∧
    (c &&& 0xEF#8).toNat = c.toNat / 32 * 32 + c.toNat % 16 := by decide

/-- Test for test, a row of the table asks of an odd byte what the ordered list asks of `receive` and `send`. -/
theorem classByTable_eq_classify (c : Byte) :
    classByTable c = classify (c.toNat % 2) (c.toNat / 32 * 32) (c.toNat / 2 % 8 * 2) := by
  obtain ⟨hlsb, hlow, hfull⟩ := classMasks_toNat c
  simp only [classByTable_eq_classInRows, classRows, classInRows_cons, classInRows_nil, rowMatches_iff_toNat, classify,
    hlsb, hlow, hfull, BitVec.toNat_ofNat]
  by_cases h : c.toNat % 2 = 0
  · rw [if_pos h, if_pos h]
  · rw [if_neg h, if_neg h]
    iterate 8 refine if_congr (by omega) rfl ?_
    rfl

theorem classifyByte_eq_classByTable (c : Byte) : classifyByte c = classByTable c := by
  obtain ⟨hlsb, hreceive, hsend⟩ := controlParts_toNat c
  rw [classByTable_eq_classify, classifyByte, hlsb, hreceive, hsend]

/-! #### The rows are disjoint -/

/-- Two rows that ask for different values on the bits that both of them keep. -/
def RowsDisagree (a b : ClassRow) : Prop := a.value &&& b.mask ≠ b.value &&& a.mask

theorem RowsDisagree.not_both_match {a b : ClassRow} (h : RowsDisagree a b) {c : Byte} (ha : rowMatches a c = true)
    (hb : rowMatches b c = true) : False := by
  rw [rowMatches, beq_iff_eq] at ha hb
  apply h
  rw [← ha, ← hb, BitVec.and_assoc, BitVec.and_assoc, BitVec.and_comm a.mask]

theorem classRows_disagree : classRows.Pairwise RowsDisagree := by
  unfold RowsDisagree
  decide

theorem matchingRows_length_le_one (c : Byte) : (classRows.filter (fun row => rowMatches row c)).length ≤ 1 := by
  have hpair : (classRows.filter (fun row => rowMatches row c)).Pairwise fun _ _ => False :=
    List.pairwise_filter.2 (classRows_disagree.imp fun h => h.not_both_match)
  match classRows.filter (fun row => rowMatches row c), hpair with
  | [], _ => exact Nat.zero_le 1
  | [_], _ => exact Nat.le_refl 1
  | a :: b :: _, h => exact (List.rel_of_pairwise_cons h List.mem_cons_self).elim

/-! #### Poll/final does not matter (R152) -/

/-- No mask of the table keeps bit 4. -/
theorem rowMatches_flip_pf {row : ClassRow} (h : row ∈ classRows) (c : Byte) :
    rowMatches row (c ^^^ 0x10#8) = rowMatches row c := by
  have hmask : ∀ row ∈ classRows, 0x10#8 &&& row.mask = 0#8 := by decide
  have hkept : (c ^^^ 0x10#8) &&& row.mask = c &&& row.mask :=
    calc (c ^^^ 0x10#8) &&& row.mask = (c &&& row.mask) ^^^ (0x10#8 &&& row.mask) := by
          ext i hi
          simp only [BitVec.getElem_and, BitVec.getElem_xor, Bool.and_xor_distrib_right]
      _ = c &&& row.mask := by rw [hmask row h, BitVec.xor_zero]
  rw [rowMatches, rowMatches, hkept]

theorem classByTable_flip_pf (c : Byte) : classByTable (c ^^^ 0x10#8) = classByTable c := by
  rw [classByTable, classByTable, List.find?_congr fun _ h => rowMatches_flip_pf h c]

/-- Settles O30: the table is the list test for test, its rows disagree in pairs, and no mask keeps poll/final. -/
theorem classTableIsTheOrderedList : Obligations.ClassTableIsTheOrderedList := by
  refine ⟨classByTable_eq_classify, matchingRows_length_le_one, fun c => ?_⟩
  rw [classifyByte_eq_classByTable, classifyByte_eq_classByTable, classByTable_flip_pf]

end Sys2Proof.Machine

/-! ### The Frame Reader on its own (40_frame_reader.md R91 to R94) -/

namespace Sys2Proof.Machine

/-! #### What the operations answer on a buffer that is known -/

/-- `RD` with enough bytes left (R91). -/
theorem rd_of_le {s : State} {count : Nat} (h : bufferOk s) (hc : s.cur + count ≤ s.n) :
    rd count s = .ok (slice s s.cur count) (s.setCur (s.cur + count)) := by
  rw [rd, if_neg (Nat.not_lt.2 hc), memRead_ok h s.cur count hc]

/-- `RD` with too few bytes left consumes nothing (R91, 92_eei_decisions.md D9). -/
theorem rd_of_lt {s : State} {count : Nat} (hc : s.n < s.cur + count) :
    rd count s = .raised (.underrun s.cur count (s.n - s.cur)) s := if_pos hc

/-- `RAW` on its domain (R93). -/
theorem raw_of_le {s : State} {a b : Nat} (h : bufferOk s) (hab : a ≤ b) (hb : b ≤ s.cur) (hn : s.cur ≤ s.n) :
    raw a b s = .ok (slice s a (b - a)) s := by
  rw [raw, if_pos ⟨hab, hb⟩, memRead_ok h a (b - a) (by omega)]

/-- Settles O7: the two ends of `RD`, told apart by how many bytes are left. -/
theorem rdReadsOrUnderruns : Obligations.RdReadsOrUnderruns := by
  intro count s h hcur
  change (_ → finish (rd count s) _ = _) ∧ (_ → finish (rd count s) _ = _)
  refine ⟨fun hc => ?_, fun hc => ?_⟩
  · rw [rd_of_le h (by omega)]
    rfl
  · rw [rd_of_lt (by omega)]
    rfl

/-- Settles O8: the operation is this one update. -/
theorem cntGivesTheCursor : Obligations.CntGivesTheCursor := fun _ => rfl

/-- Settles O9, by what `RAW` answers on its domain. -/
theorem rawGivesTheRange : Obligations.RawGivesTheRange := by
  intro a b s h hab hb hn
  change finish (raw a b s) _ = _
  rw [raw_of_le h hab hb hn]
  rfl

/-! #### What the operations write -/

/-- An `RD` that answers a next state took `count` bytes, or raised with nothing consumed (R91). -/
theorem execRd_next {count : Nat} {s t : State} (h : execRd count s = .next t) :
    (∃ v, t = (s.setCur (s.cur + count)).returns v) ∨ ∃ e, t = raise e s := by
  obtain ⟨bs, u, hr, rfl⟩ | ⟨e, u, hr, rfl⟩ := finish_next h
  · obtain ⟨rfl, -⟩ := rd_ok hr
    exact .inl ⟨_, rfl⟩
  · obtain ⟨rfl, -⟩ := rd_raised hr
    exact .inr ⟨e, rfl⟩

/-- A `RAW` that answers a next state only gives back a value (R93). -/
theorem execRaw_next {a b : Nat} {s t : State} (h : execRaw a b s = .next t) : ∃ v, t = s.returns v := by
  obtain ⟨bs, u, hr, rfl⟩ | ⟨e, u, hr, -⟩ := finish_next h
  · obtain ⟨rfl, -⟩ := raw_inv.1 _ _ hr
    exact ⟨_, rfl⟩
  · exact absurd hr (raw_inv.2 e u)

/-- A checksum comparison passed and wrote nothing, or raised (44_checksum_length_validators.md R162). -/
theorem vchkWith_next {ck : List Byte → Half} {kind : CkKind} {v : Half} {range : List Byte} {pos : Nat} {s t : State}
    (h : vchkWith ck kind v range pos s = .next t) : t = s ∨ ∃ e, t = raise e s := by
  unfold vchkWith at h
  split at h <;> cases h
  · exact .inr ⟨_, rfl⟩
  · exact .inl rfl

/-- A `RESULT` that answers a next state only gives back a value (45_sequencer_assembler_host.md R197). -/
theorem execResult_next {r : Reg} {s t : State} (h : execResult r s = .next t) : ∃ v, t = s.returns v := by
  unfold execResult at h
  split at h
  · split at h <;> cases h
    exact ⟨_, rfl⟩
  · cases h

/-- What stays from `s` to `t` where an operation outside the phases runs: all but the value given back, the cursor where
`moves` allows it to go on, or what taking an error writes. -/
def ReaderFrame (moves : Prop) (s t : State) : Prop :=
  t.mem = s.mem ∧ t.n = s.n ∧ t.pending = s.pending ∧ s.cur ≤ t.cur ∧
    ((t.phase = s.phase ∧ t.f = s.f ∧ t.err = s.err ∧ (moves ∨ t.cur = s.cur)) ∨
     (t.phase = .error ∧ t.f = Fields.empty ∧ t.cur = s.cur ∧ ∃ e, t = raise e s))

theorem readerFrame_self (moves : Prop) (s : State) : ReaderFrame moves s s :=
  ⟨rfl, rfl, rfl, le_rfl, .inl ⟨rfl, rfl, rfl, .inr rfl⟩⟩

theorem readerFrame_returns (moves : Prop) (s : State) (v : Value) : ReaderFrame moves s (s.returns v) :=
  ⟨rfl, rfl, rfl, le_rfl, .inl ⟨rfl, rfl, rfl, .inr rfl⟩⟩

theorem readerFrame_reads {moves : Prop} (hm : moves) {s : State} {c : Nat} (hc : s.cur ≤ c) (v : Value) :
    ReaderFrame moves s ((s.setCur c).returns v) :=
  ⟨rfl, rfl, rfl, hc, .inl ⟨rfl, rfl, rfl, .inl hm⟩⟩

theorem readerFrame_raise (moves : Prop) (s : State) (e : DecodeError) : ReaderFrame moves s (raise e s) :=
  ⟨rfl, rfl, rfl, le_rfl, .inr ⟨rfl, rfl, rfl, e, rfl⟩⟩

/-- A checksum comparison has the frame (R162 to R164). -/
theorem vchkWith_frame (moves : Prop) {ck : List Byte → Half} {kind : CkKind} {v : Half} {range : List Byte} {pos : Nat}
    {s t : State} (h : vchkWith ck kind v range pos s = .next t) : ReaderFrame moves s t := by
  obtain rfl | ⟨e, rfl⟩ := vchkWith_next h
  · exact readerFrame_self moves t
  · exact readerFrame_raise moves s e

/-- Settles O49, by the ends of each of the six operations. -/
theorem readerComparisonAndResultFrame : Obligations.ReaderComparisonAndResultFrame := by
  intro i s t count a b pos v range r hi h
  change ReaderFrame (i = .rd count) s t
  simp only [List.mem_cons, List.not_mem_nil, or_false] at hi
  obtain rfl | rfl | rfl | rfl | rfl | rfl := hi
  · obtain ⟨w, rfl⟩ | ⟨e, rfl⟩ := execRd_next h
    · exact readerFrame_reads rfl (Nat.le_add_right _ _) w
    · exact readerFrame_raise _ s e
  · cases h
    exact readerFrame_returns _ s _
  · obtain ⟨w, rfl⟩ := execRaw_next h
    exact readerFrame_returns _ s w
  · exact vchkWith_frame _ h
  · exact vchkWith_frame _ h
  · obtain ⟨w, rfl⟩ := execResult_next h
    exact readerFrame_returns _ s w

/-! #### The cursor never goes back (R94) -/

theorem moved_cur_le {s t : State} (h : Moved s t) : s.cur ≤ t.cur := by
  obtain ⟨c, hc, -, rfl⟩ := h
  exact hc

/-- Settles O51: of the ends of an operation, only those of the three that begin anew do not come from reads. -/
theorem cursorNeverGoesBack : Obligations.CursorNeverGoesBack := by
  refine fun i s t h => ⟨fun hload hstart hdecode => ?_, exec_pending h⟩
  cases exec_end h with
  | gives | passes => exact le_rfl
  | reads _ u v hu => exact (moved_cur_le hu :)
  | raises _ u e hu => exact (moved_cur_le hu :)
  | phases _ c q g hp hu he => exact (moved_cur_le hu :)
  | calls => exact absurd rfl hdecode
  | loads bytes => exact absurd rfl (hload bytes)
  | starts => exact absurd rfl hstart

end Sys2Proof.Machine

/-! ### The Field Extractors (41_field_extractors.md R100 to R110) -/

namespace Sys2Proof.Machine

/-! #### What every extractor does in its phase -/

/-- Every phase operation is a body that runs in its own phase alone (R100, R180). -/
theorem exec_eq_phaseOp {i : Instr} {p : Phase} (hp : ownPhase i = some p) :
    ∃ mn body, ∀ s, exec i s = phaseOp p mn body s := by
  cases i <;> simp only [ownPhase, Option.some.injEq, reduceCtorEq] at hp <;> subst hp <;>
    exact ⟨_, _, fun _ => rfl⟩

/-- In phase `p` the operation `i` reads with `read`, writes what `put` says of the value read, and goes on to `q`. -/
def Extracts {α : Type} (i : Instr) (p q : Phase) (read : State → Res α) (put : α → Fields → Fields) : Prop :=
  ∀ s, s.phase = p → exec i s = finish (read s) (fun a t => (t.setF (put a t.f)).setPhase q)

theorem extracts_of_phaseOp {α : Type} {i : Instr} {p q : Phase} {mn : String} {read : State → Res α}
    {put : α → Fields → Fields}
    (h : ∀ s, exec i s = phaseOp p mn (fun s => (read s).bind (fun a t => .ok q (t.setF (put a t.f)))) s) :
    Extracts i p q read put := by
  intro s hp
  rw [h s, phaseOp_in hp]
  cases read s <;> rfl

theorem xflagO_extracts : Extracts .xflagO .flagO .ffmt readFlag (fun b f => { f with flag := some b }) :=
  extracts_of_phaseOp fun _ => rfl

theorem xffmt_extracts : Extracts .xffmt .ffmt .dest rdHalf
    (fun w f => { f with len := some (flen w), seg := some (fseg w), fmtType := some (ftype w) }) :=
  extracts_of_phaseOp fun _ => rfl

theorem xaddrD_extracts : Extracts .xaddrD .dest .src (readAddr Config.addrMax [])
    (fun bs f => { f with dest := addrRegs bs }) :=
  extracts_of_phaseOp fun _ => rfl

theorem xaddrS_extracts : Extracts .xaddrS .src .ctrl (readAddr Config.addrMax [])
    (fun bs f => { f with src := addrRegs bs }) :=
  extracts_of_phaseOp fun _ => rfl

theorem xctrl_extracts : Extracts .xctrl .ctrl .hcs rdByte controlFields :=
  extracts_of_phaseOp fun _ => rfl

theorem xhcs_extracts : Extracts .xhcs .hcs .ilen (readCheck Config.ck .hcs) (fun v f => { f with hcs := some v }) :=
  extracts_of_phaseOp fun _ => rfl

theorem xfcs_extracts : Extracts .xfcs .fcs .vlen (readCheck Config.ck .fcs) (fun v f => { f with fcs := some v }) :=
  extracts_of_phaseOp fun _ => rfl

theorem xflagC_extracts : Extracts .xflagC .flagC .asm readFlag (fun b f => { f with flagEnd := some b }) :=
  extracts_of_phaseOp fun _ => rfl

section

variable {α : Type} {i : Instr} {p q : Phase} {read : State → Res α} {put : α → Fields → Fields} {s : State}

/-- An extractor whose read succeeds has its registers written (R110). -/
theorem Extracts.next_of_ok (hx : Extracts i p q read put) (hp : s.phase = p) {a : α} {c : Nat}
    (h : read s = .ok a (s.setCur c)) : exec i s = .next (((s.setCur c).setF (put a s.f)).setPhase q) := by
  rw [hx s hp, h]
  rfl

/-- An extractor whose read raises takes the error (60_exceptions.md R213). -/
theorem Extracts.next_of_raised (hx : Extracts i p q read put) (hp : s.phase = p) {e : DecodeError} {u : State}
    (h : read s = .raised e u) : exec i s = .next (raise e u) := by
  rw [hx s hp, h]
  rfl

end

/-! #### The flags (R101, R109) -/

/-- The Flag Extractor at either end of the frame. -/
theorem Extracts.flag {i : Instr} {p q : Phase} {put : Byte → Fields → Fields} {s : State}
    (hx : Extracts i p q readFlag put) (hb : bufferOk s) (hp : s.phase = p) :
    (s.cur < s.n → byteAt s s.cur = 0x7E#8 →
      exec i s = .next (((s.setCur (s.cur + 1)).setF (put 0x7E#8 s.f)).setPhase q)) ∧
    (s.cur < s.n → byteAt s s.cur ≠ 0x7E#8 →
      exec i s = .next (raise (.frameGuard s.cur (byteAt s s.cur)) (s.setCur (s.cur + 1)))) ∧
    (s.cur = s.n → exec i s = .next (raise (.underrun s.cur 1 0) s)) := by
  obtain ⟨htaken, hguarded, hend⟩ := readFlag_eq hb
  exact ⟨fun hc hflag => hx.next_of_ok hp (htaken hc hflag),
    fun hc hother => hx.next_of_raised hp (hguarded hc hother),
    fun hc => hx.next_of_raised hp (hend hc)⟩

/-- Settles O10: XFLAG.O is the Flag Extractor that writes `F.FLAG`. -/
theorem openingFlagIsTakenOrGuarded : Obligations.OpeningFlagIsTakenOrGuarded :=
  fun _ hb hp _ => xflagO_extracts.flag hb hp

/-- Settles O11: XFLAG.C is the Flag Extractor that writes `F.FLAG_END`. -/
theorem closingFlagIsTakenOrGuarded : Obligations.ClosingFlagIsTakenOrGuarded :=
  fun _ hb hp _ => xflagC_extracts.flag hb hp

/-! #### The frame format (R102) -/

/-- Settles O12: the word read has the value `w`, and each field of it is arithmetic on `w`. -/
theorem frameFormatIsUnpacked : Obligations.FrameFormatIsUnpacked := by
  intro s hb hp _
  obtain ⟨hword, hend⟩ := rdHalf_eq hb
  refine ⟨?_, fun hc => xffmt_extracts.next_of_raised hp (hend hc)⟩
  rintro hc _ rfl
  rw [xffmt_extracts.next_of_ok hp (hword hc), flen_eq_ofNat, fseg_eq_ofNat, ftype_eq_ofNat, be16_toNat]
  rfl

/-! #### The addresses (R103, R104) -/

theorem byteAt_setCur (c k : Nat) (s : State) : byteAt (s.setCur c) k = byteAt s k := rfl

theorem slice_setCur (c a k : Nat) (s : State) : slice (s.setCur c) a k = slice s a k := rfl

theorem slice_getD {s : State} {a k count : Nat} (hk : k < count) :
    (slice s a count).getD k 0#8 = byteAt s (a + k) := by
  rw [slice, byteAt, List.getD_eq_getElem?_getD, List.getElem?_take_of_lt hk, List.getElem?_drop,
    List.getD_eq_getElem?_getD]

/-- A window of at least one byte begins with the byte at its offset. -/
theorem slice_succ {s : State} (hb : bufferOk s) {a : Nat} (ha : a < s.n) (count : Nat) :
    slice s a (count + 1) = byteAt s a :: slice s (a + 1) count := by
  have ha' : a < (buffer s).length := by rwa [buffer_length hb]
  rw [slice, List.drop_eq_getElem_cons ha', List.take_succ_cons, byteAt, List.getD_eq_getElem _ _ ha', slice]

/-- One round of the address loop (R103). -/
theorem readAddr_succ {s : State} (hb : bufferOk s) (hc : s.cur < s.n) (fuel : Nat) (acc : List Byte) :
    readAddr (fuel + 1) acc s =
      if astop (byteAt s s.cur) = 1#1 then .ok (acc ++ [byteAt s s.cur]) (s.setCur (s.cur + 1))
      else readAddr fuel (acc ++ [byteAt s s.cur]) (s.setCur (s.cur + 1)) := by
  rw [readAddr, (rdByte_eq hb).1 hc, bind_ok]

/-- A field of `count + 1` bytes with a stop bit in none but its last, which may lack it where no more is to be read, is
taken whole (R103). -/
theorem readAddr_takes {fuel count : Nat} {acc : List Byte} {s : State} (hb : bufferOk s)
    (hn : s.cur + count < s.n) (hfuel : count < fuel)
    (hgo : ∀ k < count, astop (byteAt s (s.cur + k)) = 0#1)
    (hstop : count + 1 < fuel → astop (byteAt s (s.cur + count)) = 1#1) :
    readAddr fuel acc s = .ok (acc ++ slice s s.cur (count + 1)) (s.setCur (s.cur + (count + 1))) := by
  induction count generalizing fuel acc s with
  | zero =>
    obtain ⟨fuel, rfl⟩ := Nat.exists_eq_add_one.2 hfuel
    have hone : slice s s.cur 1 = [byteAt s s.cur] := slice_succ hb hn 0
    rw [readAddr_succ hb hn, hone]
    split
    · rfl
    · next hbit =>
      obtain rfl : fuel = 0 := by
        by_contra hne
        exact hbit (hstop (by omega))
      rfl
  | succ count ih =>
    obtain ⟨fuel, rfl⟩ := Nat.exists_eq_add_one.2 (Nat.zero_lt_of_lt hfuel)
    have hc : s.cur < s.n := by omega
    have hfirst : astop (byteAt s s.cur) ≠ 1#1 := by
      rw [show astop (byteAt s s.cur) = 0#1 from hgo 0 (Nat.zero_lt_succ count)]
      decide
    have hshift : ∀ k, s.cur + 1 + k = s.cur + (k + 1) := fun k => by omega
    have hrest : readAddr fuel (acc ++ [byteAt s s.cur]) (s.setCur (s.cur + 1)) =
        .ok (acc ++ [byteAt s s.cur] ++ slice s (s.cur + 1) (count + 1)) (s.setCur (s.cur + 1 + (count + 1))) := by
      refine ih (s := s.setCur (s.cur + 1)) hb ?_ (by omega) (fun k hk => ?_) (fun hlt => ?_)
      · simp only [setCur_cur, setCur_n]
        omega
      · simpa only [byteAt_setCur, setCur_cur, hshift] using hgo (k + 1) (by omega)
      · simpa only [byteAt_setCur, setCur_cur, hshift] using hstop (by omega)
    rw [readAddr_succ hb hc, if_neg hfirst, hrest, slice_succ hb hc, List.append_assoc, hshift]
    rfl

/-- A buffer that ends before the field does (R103, R215). -/
theorem readAddr_underruns {fuel : Nat} {acc : List Byte} {s : State} (hb : bufferOk s) (hc : s.cur ≤ s.n)
    (hfuel : s.n < s.cur + fuel) (hgo : ∀ k, s.cur ≤ k → k < s.n → astop (byteAt s k) = 0#1) :
    readAddr fuel acc s = .raised (.underrun s.n 1 0) (s.setCur s.n) := by
  induction fuel generalizing acc s with
  | zero => omega
  | succ fuel ih =>
    obtain hend | hlt := Nat.eq_or_lt_of_le hc
    · rw [readAddr, (rdByte_eq hb).2 hend.ge, bind_raised, ← hend, Nat.sub_self, setCur_self]
    · have hfirst : astop (byteAt s s.cur) ≠ 1#1 := by
        rw [hgo s.cur le_rfl hlt]
        decide
      rw [readAddr_succ hb hlt, if_neg hfirst]
      refine ih (s := s.setCur (s.cur + 1)) hb hlt ?_ (fun k hk => hgo k (Nat.le_of_succ_le hk))
      simp only [setCur_cur, setCur_n]
      omega

/-- An address field at the cursor is what the address loop reads (R103). -/
theorem readAddr_field {s : State} {bs : List Byte} (hb : bufferOk s) (hf : addressField bs)
    (hn : s.cur + bs.length ≤ s.n) (hs : slice s s.cur bs.length = bs) :
    readAddr Config.addrMax [] s = .ok bs (s.setCur (s.cur + bs.length)) := by
  obtain ⟨hpos, hmax, hgo, hstop⟩ := hf
  have hbyte : ∀ k < bs.length, bs.getD k 0#8 = byteAt s (s.cur + k) := fun k hk => by
    rw [← slice_getD hk, hs]
  obtain ⟨count, hlen⟩ := Nat.exists_eq_add_one.2 hpos
  have htake := readAddr_takes (fuel := Config.addrMax) (count := count) (acc := []) hb (by omega)
    (show count < 4 by omega)
    (fun k hk => by rw [← hbyte k (by omega)]; exact hgo k (by omega))
    (fun h4 => by
      rw [← hbyte count (by omega), show count = bs.length - 1 by omega]
      exact hstop (lt_of_eq_of_lt hlen h4))
  rwa [← hlen, hs] at htake

/-- The Address Extractor for either address. -/
theorem Extracts.address {i : Instr} {p q : Phase} {put : List Byte → Fields → Fields} {s : State}
    (hx : Extracts i p q (readAddr Config.addrMax []) put) (hb : bufferOk s) (hp : s.phase = p) (hc : s.cur ≤ s.n) :
    (∀ bs : List Byte, addressField bs → s.cur + bs.length ≤ s.n → slice s s.cur bs.length = bs →
      exec i s = .next (((s.setCur (s.cur + bs.length)).setF (put bs s.f)).setPhase q)) ∧
    (s.n < s.cur + 4 → (∀ k, s.cur ≤ k → k < s.n → astop (byteAt s k) = 0#1) →
      exec i s = .next (raise (.underrun s.n 1 0) (s.setCur s.n))) :=
  ⟨fun _ hf hn hs => hx.next_of_ok hp (readAddr_field hb hf hn hs),
    fun hn hgo => hx.next_of_raised hp (readAddr_underruns hb hc hn hgo)⟩

/-- Settles O13: XADDR.D is the Address Extractor that writes `F.DEST`. -/
theorem destinationAddressIsTaken : Obligations.DestinationAddressIsTaken :=
  fun _ hb hp hc => xaddrD_extracts.address hb hp hc

/-- Settles O14: XADDR.S is the Address Extractor that writes `F.SRC`. -/
theorem sourceAddressIsTaken : Obligations.SourceAddressIsTaken :=
  fun _ hb hp hc => xaddrS_extracts.address hb hp hc

/-! #### The control byte (R105) -/

/-- The control fields as arithmetic on the byte. -/
theorem controlFields_eq_ofNat (b : Byte) (f : Fields) : controlFields b f = { f with
    lsb := some (BitVec.ofNat 1 (b.toNat % 2))
    pf := some (BitVec.ofNat 1 (b.toNat / 16 % 2))
    recv := some (BitVec.ofNat 8 (b.toNat / 32 * 32))
    send := some (BitVec.ofNat 8 (b.toNat / 2 % 8 * 2))
    cls := some (classify (b.toNat % 2) (b.toNat / 32 * 32) (b.toNat / 2 % 8 * 2)) } := by
  obtain ⟨hlsb, hrecv, hsend⟩ := controlParts_toNat b
  rw [controlFields, hlsb, hrecv, hsend, clsb_eq_ofNat, cpf_eq_ofNat, crecv_eq_ofNat, csend_eq_ofNat]

/-- Settles O15: the one byte read is split into the fields of the control byte. -/
theorem controlByteIsSplitAndClassified : Obligations.ControlByteIsSplitAndClassified := by
  intro s hb hp _
  obtain ⟨hbyte, hend⟩ := rdByte_eq hb
  refine ⟨?_, fun hc => ?_⟩
  · rintro hc _ rfl
    rw [xctrl_extracts.next_of_ok hp (hbyte hc), controlFields_eq_ofNat]
    rfl
  · rw [xctrl_extracts.next_of_raised hp (hend hc.ge), hc, Nat.sub_self]

/-! #### The checksums (R106, R108) -/

/-- The extractor of either checksum field. -/
theorem Extracts.checksum {i : Instr} {p q : Phase} {kind : CkKind} {put : Half → Fields → Fields} {s : State}
    (hx : Extracts i p q (readCheck Config.ck kind) put) (hb : bufferOk s) (hp : s.phase = p) (h1 : 1 ≤ s.cur) :
    (s.cur + 2 ≤ s.n → ∀ v : Half, v.toNat = (byteAt s s.cur).toNat + 256 * (byteAt s (s.cur + 1)).toNat →
      (Config.ck (slice s 1 (s.cur - 1)) = v →
        exec i s = .next (((s.setCur (s.cur + 2)).setF (put v s.f)).setPhase q)) ∧
      (Config.ck (slice s 1 (s.cur - 1)) ≠ v →
        exec i s =
          .next (raise (.checksum kind v (Config.ck (slice s 1 (s.cur - 1))) s.cur) (s.setCur (s.cur + 2))))) ∧
    (s.n < s.cur + 2 → exec i s = .next (raise (.underrun s.cur 2 (s.n - s.cur)) s)) := by
  obtain ⟨hfield, hend⟩ := readCheck_eq hb h1 kind
  refine ⟨fun hc v hv => ?_, fun hc => hx.next_of_raised hp (hend hc)⟩
  obtain ⟨hmatch, hmismatch⟩ := hfield hc v hv
  exact ⟨fun h => hx.next_of_ok hp (hmatch h), fun h => hx.next_of_raised hp (hmismatch h)⟩

/-- Settles O16: XHCS is the checksum extractor that writes `F.HCS`. -/
theorem headerChecksumIsCompared : Obligations.HeaderChecksumIsCompared :=
  fun _ hb hp h1 _ => xhcs_extracts.checksum hb hp h1

/-- Settles O17: XFCS is the checksum extractor that writes `F.FCS`. -/
theorem frameChecksumIsCompared : Obligations.FrameChecksumIsCompared :=
  fun _ hb hp h1 _ => xfcs_extracts.checksum hb hp h1

/-! #### The information (R107) -/

/-- XINFO in its phase is a read of the information, whose first offset it records. -/
theorem exec_xinfo {s : State} {k : Nat} (hp : s.phase = .info) (hk : s.f.infoN = some k) :
    exec .xinfo s = finish (rd k s) (fun _ t => (t.setF { t.f with infoOff := some s.cur }).setPhase .fcs) := by
  rw [show exec .xinfo s = execXinfo s from rfl, execXinfo, phaseOp_in hp, hk, readReg_some, bind_ok]
  cases rd k s <;> rfl

/-- Settles O18, by the two ends of the read of the information. -/
theorem informationIsPassedOver : Obligations.InformationIsPassedOver := by
  intro s k hb hp _ hk
  refine ⟨fun hc => ?_, fun hc => ?_⟩
  · rw [exec_xinfo hp hk, rd_of_le hb hc]
    rfl
  · rw [exec_xinfo hp hk, rd_of_lt hc]
    rfl

/-! #### The frame of a phase operation (R100, R110, R181) -/

/-- A phase operation that succeeds leads to a successor of its phase (R181). -/
theorem opEffect_successor {i : Instr} {s : State} {c : Nat} {p q : Phase} {g : Fields} (hp : ownPhase i = some p)
    (he : OpEffect i s c q g) : q ∈ successors p := by
  cases i <;> simp only [ownPhase, Option.some.injEq, reduceCtorEq] at hp <;> subst hp
  case ilen =>
    obtain ⟨-, len, -, ⟨-, rfl, -⟩ | ⟨-, rfl, -⟩⟩ := he <;> simp [successors]
  all_goals
    obtain ⟨rfl, -⟩ := he
    exact List.mem_singleton_self _

/-- A phase operation that succeeds writes only the registers that the write map names for it (R110). -/
theorem opEffect_writesOnly {i : Instr} {s : State} {c : Nat} {p q : Phase} {g : Fields} (hp : ownPhase i = some p)
    (he : OpEffect i s c q g) : writesOnly i s.f g := by
  cases i <;> simp only [ownPhase, Option.some.injEq, reduceCtorEq] at hp
  case xflagO | xflagC | asm =>
    obtain ⟨-, -, rfl⟩ := he
    rfl
  case vlen =>
    obtain ⟨-, -, rfl, -⟩ := he
    rfl
  case xffmt | xctrl =>
    obtain ⟨-, -, w, rfl⟩ := he
    rfl
  case xaddrD | xaddrS =>
    obtain ⟨-, bs, -, -, -, rfl⟩ := he
    rfl
  case xhcs | xfcs =>
    obtain ⟨-, -, v, -, rfl⟩ := he
    rfl
  case xinfo =>
    obtain ⟨-, k, -, -, rfl⟩ := he
    rfl
  case ilen =>
    obtain ⟨-, len, -, ⟨-, -, rfl⟩ | ⟨-, -, rfl⟩⟩ := he <;> rfl

/-- Settles O47, by the two ends of a phase operation. -/
theorem phaseOperationFrame : Obligations.PhaseOperationFrame := by
  intro i p s t hp h
  obtain ⟨-, ⟨c, q, g, hc, -, rfl, he⟩ | ⟨c, e, hc, -, rfl, -⟩⟩ := phaseOp_effect hp h
  · exact ⟨rfl, rfl, rfl, rfl, hc, .inl ⟨opEffect_successor hp he, rfl, opEffect_writesOnly hp he⟩⟩
  · exact ⟨rfl, rfl, rfl, rfl, hc, .inr ⟨rfl, rfl, e, rfl⟩⟩

/-- Settles O45: a phase operation is a body behind the test of its phase. -/
theorem phaseOperationRunsOnlyInItsPhase : Obligations.PhaseOperationRunsOnlyInItsPhase := by
  intro i p s hp hout
  obtain ⟨mn, body, hexec⟩ := exec_eq_phaseOp hp
  exact ⟨mn, by rw [hexec, phaseOp_out hout]⟩

end Sys2Proof.Machine

/-! ### The Bit-Field Decoders (42_bitfield_decoders.md R120 to R130) -/

namespace Sys2Proof.Machine

/-! #### Words (R121 to R124) -/

theorem be16_eq_ofNat (b0 b1 : Byte) : be16 b0 b1 = BitVec.ofNat 16 (b0.toNat * 256 + b1.toNat) := by
  rw [← be16_toNat, BitVec.ofNat_toNat, BitVec.setWidth_eq]

theorem swap16_eq_ofNat (v : Half) : swap16 v = BitVec.ofNat 16 (v.toNat % 256 * 256 + v.toNat / 256) := by
  rw [← swap16_toNat, BitVec.ofNat_toNat, BitVec.setWidth_eq]

/-- `SWAP16` is an involution (R122): the swapped value has the low octet as its quotient by 256 and the high octet as
its remainder. -/
@[simp] theorem swap16_swap16 (v : Half) : swap16 (swap16 v) = v := by
  apply BitVec.eq_of_toNat_eq
  have hv : v.toNat < 65536 := v.isLt
  rw [swap16_toNat, swap16_toNat]
  omega

/-- Settles O23: the operation gives back `be16` of its operands, which is that sum. -/
theorem be16IsBigEndian : Obligations.Be16IsBigEndian := by
  intro b0 b1 s
  rw [← be16_eq_ofNat]
  rfl

/-- Settles O24: the operation gives back `swap16` of its operand, and `swap16` is an involution. -/
theorem swap16ExchangesTheOctets : Obligations.Swap16ExchangesTheOctets := by
  refine fun v s => ⟨?_, swap16_swap16 v⟩
  rw [← swap16_eq_ofNat]
  rfl

/-- Settles O25: FLEN and FSEG give back `flen` and `fseg` of the word. -/
theorem lengthAndSegmentationAreTheirBits : Obligations.LengthAndSegmentationAreTheirBits := by
  intro w s
  rw [← flen_eq_ofNat, ← fseg_eq_ofNat]
  exact ⟨rfl, rfl⟩

/-! #### The format type (R125) -/

/-- Nibble 0xA is normalised (30_encoding.md R72). -/
theorem ftype_formatWord_typeA (x : BitVec 12) : ftype (formatWord 0xA#4 x) = 3#16 := by
  rw [ftype_eq_ofNat, formatWord_nibble]
  rfl

/-- Any other nibble stays in its place. -/
theorem ftype_formatWord_other {t : BitVec 4} (ht : t ≠ 0xA#4) (x : BitVec 12) :
    ftype (formatWord t x) = BitVec.ofNat 16 (t.toNat * 4096) := by
  have hnibble : t.toNat ≠ 10 := fun h => ht (BitVec.eq_of_toNat_eq h)
  rw [ftype_eq_ofNat, formatWord_nibble, if_neg hnibble]

/-- A word of another nibble is of the row `FTYPE.OTHER` (R125). -/
theorem execFtypeOther_of_ne {t : BitVec 4} (ht : t ≠ 0xA#4) (x : BitVec 12) (s : State) :
    execFtypeOther t x s = .next (s.returns (.half (ftype (formatWord t x)))) := if_neg ht

/-- Settles O26: all three operations give back `ftype`, of any word or of one whose nibble is known. -/
theorem formatTypeNormalisesOneNibble : Obligations.FormatTypeNormalisesOneNibble := by
  intro w t x s
  refine ⟨?_, ?_, fun ht => ?_⟩
  · rw [← ftype_eq_ofNat]
    rfl
  · rw [← ftype_formatWord_typeA x]
    rfl
  · rw [← ftype_formatWord_other ht x]
    exact execFtypeOther_of_ne ht x s

/-! #### Address and control bytes (R126 to R130) -/

/-- Settles O27: each operation gives back its field of the byte, and each field is arithmetic on the byte; ASTOP takes the
same bit of its byte as CLSB. -/
theorem byteFieldsAreTheirMasks : Obligations.ByteFieldsAreTheirMasks := by
  intro c s
  rw [← clsb_eq_ofNat, ← cpf_eq_ofNat, ← crecv_eq_ofNat, ← csend_eq_ofNat]
  exact ⟨rfl, rfl, rfl, rfl, rfl⟩

/-! #### Functions give back a value and do nothing else (R120, R140, R160) -/

/-- A classifier row that answers a next state only gives back its class (43_control_classifier.md R142 to R151). -/
theorem classRow_next {cls : FrameClass} {mn : String} {c : Byte} {s t : State} (h : classRow cls mn c s = .next t) :
    ∃ v, t = s.returns v := by
  unfold classRow at h
  split at h <;> cases h
  exact ⟨_, rfl⟩

/-- An `FTYPE.OTHER` that answers a next state only gives back a value (R125). -/
theorem execFtypeOther_next {y : BitVec 4} {x : BitVec 12} {s t : State} (h : execFtypeOther y x s = .next t) :
    ∃ v, t = s.returns v := by
  unfold execFtypeOther at h
  split at h <;> cases h
  exact ⟨_, rfl⟩

/-- Settles O46: a function is one update of `ret`, behind the test of its row where it has one. -/
theorem functionsOnlyGiveBack : Obligations.FunctionsOnlyGiveBack := by
  intro i s t hi h
  change ∃ v, t = s.returns v
  cases i
  case be16 | swap16 | flen | fseg | ftype | ftypeA | astop | clsb | cpf | crecv | csend | classify | cksum =>
    cases h
    exact ⟨_, rfl⟩
  case ftypeOther => exact execFtypeOther_next h
  case classifyI | classifySnrm | classifyDisc | classifyUa | classifyDm | classifyFrmr | classifyUi | classifyRnr |
      classifyRr | classifyNone => exact classRow_next h
  all_goals cases hi

end Sys2Proof.Machine

/-! ### The Control-Type Classifier (43_control_classifier.md R141 to R151) -/

namespace Sys2Proof.Machine

/-! #### The ordered list, an equation per class (R141)

The rows of the list exclude each other, so that each class has its condition on the three numbers without regard to the
order. -/

section
variable {lsb receive send : Nat}

theorem classify_i (hl : lsb = 0) : classify lsb receive send = .i := if_pos hl

theorem classify_snrm (hl : lsb ≠ 0) (hr : receive = 0x80) (hs : send = 0x2) : classify lsb receive send = .snrm := by
  simp [classify, hl, hr, hs]

theorem classify_disc (hl : lsb ≠ 0) (hr : receive = 0x40) (hs : send = 0x2) : classify lsb receive send = .disc := by
  simp [classify, hl, hr, hs]

theorem classify_ua (hl : lsb ≠ 0) (hr : receive = 0x60) (hs : send = 0x2) : classify lsb receive send = .ua := by
  simp [classify, hl, hr, hs]

theorem classify_dm (hl : lsb ≠ 0) (hr : receive = 0x00) (hs : send = 0xE) : classify lsb receive send = .dm := by
  simp [classify, hl, hr, hs]

theorem classify_frmr (hl : lsb ≠ 0) (hr : receive = 0x80) (hs : send = 0x6) : classify lsb receive send = .frmr := by
  simp [classify, hl, hr, hs]

theorem classify_ui (hl : lsb ≠ 0) (hr : receive = 0x00) (hs : send = 0x2) : classify lsb receive send = .ui := by
  simp [classify, hl, hr, hs]

theorem classify_rnr (hl : lsb ≠ 0) (hs : send = 0x4) : classify lsb receive send = .rnr := by
  simp [classify, hl, hs]

theorem classify_rr (hl : lsb ≠ 0) (hs : send = 0x0) : classify lsb receive send = .rr := by
  simp [classify, hl, hs]

/-- The complement of the nine tests. -/
theorem classify_none (hl : lsb ≠ 0) (h4 : send ≠ 0x4) (h0 : send ≠ 0x0)
    (h2 : send = 0x2 → receive ≠ 0x80 ∧ receive ≠ 0x40 ∧ receive ≠ 0x60 ∧ receive ≠ 0x00)
    (hE : send = 0xE → receive ≠ 0x00) (h6 : send = 0x6 → receive ≠ 0x80) : classify lsb receive send = .none := by
  unfold classify
  iterate 9 rw [if_neg (by omega)]

end

/-- Settles O28: the class given back is `classify` of the three numbers, whatever they are. -/
theorem classifyFollowsTheOrderedList : Obligations.ClassifyFollowsTheOrderedList :=
  fun lsb receive send _ => ⟨classify lsb receive send, rfl, classify_i, classify_snrm, classify_disc, classify_ua,
    classify_dm, classify_frmr, classify_ui, classify_rnr, classify_rr, classify_none⟩

/-! #### The rows on the bytes of their patterns (R142 to R151) -/

section
variable (r : BitVec 3) (p : BitVec 1) (k : BitVec 3) (l : BitVec 1)

/-- The three inputs of the classifier on a control byte given by its fields (R64, R140). -/
theorem ctrlByte_parts_toNat : (clsb (ctrlByte r p k l)).toNat = l.toNat ∧
    (crecv (ctrlByte r p k l)).toNat = r.toNat * 32 ∧ (csend (ctrlByte r p k l)).toNat = k.toNat * 2 := by
  decide +revert

theorem classifyByte_ctrlByte :
    classifyByte (ctrlByte r p k l) = classify l.toNat (r.toNat * 32) (k.toNat * 2) := by
  obtain ⟨hlsb, hreceive, hsend⟩ := ctrlByte_parts_toNat r p k l
  rw [classifyByte, hlsb, hreceive, hsend]

end

/-- A row gives back its class on every byte whose fields the ordered list gives that class. -/
theorem classRow_ctrlByte {cls : FrameClass} {mn : String} {r : BitVec 3} {p : BitVec 1} {k : BitVec 3} {l : BitVec 1}
    {s : State} (h : classify l.toNat (r.toNat * 32) (k.toNat * 2) = cls) :
    classRow cls mn (ctrlByte r p k l) s = .next (s.returns (.cls cls)) :=
  if_pos ((classifyByte_ctrlByte r p k l).trans h)

/-- Settles O29: the fields that a row's pattern fixes meet the condition of its class. -/
theorem classifierRowsGiveTheirClass : Obligations.ClassifierRowsGiveTheirClass := by
  have hodd : (1#1).toNat ≠ 0 := Nat.one_ne_zero
  refine fun r k p s => ⟨classRow_ctrlByte (classify_i rfl), classRow_ctrlByte (classify_snrm hodd rfl rfl),
    classRow_ctrlByte (classify_disc hodd rfl rfl), classRow_ctrlByte (classify_ua hodd rfl rfl),
    classRow_ctrlByte (classify_dm hodd rfl rfl), classRow_ctrlByte (classify_frmr hodd rfl rfl),
    classRow_ctrlByte (classify_ui hodd rfl rfl), classRow_ctrlByte (classify_rnr hodd rfl),
    classRow_ctrlByte (classify_rr hodd rfl), fun hother => classRow_ctrlByte ?_⟩
  obtain ⟨h4, h0, h2, hE, h6⟩ := hother
  apply classify_none hodd <;> bv_omega

end Sys2Proof.Machine

/-! ### The Checksum and Length Validator (44_checksum_length_validators.md R160 to R169) -/

namespace Sys2Proof.Machine

/-! #### The two tests of the declared length (R165 to R167) -/

section
variable {s : State} {len : BitVec 11}

/-- What ILEN answers in its phase: a header-only frame where the declared length is the count of bytes after the opening
flag, LengthError where no information length is left for it, a payload otherwise. -/
theorem exec_ilen (hp : s.phase = .ilen) (hl : s.f.len = some len) : exec .ilen s =
    if (len.toNat : Int) = (s.cur : Int) - 1 then .next ((s.setF { s.f with payload := some 0#1 }).setPhase .flagC)
    else if (len.toNat : Int) - 1 - (s.cur : Int) < 0 then .next (raise (lengthError len s) s)
    else .next ((s.setF { s.f with
      payload := some 1#1, infoN := some ((len.toNat : Int) - 1 - (s.cur : Int)).toNat }).setPhase .info) := by
  rw [show exec .ilen s = execIlen s from rfl, execIlen, phaseOp_in hp, hl, readReg_some, bind_ok]
  split
  · rfl
  · dsimp only
    split <;> rfl

/-- What VLEN answers in its phase, where the declared length is the count of bytes after the opening flag and where it is
not. -/
theorem exec_vlen (hp : s.phase = .vlen) (hl : s.f.len = some len) : exec .vlen s =
    if (len.toNat : Int) ≠ (s.cur : Int) - 1 then .next (raise (lengthError len s) s)
    else .next (s.setPhase .flagC) := by
  rw [show exec .vlen s = execVlen s from rfl, execVlen, phaseOp_in hp, hl, readReg_some, bind_ok]
  split <;> rfl

end

/-- Settles O19: with `CUR = H + 1` the three branches of ILEN are the three cases of `F.LEN` against `H`. -/
theorem payloadTestHasThreeOutcomes : Obligations.PayloadTestHasThreeOutcomes := by
  intro s len h hp hl hc
  rw [exec_ilen hp hl]
  refine ⟨fun heq => ?_, fun hge => ?_, fun hout => ?_⟩
  · rw [if_pos (by omega)]
    rfl
  · have hinfo : ((len.toNat : Int) - 1 - (s.cur : Int)).toNat = len.toNat - h - 2 := by omega
    rw [if_neg (by omega), if_neg (by omega), hinfo]
    rfl
  · have hcount : s.cur - 1 = h := by omega
    rw [if_neg (by omega), if_pos (by omega), lengthError, hcount]

/-- Settles O20: from `CUR >= 1` on, the comparison of integers is that of natural numbers. -/
theorem lengthValidatorComparesTheCount : Obligations.LengthValidatorComparesTheCount := by
  intro s len hp hl hc
  rw [exec_vlen hp hl]
  refine ⟨fun heq => ?_, fun hne => ?_⟩
  · rw [if_neg (by omega)]
    rfl
  · rw [if_pos (by omega)]
    rfl

/-- Settles O58: in `P_VLEN` of a run the declared length is held, and the cursor stands that many bytes after the opening
flag. -/
theorem lengthValidatorPassesOnThePath : Obligations.LengthValidatorPassesOnThePath := by
  intro s hs hp
  have hheld : s.f.len.isSome = true := by
    rw [hs.inv.held.len, hp]
    rfl
  obtain ⟨len, hl⟩ := Option.isSome_iff_exists.1 hheld
  have hpos : positionOk .vlen s.f s.cur := hp ▸ hs.position
  have hcur : s.cur = len.toNat + 1 := hpos len hl
  exact (lengthValidatorComparesTheCount s len hp hl (by omega)).1 (by omega)

/-! #### The Checksum Engine and the two comparisons (R160 to R164) -/

/-- Settles O21: the operation is this one update. -/
theorem cksumGivesTheChecksum : Obligations.CksumGivesTheChecksum := fun _ _ => rfl

section
variable {ck : List Byte → Half} {embedded : Half} {range : List Byte}

/-- A comparison of equal values writes nothing (R162). -/
theorem vchkWith_of_eq (h : ck range = embedded) (kind : CkKind) (pos : Nat) (s : State) :
    vchkWith ck kind embedded range pos s = .next s := by
  rw [vchkWith, checkSum, if_neg (not_not.2 h)]

/-- A comparison of different values raises (R162, 60_exceptions.md R216). -/
theorem vchkWith_of_ne (h : ck range ≠ embedded) (kind : CkKind) (pos : Nat) (s : State) :
    vchkWith ck kind embedded range pos s = .next (raise (.checksum kind embedded (ck range) pos) s) := by
  rw [vchkWith, checkSum, if_pos h]

end

/-- Settles O22: both operations are the one comparison, each with its kind. -/
theorem checksumComparisonPassesOrRaises : Obligations.ChecksumComparisonPassesOrRaises :=
  fun _ _ pos s => ⟨fun h => ⟨vchkWith_of_eq h .hcs pos s, vchkWith_of_eq h .fcs pos s⟩,
    fun h => ⟨vchkWith_of_ne h .hcs pos s, vchkWith_of_ne h .fcs pos s⟩⟩

end Sys2Proof.Machine

/-! ### The sequencer's next step (45_sequencer_assembler_host.md R180, R181, R183, R194) -/

namespace Sys2Proof.Machine

/-- The sequencer runs the operation that the code of the present phase decodes to (R14). -/
theorem sequencerOp_decoded {s : State} {i : Instr} {rest : List Byte}
    (h : decode .phase (fetchBytes s) = .ok (i, rest)) : sequencerOp s = .run i s := by
  rw [sequencerOp, h]

/-- Outside a run the sequencer has nothing to do (R183). -/
theorem sequencerOp_of_not_busy {s : State} (h : phaseStatus s.phase ≠ .busy) : sequencerOp s = .rest s := by
  obtain ⟨i, p, hp, rfl, -⟩ | ⟨-, hrest⟩ := sequencerOp_cases s
  · cases i <;> simp only [ownPhase, Option.some.injEq, reduceCtorEq] at hp <;> exact absurd (hp ▸ rfl) h
  · exact hrest

/-- With nothing pending the sequencer steps. -/
theorem nextOp_nil {s : State} (h : s.pending = []) : nextOp s = sequencerOp s := by
  rw [nextOp, h]

/-- An empty move lets the sequencer step (log 4). -/
theorem nextOp_tick {s : State} {ms : List Move} (h : s.pending = .tick :: ms) :
    nextOp s = sequencerOp (s.setPending ms) := by
  rw [nextOp, h]

/-- A pending operation is run (R194). -/
theorem nextOp_op {s : State} {i : Instr} {ms : List Move} (h : s.pending = .op i :: ms) :
    nextOp s = .run i (s.setPending ms) := by
  rw [nextOp, h]

/-- A step runs the operation that comes next. -/
theorem step_of_run {s t : State} {i : Instr} (h : nextOp s = .run i t) : step s = exec i t := by
  rw [step, h]

/-- Where no operation comes next, a step answers the state that is left (log 14). -/
theorem step_of_rest {s t : State} (h : nextOp s = .rest t) : step s = .next t := by
  rw [step, h]

/-- Settles O4, by what comes next in each of the three cases. -/
theorem stepRunsTheDecodedOperation : Obligations.StepRunsTheDecodedOperation := fun _ _ _ =>
  ⟨fun hnil hd => step_of_run ((nextOp_nil hnil).trans (sequencerOp_decoded hd)),
    fun htick hd => step_of_run ((nextOp_tick htick).trans (sequencerOp_decoded hd)),
    fun hop => step_of_run (nextOp_op hop)⟩

/-- Settles O5: outside a run nothing comes next. -/
theorem noStepOutsideARun : Obligations.NoStepOutsideARun := fun _ _ hbusy =>
  ⟨fun hnil => step_of_rest ((nextOp_nil hnil).trans (sequencerOp_of_not_busy hbusy)),
    fun htick => step_of_rest ((nextOp_tick htick).trans (sequencerOp_of_not_busy hbusy))⟩

end Sys2Proof.Machine

/-! ### The Message Assembler, the errors of the phase operations, and the host's commands (R181, R190, R194 to R198) -/

namespace Sys2Proof.Machine

/-- Settles O31: in its phase ASM is this one update of the phase. -/
theorem assemblerPublishes : Obligations.AssemblerPublishes := fun _ hp =>
  ⟨phaseOp_in hp, rfl⟩

/-- Settles O48, by the two ends of a phase operation: one that succeeds does not lead to `ERROR`, and one that takes an
error takes one of its own. -/
theorem phaseOperationRaisesOnlyItsErrors : Obligations.PhaseOperationRaisesOnlyItsErrors := by
  intro i p s t hp h herror
  obtain ⟨-, ⟨c, q, g, -, -, rfl, he⟩ | ⟨c, e, -, -, rfl, hraises⟩⟩ := phaseOp_effect hp h
  · exact absurd herror (opEffect_phase hp he).2
  · exact hraises

/-! #### LOAD and START (R195, R196, R198) -/

/-- `LOAD` while not BUSY, of a frame that fits (R195). -/
theorem exec_load {bytes : List Byte} {s : State} (hbusy : phaseStatus s.phase ≠ .busy)
    (hfit : bytes.length ≤ Config.bufCap) : exec (.load bytes) s = .next (loaded bytes s) :=
  (if_neg hbusy).trans (if_pos hfit)

/-- Settles O32: the buffer after LOAD holds the bytes at the offsets below their number. -/
theorem loadDeliversAFrame : Obligations.LoadDeliversAFrame := fun bytes s hbusy hfit =>
  ⟨loaded bytes s, exec_load hbusy hfit, load_offsets bytes, load_bytes bytes, rfl, rfl, rfl, rfl, rfl, rfl, rfl⟩

/-- Settles O33: the state START leaves is this update. -/
theorem startBeginsARun : Obligations.StartBeginsARun := fun _ => exec_start

/-- Settles O34: each of the three commands tests STATUS before anything else, and LOAD tests the length next. -/
theorem busyParserTakesNoCommand : Obligations.BusyParserTakesNoCommand :=
  ⟨fun _ _ hbusy => ⟨if_pos hbusy, if_pos hbusy, if_pos hbusy⟩,
    fun _ _ hbusy hlong => (if_neg hbusy).trans (if_neg (Nat.not_le.2 hlong))⟩

/-! #### RESULT (R197) -/

/-- `RESULT` of a register that STATUS shows and that holds a value. -/
theorem exec_result_of_some {s : State} {r : Reg} {v : Value} (hr : readable s r = true) (hv : regValue s r = some v) :
    exec (.result r) s = .next (s.returns v) := by
  change execResult r s = _
  rw [execResult, if_pos hr, hv]

/-- `RESULT` of a register that STATUS shows and that holds no value (U5). -/
theorem exec_result_of_none {s : State} {r : Reg} (hr : readable s r = true) (hv : regValue s r = none) :
    exec (.result r) s = .fault (.noValue r) := by
  change execResult r s = _
  rw [execResult, if_pos hr, hv]

/-- `RESULT` of a register that STATUS hides (U9). -/
theorem exec_result_of_hidden {s : State} {r : Reg} (hr : ¬ readable s r = true) :
    exec (.result r) s = .fault (.notReadable r) := if_neg hr

/-- The cursor, the field registers and the buffer are shown in `DONE` alone. -/
theorem readable_frame_iff {s : State} {r : Reg} (h : r = .cur ∨ r ∈ fieldRegs ∨ ∃ k, r = .buf k) :
    readable s r = true ↔ phaseStatus s.phase = .done := by
  have hfields : ∀ r ∈ fieldRegs, readable s r = (phaseStatus s.phase == .done) := by simp [fieldRegs, readable]
  have hreg : readable s r = (phaseStatus s.phase == .done) := by
    obtain rfl | hfield | ⟨k, rfl⟩ := h
    · rfl
    · exact hfields r hfield
    · rfl
  rw [hreg, beq_iff_eq]

/-- The context of an error is shown in `ERROR` alone, and there `ERR.CK` for a ChecksumError alone (R33). -/
theorem readable_context_iff {s : State} {r : Reg} (h : r ∈ contextRegs) :
    readable s r = true ↔ phaseStatus s.phase = .error ∧ (r = .errCk → s.err.kind = .checksum) := by
  simp only [contextRegs, List.mem_cons, List.not_mem_nil, or_false] at h
  obtain rfl | rfl | rfl | rfl := h <;> simp [readable]

/-- `N` and the kind of an error are shown while not BUSY. -/
theorem readable_n_errKind_iff {s : State} {r : Reg} (h : r = .n ∨ r = .errKind) :
    readable s r = true ↔ phaseStatus s.phase ≠ .busy := by
  obtain rfl | rfl := h <;> exact bne_iff_ne

/-- Every register is STATUS, the phase's code, or one of the three groups of the table. -/
theorem reg_cases (r : Reg) : r = .status ∨ r = .phase ∨ (r = .n ∨ r = .errKind) ∨
    (r = .cur ∨ r ∈ fieldRegs ∨ ∃ k, r = .buf k) ∨ r ∈ contextRegs := by
  cases r
  case dest k | src k => fin_cases k <;> simp [fieldRegs]
  all_goals simp [fieldRegs, contextRegs]

/-- While BUSY no register but STATUS is shown. -/
theorem not_readable_of_busy {s : State} {r : Reg} (hbusy : phaseStatus s.phase = .busy) (hr : r ≠ .status) :
    ¬ readable s r = true := by
  obtain rfl | rfl | hn | hframe | hcontext := reg_cases r
  · exact absurd rfl hr
  · exact Bool.false_ne_true
  · simp [readable_n_errKind_iff hn, hbusy]
  · simp [readable_frame_iff hframe, hbusy]
  · simp [readable_context_iff hcontext, hbusy]

/-- Settles O35: the four cases are the four groups of registers that the table shows. -/
theorem resultGivesReadableRegisters : Obligations.ResultGivesReadableRegisters := by
  intro s r v hv hshown
  refine exec_result_of_some ?_ hv
  obtain rfl | ⟨hbusy, hn⟩ | ⟨hdone, hframe⟩ | ⟨herror, rfl | rfl | rfl | ⟨rfl, hck⟩⟩ := hshown
  · rfl
  · exact (readable_n_errKind_iff hn).2 hbusy
  · exact (readable_frame_iff hframe).2 hdone
  iterate 3 exact (readable_context_iff (by decide)).2 ⟨herror, nofun⟩
  · exact (readable_context_iff (by decide)).2 ⟨herror, fun _ => hck⟩

/-- A byte at or beyond `N` does not exist (10_state.md R12). -/
theorem regValue_buf_of_le {s : State} {k : Nat} (h : s.n ≤ k) : regValue s (.buf k) = none :=
  if_neg (Nat.not_lt.2 h)

/-- Settles O36: the first five clauses are about registers that STATUS hides, the last three about registers that it
shows and that hold no value. -/
theorem resultHidesTheRest : Obligations.ResultHidesTheRest := by
  refine fun s r => ⟨fun hbusy hr => ?_, fun hdone hframe => ?_, fun herror hcontext => ?_, ?_, ?_,
    fun hdone hfield hv => ?_, ?_, fun herror hcontext hck hv => ?_⟩
  · exact exec_result_of_hidden (not_readable_of_busy hbusy hr)
  · exact exec_result_of_hidden (mt (readable_frame_iff hframe).1 hdone)
  · exact exec_result_of_hidden fun h => herror ((readable_context_iff hcontext).1 h).1
  · rintro rfl
    exact exec_result_of_hidden Bool.false_ne_true
  · rintro - rfl hck
    exact exec_result_of_hidden fun h => hck (((readable_context_iff (by decide)).1 h).2 rfl)
  · exact exec_result_of_none ((readable_frame_iff (.inr (.inl hfield))).2 hdone) hv
  · rintro hdone k rfl hk
    exact exec_result_of_none ((readable_frame_iff (.inr (.inr ⟨k, rfl⟩))).2 hdone) (regValue_buf_of_le hk)
  · exact exec_result_of_none ((readable_context_iff hcontext).2 ⟨herror, hck⟩) hv

end Sys2Proof.Machine

/-! ### The whole call (45_sequencer_assembler_host.md R192, R193) -/

namespace Sys2Proof.Machine

/-! #### The frame that the registers hold after a call (R16, R191) -/

/-- The bytes of an address field are held by its registers, in wire order (R21). -/
theorem addrBytes_addrRegs {bs : List Byte} (h : bs.length ≤ 4) : addrBytes (addrRegs bs) = some bs := by
  match bs, h with
  | [], _ | [_], _ | [_, _], _ | [_, _, _], _ | [_, _, _, _], _ => rfl

/-- Registers and buffer hold the frame whose fields were written, where the window holds its information (R16, R29). -/
theorem frameOf_frameFields {s : State} {fr : DecodedFrame} (hf : s.f = frameFields fr)
    (hd : fr.destAddr.length ≤ 4) (hs : fr.srcAddr.length ≤ 4) (hi : informationOf s = some fr.information) :
    frameOf s = some fr := by
  simp only [frameOf, hf, hi, frameFields, addrBytes_addrRegs hd, addrBytes_addrRegs hs]
  rfl

/-- The window of the buffer that a successful read took (R29). -/
theorem readBytes_of_callRead {s : State} (hb : bufferOk s) {cur count c : Nat} {bs : List Byte}
    (h : callRead (buffer s) cur count = .ok (bs, c)) : s.mem.readBytes cur count = some bs := by
  obtain ⟨-, hn, rfl⟩ := callRead_ok h
  rw [buffer_length hb] at hn
  exact readBytes_slice hb cur count hn

/-- After a call that answered a frame, registers and buffer hold it, and the cursor is past the closing flag (R192). -/
theorem callState_frame {ck : List Byte → Half} {s t : State} {fr : DecodedFrame} {n : Nat} (hb : bufferOk s)
    (h : decodeRun ck (buffer s) = .ok (fr, n)) (hm : t.mem = s.mem) (hf : t.f = frameFields fr) :
    frameOf t = some fr ∧ n = fr.frameLen.toNat + 2 := by
  obtain ⟨fmt, ctl, c, -, -, hdest, hsrc, -, -, hpay, hend, -⟩ := decodeRun_ok h
  obtain ⟨-, hd4, -⟩ := callAddr_field hdest
  obtain ⟨-, hs4, -⟩ := callAddr_field hsrc
  obtain ⟨rfl, -⟩ := callFlag_ok hend
  obtain ⟨hinfo, -, rfl, hlen⟩ | ⟨bs, v, hinfo, -, -, rfl, hread, -⟩ := callPayload_ok hpay
  · refine ⟨frameOf_frameFields hf hd4 hs4 ?_, by omega⟩
    simp [informationOf, hf, frameFields, hinfo]
  · refine ⟨frameOf_frameFields hf hd4 hs4 ?_, rfl⟩
    simp [informationOf, hf, frameFields, hinfo, hm, readBytes_of_callRead hb hread]

/-- `DECODE` while not BUSY, on a buffer that is well formed (R192). -/
theorem exec_decode {s : State} (hb : bufferOk s) (hbusy : phaseStatus s.phase ≠ .busy) :
    exec .decode s = .next (callState (decodeRun Config.ck (buffer s)) s) := by
  change decodeWith Config.ck s = _
  rw [decodeWith, if_neg hbusy, memRead_all hb]

/-- The whole call answers a frame where its run through the buffer does (R192). -/
theorem decodeCall_ok_iff {ck : List Byte → Half} {buf : List Byte} {fr : DecodedFrame} :
    decodeCall ck buf = .ok fr ↔ ∃ n, decodeRun ck buf = .ok (fr, n) := by
  rw [decodeCall]
  rcases decodeRun ck buf with ⟨e, c⟩ | ⟨frame, c⟩ <;> simp

/-- The whole call answers the error that its run through the buffer fails with (R192). -/
theorem decodeCall_of_error {ck : List Byte → Half} {buf : List Byte} {e : DecodeError} {c : Nat}
    (h : decodeRun ck buf = .error (e, c)) : decodeCall ck buf = .error e := by
  rw [decodeCall, h]

/-- Settles O38, by the two answers of the whole call. -/
theorem decodeAnswersAFrameOrOneError : Obligations.DecodeAnswersAFrameOrOneError := by
  intro s hb hbusy
  have hexec := exec_decode hb hbusy
  obtain ⟨hm, hn⟩ := callState_buf (decodeRun Config.ck (buffer s)) s
  refine ⟨_, hexec, hm, hn, exec_pending hexec, ?_⟩
  cases hr : decodeRun Config.ck (buffer s) with
  | error ec =>
    exact .inr ⟨ec.1, decodeCall_of_error hr, rfl, rfl, rfl, rfl⟩
  | ok fc =>
    obtain ⟨fr, n⟩ := fc
    obtain ⟨hframe, hn⟩ := callState_frame (t := callState (.ok (fr, n)) s) hb hr rfl rfl
    exact .inl ⟨fr, decodeCall_ok_iff.2 ⟨n, hr⟩, rfl, hframe, hn, rfl, rfl⟩

/-! #### The reads of a buffer whose layout is known (20_memory.md R50, 30_encoding.md R60)

`pre` is what was consumed before, so that the cursor stands at `pre.length`. -/

/-- A 16-bit word takes two bytes (R42). -/
@[simp] theorem length_halfBytes (w : Half) : (halfBytes w).length = 2 := rfl

section

variable {buf pre rest : List Byte}

/-- What was taken is consumed: the layout from the next field on. -/
theorem layout_next {bs next : List Byte} (h : buf = pre ++ bs ++ (next ++ rest)) : buf = pre ++ bs ++ next ++ rest :=
  h.trans (List.append_assoc ..).symm

theorem callRead_takes {bs : List Byte} {count : Nat} (h : buf = pre ++ bs ++ rest) (hc : bs.length = count) :
    callRead buf pre.length count = .ok (bs, (pre ++ bs).length) := by
  subst h hc
  have hfits : ¬ (pre ++ bs ++ rest).length < pre.length + bs.length := by simp
  rw [callRead, if_neg hfits]
  simp

theorem callFlag_takes (h : buf = pre ++ [Config.flagByte] ++ rest) :
    callFlag buf pre.length = .ok (Config.flagByte, (pre ++ [Config.flagByte]).length) := by
  rw [callFlag, callRead_takes (count := 1) h rfl]
  rfl

/-- A checksum field that holds `CK` of everything after the opening flag passes (R162). -/
theorem callCheck_takes {ck : List Byte → Half} {v : Half} (kind : CkKind)
    (h : buf = pre ++ (halfBytes v).reverse ++ rest) (h1 : 1 ≤ pre.length) (hv : v = ck (pre.drop 1)) :
    callCheck ck kind buf pre.length = .ok (v, (pre ++ (halfBytes v).reverse).length) := by
  have hrange : (buf.drop 1).take (pre.length - 1) = pre.drop 1 := by
    rw [h, List.append_assoc, List.drop_append_of_le_length h1, ← List.length_drop, List.take_left]
  rw [callCheck, callRead_takes (count := 2) h rfl]
  simp only [Except.bind, swap16_of_wire, hrange, ← hv]
  exact if_neg (not_not.2 rfl)

/-- A lifted read that succeeds is a read that succeeded, at the cursor it leaves. -/
theorem liftCall_eq_ok {α : Type} {r : Except (DecodeError × Nat) (α × Nat)} {s : State} {a : α} {c : Nat}
    (h : liftCall r s = .ok a (s.setCur c)) : r = .ok (a, c) := by
  match r with
  | .ok (b, d) =>
    simp only [liftCall_ok, Res.ok.injEq] at h
    rw [h.1, show d = c from congrArg State.cur h.2]
  | .error (e, d) => cases h

/-- A whole address field is taken (R103): the address loop of the stepwise machine takes it, at the same cursor. -/
theorem callAddr_takes {bs : List Byte} (h : buf = pre ++ bs ++ rest) (hf : addressField bs) :
    callAddr buf Config.addrMax [] pre.length = .ok (bs, (pre ++ bs).length) := by
  let s := (loaded buf State.reset).setCur pre.length
  have hb : bufferOk s := load_offsets buf
  have hbuf : buffer s = buf := load_bytes buf
  have hn : s.cur + bs.length ≤ s.n := by simp [s, h]
  have hs : slice s s.cur bs.length = bs := by
    rw [slice, hbuf, h]
    simp [s]
  have hread := readAddr_field hb hf hn hs
  rw [readAddr_lift hb, hbuf] at hread
  rw [List.length_append]
  exact liftCall_eq_ok hread

/-- A header-only frame has no payload (R166). -/
theorem callPayload_none {ck : List Byte → Half} {len : BitVec 11} {cur : Nat} (h : len.toNat + 1 = cur) :
    callPayload ck buf len cur = .ok (none, none, cur) := if_pos (by omega)

/-- The information and the FCS of a frame with a payload are taken where they end at the declared length (R167 to
R169). -/
theorem callPayload_takes {ck : List Byte → Half} {len : BitVec 11} {info : List Byte} {fcs : Half}
    (h : buf = pre ++ (info ++ (halfBytes fcs).reverse) ++ rest) (h1 : 1 ≤ pre.length)
    (hv : fcs = ck ((pre ++ info).drop 1)) (hlen : len.toNat = pre.length + info.length + 1) :
    callPayload ck buf len pre.length =
      .ok (some info, some fcs, (pre ++ (info ++ (halfBytes fcs).reverse)).length) := by
  have hinfo : ((len.toNat : Int) - 1 - (pre.length : Int)).toNat = info.length := by omega
  have hread : callRead buf pre.length info.length = .ok (info, (pre ++ info).length) :=
    callRead_takes (rest := (halfBytes fcs).reverse ++ rest) (by simp [h]) rfl
  have hcheck : callCheck ck .fcs buf (pre ++ info).length =
      .ok (fcs, (pre ++ info ++ (halfBytes fcs).reverse).length) :=
    callCheck_takes .fcs (rest := rest) (by simp [h]) (by simp; omega) hv
  have hend : (pre ++ info ++ (halfBytes fcs).reverse).length = len.toNat + 1 := by
    simp only [List.length_append, List.length_reverse, length_halfBytes]
    omega
  rw [callPayload, if_neg (by omega)]
  dsimp only
  rw [if_neg (by omega), hinfo, hread]
  simp only [Except.bind, hcheck]
  rw [if_neg (by omega), List.append_assoc]

/-- The payload part on what R60 lays out for it: the information and the FCS, or nothing. -/
theorem callPayload_payloadBytes {ck : List Byte → Half} {len : BitVec 11} {payload : Option (List Byte × Half)}
    (h : buf = pre ++ payloadBytes payload ++ rest) (h1 : 1 ≤ pre.length)
    (hv : ∀ info fcs, payload = some (info, fcs) → fcs = ck ((pre ++ info).drop 1))
    (hlen : len.toNat + 1 = (pre ++ payloadBytes payload).length) :
    callPayload ck buf len pre.length =
      .ok (payload.map Prod.fst, payload.map Prod.snd, (pre ++ payloadBytes payload).length) := by
  obtain _ | ⟨info, fcs⟩ := payload
  · rw [payloadBytes, List.append_nil] at hlen ⊢
    exact callPayload_none hlen
  · refine callPayload_takes (info := info) h h1 (hv info fcs rfl) ?_
    simp only [payloadBytes, List.length_append, List.length_reverse, length_halfBytes] at hlen
    omega

end

/-- A whole call all of whose reads succeed answers a frame of what they read (R192). -/
theorem decodeRun_of_reads {ck : List Byte → Half} {buf fmt dest src ctl : List Byte} {flag flagEnd : Byte} {hcs : Half}
    {info : Option (List Byte)} {fcs : Option Half} {c1 c2 c3 c4 c5 c6 c7 c8 : Nat}
    (hflag : callFlag buf 0 = .ok (flag, c1)) (hfmt : callRead buf c1 2 = .ok (fmt, c2))
    (hdest : callAddr buf Config.addrMax [] c2 = .ok (dest, c3))
    (hsrc : callAddr buf Config.addrMax [] c3 = .ok (src, c4)) (hctl : callRead buf c4 1 = .ok (ctl, c5))
    (hhcs : callCheck ck .hcs buf c5 = .ok (hcs, c6))
    (hpay : callPayload ck buf (flen (be16Seq fmt)) c6 = .ok (info, fcs, c7))
    (hend : callFlag buf c7 = .ok (flagEnd, c8)) :
    decodeRun ck buf = .ok (⟨flag, flen (be16Seq fmt), fseg (be16Seq fmt), ftype (be16Seq fmt), dest, src,
      controlOf (ctl.getD 0 0#8), hcs, info, fcs, flagEnd⟩, c8) := by
  simp only [decodeRun, hflag, hfmt, hdest, hsrc, hctl, hhcs, hpay, hend, Except.bind]

/-- Settles O39: each part of the layout is what the read at its offset takes. -/
theorem wholeCallAcceptsEveryFrame : Obligations.WholeCallAcceptsEveryFrame := by
  intro ck w dest src c hcs payload tail hdest hsrc hhcs hfcs hlen
  have hflen : (flen (be16Seq (halfBytes w))).toNat = w.toNat % 2048 := by
    rw [be16Seq_halfBytes, flen_eq_ofNat, BitVec.toNat_ofNat, Nat.mod_mod]
  generalize hbuf : frameBytes w dest src c hcs payload ++ tail = buf
  have hflag : buf = [] ++ [Config.flagByte] ++ (halfBytes w ++ (dest ++ (src ++ ([c] ++ ((halfBytes hcs).reverse ++
      (payloadBytes payload ++ ([Config.flagByte] ++ tail))))))) := by
    simp [← hbuf, frameBytes]
  have hfmt := layout_next hflag
  have hd := layout_next hfmt
  have hs := layout_next hd
  have hctl := layout_next hs
  have hchk := layout_next hctl
  have hpay := layout_next hchk
  have hend := layout_next hpay
  have hdeclared : (flen (be16Seq (halfBytes w))).toNat + 1 = ([] ++ [Config.flagByte] ++ halfBytes w ++ dest ++ src ++
      [c] ++ (halfBytes hcs).reverse ++ payloadBytes payload).length := by
    rw [frameBytes, List.length_append, List.length_singleton] at hlen
    rw [hflen, List.nil_append]
    omega
  have hrun := decodeRun_of_reads (ck := ck) (callFlag_takes hflag) (callRead_takes hfmt rfl) (callAddr_takes hd hdest)
    (callAddr_takes hs hsrc) (callRead_takes hctl rfl) (callCheck_takes .hcs hchk (by simp) (by simpa using hhcs))
    (callPayload_payloadBytes hpay (by simp) (fun info fcs h => by simpa using hfcs info fcs h) hdeclared)
    (callFlag_takes hend)
  rw [be16Seq_halfBytes] at hrun
  exact decodeCall_ok_iff.2 ⟨_, hrun⟩

end Sys2Proof.Machine

/-! ### Runs (45_sequencer_assembler_host.md R183, R184, R193) -/

namespace Sys2Proof.Machine

/-! #### A run from START is the whole call, read by read (R193) -/

/-- How many steps the run of a frame takes (R184). -/
def runLength (fr : DecodedFrame) : Nat := if fr.information.isSome then 12 else 9

/-- From `u`, `taken` steps after START, the run takes `k` more steps to the state that the call's answer `r` leaves,
and does not end before. -/
structure RunsIn (s : State) (taken k : Nat) (u : State) (r : Except (DecodeError × Nat) (DecodedFrame × Nat)) :
    Prop where
  within  : taken + k ≤ 12
  reaches : Host.Core.run core k u = answers r s frameFields .done
  length  : ∀ fr c, r = .ok (fr, c) → taken + k = runLength fr
  running : ∀ j t, j < k → Host.Core.run core j u = .next t → ¬ ended t

section

variable {s u v : State} {taken k : Nat} {r : Except (DecodeError × Nat) (DecodedFrame × Nat)}

/-- One step more. -/
theorem RunsIn.step (h : RunsIn s (taken + 1) k v r) (hstep : step u = .next v) (hu : ¬ ended u) :
    RunsIn s taken (k + 1) u r where
  within := by
    have := h.within
    omega
  reaches := (run_succ hstep).trans h.reaches
  length fr c hr := by
    have := h.length fr c hr
    omega
  running j t hj ht := by
    cases j with
    | zero =>
      cases ht
      exact hu
    | succ j => exact h.running j t (by omega) ((run_succ hstep).symm.trans ht)

/-- A run that has ended with a frame. -/
theorem runsIn_frame {fr : DecodedFrame} {c : Nat} (ht : taken = runLength fr) :
    RunsIn s taken 0 (atPhase s .done c (frameFields fr)) (.ok (fr, c)) where
  within := by
    rw [ht, runLength]
    split <;> decide
  reaches := rfl
  length := by
    rintro _ _ ⟨⟩
    exact ht
  running := by simp

/-- A run that has ended with an error. -/
theorem runsIn_error {e : DecodeError} {c : Nat} (ht : taken ≤ 12) :
    RunsIn s taken 0 (raise e (s.setCur c)) (.error (e, c)) where
  within := ht
  reaches := rfl
  length := nofun
  running := by simp

end

section

variable {s : State} {c taken : Nat} {f : Fields} {p : Phase} {i : Instr}

/-- In a working phase with nothing pending the next step is the phase's operation, and the run has not ended. -/
theorem runs_step (hn : s.pending = []) (hp : ownPhase i = some p) {v : State}
    {r : Except (DecodeError × Nat) (DecodedFrame × Nat)} (hx : exec i (atPhase s p c f) = .next v)
    (h : ∃ k, RunsIn s (taken + 1) k v r) : ∃ k, RunsIn s taken k (atPhase s p c f) r := by
  obtain ⟨k, hk⟩ := h
  have hstep : step (atPhase s p c f) = .next v := (step_phase (u := atPhase s p c f) hp rfl hn).trans hx
  exact ⟨k + 1, hk.step hstep (not_ended_of_phase hp rfl)⟩

/-- A phase operation that is one read of the whole call: the run goes on as the call does, or takes the call's
error. -/
theorem runs_bind (hn : s.pending = []) (hp : ownPhase i = some p) (ht : taken < 12) {α : Type}
    {r : Except (DecodeError × Nat) (α × Nat)} {g : α → Fields} {q : Phase}
    (hx : exec i (atPhase s p c f) = answers r s g q)
    {next : α × Nat → Except (DecodeError × Nat) (DecodedFrame × Nat)}
    (hnext : ∀ a d, r = .ok (a, d) → ∃ k, RunsIn s (taken + 1) k (atPhase s q d (g a)) (next (a, d))) :
    ∃ k, RunsIn s taken k (atPhase s p c f) (r.bind next) := by
  match r, hx, hnext with
  | .error (e, d), hx, _ => exact runs_step hn hp hx ⟨0, runsIn_error ht⟩
  | .ok (a, d), hx, hnext => exact runs_step hn hp hx (hnext a d rfl)

/-- A successful read takes as many bytes as asked for (R192). -/
theorem callRead_ok_length {buf bs : List Byte} {cur count d : Nat} (h : callRead buf cur count = .ok (bs, d)) :
    bs.length = count := by
  obtain ⟨-, hfits, rfl⟩ := callRead_ok h
  rw [List.length_take, List.length_drop]
  omega

/-- The parts of a call regroup. -/
theorem except_bind_assoc {ε α β γ : Type} (r : Except ε α) (m : α → Except ε β) (n : β → Except ε γ) :
    (r.bind m).bind n = r.bind (fun a => (m a).bind n) := by
  cases r <;> rfl

/-- The registers after the payload part of a frame whose information would begin at offset `c` (R29, R107, R108). -/
def payloadFields (c : Nat) (info : Option (List Byte)) (fcs : Option Half) (f : Fields) : Fields :=
  { f with
    payload := some (if info.isSome then 1#1 else 0#1)
    infoOff := info.map (fun _ => c)
    infoN := info.map List.length
    fcs := fcs }

/-- No register of the payload part holds a value yet. -/
def PayloadUnread (f : Fields) : Prop := f.infoOff = none ∧ f.infoN = none ∧ f.fcs = none

theorem payloadFields_none (h : PayloadUnread f) : payloadFields c none none f = { f with payload := some 0#1 } := by
  obtain ⟨hoff, hn, hfcs⟩ := h
  simp [payloadFields, hoff, hn, hfcs]

/-- ILEN, XINFO, XFCS and VLEN, or ILEN alone, are the payload part of the whole call (R166 to R169). Six steps
come before ILEN, and seven or ten before the closing flag (R184). -/
theorem runs_payload (hb : bufferOk s) (hn : s.pending = []) {len : BitVec 11} (hl : f.len = some len)
    (hf : PayloadUnread f) (h1 : 1 ≤ c)
    {next : Option (List Byte) × Option Half × Nat → Except (DecodeError × Nat) (DecodedFrame × Nat)}
    (hnext : ∀ info fcs d, ∃ k, RunsIn s (if info.isSome then 10 else 7) k
      (atPhase s .flagC d (payloadFields c info fcs f)) (next (info, fcs, d))) :
    ∃ k, RunsIn s 6 k (atPhase s .ilen c f) ((callPayload Config.ck (buffer s) len c).bind next) := by
  have hilen := ilen_at (s := s) (c := c) hl
  rw [callPayload]
  by_cases hheader : (len.toNat : Int) = (c : Int) - 1
  · rw [if_pos hheader] at hilen ⊢
    rw [← payloadFields_none hf] at hilen
    exact runs_step hn rfl hilen (hnext none none c)
  · rw [if_neg hheader] at hilen ⊢
    dsimp only
    by_cases hneg : (len.toNat : Int) - 1 - (c : Int) < 0
    · rw [if_pos hneg] at hilen ⊢
      exact runs_step hn rfl hilen ⟨0, runsIn_error (by decide)⟩
    · rw [if_neg hneg] at hilen ⊢
      refine runs_step hn rfl hilen ?_
      generalize ((len.toNat : Int) - 1 - (c : Int)).toNat = count
      rw [except_bind_assoc]
      refine runs_bind hn (i := .xinfo) rfl (by decide) (xinfo_at hb rfl) fun info d hread => ?_
      obtain rfl : count = info.length := (callRead_ok_length hread).symm
      obtain ⟨rfl, -⟩ := callRead_ok hread
      dsimp only
      rw [except_bind_assoc]
      refine runs_bind hn (i := .xfcs) rfl (by decide) (xfcs_at hb (by omega)) fun v d _ => ?_
      have hvlen := vlen_at (s := s) (c := d) (f := payloadFields c (some info) (some v) f) hl
      dsimp only
      by_cases hlen : (len.toNat : Int) ≠ (d : Int) - 1
      · rw [if_pos hlen] at hvlen ⊢
        exact runs_step hn rfl hvlen ⟨0, runsIn_error (by decide)⟩
      · rw [if_neg hlen] at hvlen ⊢
        exact runs_step hn rfl hvlen (hnext (some info) (some v) d)

/-- The closing flag and the assembler end the run of a frame. -/
theorem runs_closing (hb : bufferOk s) (hn : s.pending = []) (ht : taken < 12)
    {frame : Byte → DecodedFrame} (hlen : ∀ b, taken + 2 = runLength (frame b))
    (hf : ∀ b, frameFields (frame b) = { f with flagEnd := some b }) :
    ∃ k, RunsIn s taken k (atPhase s .flagC c f)
      ((callFlag (buffer s) c).bind (fun (b, d) => .ok (frame b, d))) := by
  refine runs_bind hn (i := .xflagC) rfl ht (xflagC_at hb) fun b d _ => ?_
  rw [← hf b]
  exact runs_step hn rfl asm_at ⟨0, runsIn_frame (hlen b)⟩

end

/-- The run from START is the whole call. -/
theorem runs_call {s : State} (hb : bufferOk s) (hn : s.pending = []) :
    ∃ k, RunsIn s 0 k (started s) (decodeRun Config.ck (buffer s)) := by
  rw [show started s = atPhase s .flagO 0 Fields.empty from rfl, decodeRun]
  refine runs_bind hn (i := .xflagO) rfl (by decide) (xflagO_at hb) fun flag c hflag => ?_
  refine runs_bind hn (i := .xffmt) rfl (by decide) (xffmt_at hb) fun fmt c hfmt => ?_
  refine runs_bind hn (i := .xaddrD) rfl (by decide) (xaddrD_at hb) fun dest c hdest => ?_
  refine runs_bind hn (i := .xaddrS) rfl (by decide) (xaddrS_at hb) fun src c hsrc => ?_
  refine runs_bind hn (i := .xctrl) rfl (by decide) (xctrl_at hb) fun ctl c hctl => ?_
  obtain ⟨rfl, -⟩ := callFlag_ok hflag
  obtain ⟨rfl, -⟩ := callRead_ok hfmt
  obtain ⟨-, -, rfl, -⟩ := callAddr_field hdest
  obtain ⟨-, -, rfl, -⟩ := callAddr_field hsrc
  obtain ⟨rfl, -⟩ := callRead_ok hctl
  refine runs_bind hn (i := .xhcs) rfl (by decide) (xhcs_at hb (by omega)) fun hcs c hhcs => ?_
  obtain ⟨rfl, -⟩ := callCheck_ok hhcs
  refine runs_payload hb hn rfl ⟨rfl, rfl, rfl⟩ (by omega) fun info fcs d => ?_
  have hoff : 0 + 1 + 2 + dest.length + src.length + 1 + 2 = 6 + dest.length + src.length := by omega
  rw [hoff]
  refine runs_closing hb hn ?_ (fun b => ?_) (fun b => rfl)
  · split <;> decide
  · simp only [runLength]
    split <;> rfl

/-- The state that the run reaches is the whole call's, but for what the call gives back. -/
theorem answers_eq_callState (r : Except (DecodeError × Nat) (DecodedFrame × Nat)) (s : State) :
    answers r s frameFields .done = .next { callState r s with ret := s.ret } := by
  rcases r with ⟨e, c⟩ | ⟨fr, c⟩ <;> rfl

/-- A whole call ends a run. -/
theorem callState_ended (r : Except (DecodeError × Nat) (DecodedFrame × Nat)) (s : State) : ended (callState r s) := by
  rcases r with ⟨e, c⟩ | ⟨fr, c⟩
  · exact .inr rfl
  · exact .inl rfl

/-- Settles O41, by the run that is the whole call. -/
theorem stepwiseRunAgreesWithWholeCall : Obligations.StepwiseRunAgreesWithWholeCall := by
  intro s hb hbusy hn
  obtain ⟨k, hrun⟩ := runs_call hb hn
  exact ⟨_, _, k, exec_decode hb hbusy, exec_start hbusy, Nat.zero_add k ▸ hrun.within,
    hrun.reaches.trans (answers_eq_callState _ s), callState_ended _ s⟩

/-- Settles O42, by the number of steps of the run that is the whole call. -/
theorem successfulRunTakesNineOrTwelveSteps : Obligations.SuccessfulRunTakesNineOrTwelveSteps := by
  intro s fr hb _ hn h
  obtain ⟨n, hr⟩ := decodeCall_ok_iff.1 h
  obtain ⟨k, hrun⟩ := runs_call hb hn
  have hk : k = runLength fr := Nat.zero_add k ▸ hrun.length fr n hr
  rw [← runLength, ← hk]
  rw [hr] at hrun
  exact ⟨⟨_, hrun.reaches, rfl⟩, hrun.running⟩

/-! #### Every run ends (R183, R184, 60_exceptions.md R224) -/

/-- A read of the whole call leads to a next state, whatever it answers. -/
theorem answers_next {α : Type} (r : Except (DecodeError × Nat) (α × Nat)) (s : State) (g : α → Fields) (q : Phase) :
    ∃ t, answers r s g q = .next t := by
  rcases r with ⟨e, c⟩ | ⟨b, c⟩ <;> exact ⟨_, rfl⟩

/-- A whole record of no error holds no context (R32 to R35). -/
theorem errRegs_eq_clear {e : ErrRegs} (h : errorRecordOk e) (hk : e.kind = .none) : e = ErrRegs.clear := by
  obtain ⟨kind, ck, expected, actual, pos⟩ := e
  cases hk
  have hck : (ErrKind.none == ErrKind.checksum) = false := rfl
  simpa [errorRecordOk, ErrRegs.clear, hck] using h

/-- Outside `ERROR` no error register holds a value (R32). -/
theorem ParserInv.err_clear {s : State} (h : ParserInv s) (hp : s.phase ≠ .error) : s.err = ErrRegs.clear :=
  errRegs_eq_clear h.record (not_not.1 (mt h.error.1 hp))

/-- In its phase of a run every phase operation answers a next state: the registers it reads hold a value, and the
cursor is past the opening flag where a checksum is compared. -/
theorem exec_answers_in_phase {i : Instr} {s : State} (hs : RunInv s) (hp : ownPhase i = some s.phase) :
    ∃ t, exec i s = .next t := by
  have hb := hs.inv.buffer
  have held := hs.inv.held
  have hpos := hs.position
  have hnot : s.phase ≠ .error := by
    intro he
    cases i <;> simp [ownPhase, he] at hp
  have hself : atPhase s s.phase s.cur s.f = s := by rw [atPhase, ← hs.inv.err_clear hnot]
  rw [← hself]
  generalize s.phase = p at hp held hpos
  cases i <;> simp only [ownPhase, Option.some.injEq, reduceCtorEq] at hp <;> subst hp
  case xflagO => exact xflagO_at hb ▸ answers_next ..
  case xffmt => exact xffmt_at hb ▸ answers_next ..
  case xaddrD => exact xaddrD_at hb ▸ answers_next ..
  case xaddrS => exact xaddrS_at hb ▸ answers_next ..
  case xctrl => exact xctrl_at hb ▸ answers_next ..
  case xflagC => exact xflagC_at hb ▸ answers_next ..
  case asm => exact ⟨_, asm_at⟩
  case xhcs =>
    have h1 : 1 ≤ s.cur := by
      simp only [positionOk, headerCount] at hpos
      omega
    exact xhcs_at hb h1 ▸ answers_next ..
  case xfcs =>
    have h1 : 1 ≤ s.cur := by
      simp only [positionOk] at hpos
      omega
    exact xfcs_at hb h1 ▸ answers_next ..
  case xinfo =>
    have hsome := held.infoN
    rw [held.branch (.inl rfl)] at hsome
    obtain ⟨k, hk⟩ := Option.isSome_iff_exists.1 hsome
    exact xinfo_at hb hk ▸ answers_next ..
  case ilen =>
    obtain ⟨len, hl⟩ := Option.isSome_iff_exists.1 held.len
    rw [ilen_at hl]
    split
    · exact ⟨_, rfl⟩
    · split <;> exact ⟨_, rfl⟩
  case vlen =>
    obtain ⟨len, hl⟩ := Option.isSome_iff_exists.1 held.len
    rw [vlen_at hl]
    split <;> exact ⟨_, rfl⟩

/-- How far a run has come: the code of its phase (R14). -/
def progress (s : State) : Nat := (phaseCode s.phase).toNat

/-- The successors of a phase have larger codes, and so has `ERROR`, where the phase is a working one (R14, R181). -/
theorem phaseCode_lt (p : Phase) : (∀ q ∈ successors p, (phaseCode p).toNat < (phaseCode q).toNat) ∧
    (phaseStatus p = .busy → (phaseCode p).toNat < (phaseCode .error).toNat) := by
  cases p <;> decide

/-- The working phases are those between the codes of `IDLE` and `DONE` (R14). -/
theorem busy_iff_progress (s : State) : phaseStatus s.phase = .busy ↔ 1 ≤ progress s ∧ progress s < 13 := by
  rw [progress]
  generalize s.phase = p
  cases p <;> decide

/-- From the code of `DONE` on a run has ended (R14, R183). -/
theorem ended_of_progress {s : State} (h : 13 ≤ progress s) : ended s := by
  rw [progress] at h
  rw [ended]
  generalize s.phase = p at h
  revert h
  cases p <;> decide

/-- Every step of a run goes on to a phase of a larger code. -/
theorem step_progresses {s : State} (hs : RunInv s) (hbusy : phaseStatus s.phase = .busy) (hn : s.pending = []) :
    ∃ t, step s = .next t ∧ RunInv t ∧ t.pending = [] ∧ progress s < progress t := by
  obtain ⟨i, p, hp, rfl, -⟩ | ⟨hnot, -⟩ := sequencerOp_cases s
  · obtain ⟨t, ht⟩ := exec_answers_in_phase hs hp
    have hstep : step s = .next t := (step_phase hp rfl hn).trans ht
    refine ⟨t, hstep, everyStepKeepsTheRunInvariant s t hs hstep, (exec_pending ht).trans hn, ?_⟩
    obtain ⟨-, -, -, -, -, ⟨hq, -⟩ | ⟨herror, -⟩⟩ := phaseOperationFrame i s.phase s t hp ht
    · exact (phaseCode_lt s.phase).1 t.phase hq
    · rw [progress, progress, herror]
      exact (phaseCode_lt s.phase).2 hbusy
  · exact absurd hbusy hnot

/-- A run that has come so far that the codes below `DONE` run out in `k` steps ends in them. -/
theorem run_ends {s : State} {k : Nat} (hs : RunInv s) (hn : s.pending = []) (h1 : 1 ≤ progress s)
    (hk : 13 ≤ progress s + k) : ∃ t, Host.Core.run core k s = .next t ∧ ended t := by
  induction k generalizing s with
  | zero => exact ⟨s, rfl, ended_of_progress hk⟩
  | succ k ih =>
    by_cases hbusy : phaseStatus s.phase = .busy
    · obtain ⟨t, hstep, ht, htn, hlt⟩ := step_progresses hs hbusy hn
      obtain ⟨u, hu, hend⟩ := ih ht htn (by omega) (by omega)
      exact ⟨u, (run_succ hstep).trans hu, hend⟩
    · have hcode : ¬ (1 ≤ progress s ∧ progress s < 13) := mt (busy_iff_progress s).2 hbusy
      obtain ⟨u, hu, hend⟩ := ih hs hn h1 (by omega)
      exact ⟨u, (run_succ ((noStepOutsideARun s [] hbusy).1 hn)).trans hu, hend⟩

/-- Settles O59: the code of a working phase is at least 1, so twelve steps reach the code of `DONE` or beyond. -/
theorem everyRunEnds : Obligations.EveryRunEnds := by
  intro s hs hbusy hn
  have h1 : 1 ≤ progress s := ((busy_iff_progress s).1 hbusy).1
  exact run_ends hs hn h1 (by omega)

end Sys2Proof.Machine

/-! ### Taking an error, fail-closed decoding and the absence of faults (60_exceptions.md R211 to R213, R224, R232) -/

namespace Sys2Proof.Machine

/-! #### Taking an error (R211 to R213) -/

/-- Where nothing is decoded no field register holds a value (R15, R213). -/
theorem regValue_field_none {s : State} (hf : s.f = Fields.empty) : ∀ r ∈ fieldRegs, regValue s r = none := by
  simp [fieldRegs, regValue, addrByte, hf, Fields.empty, AddrRegs.empty]

/-- Settles O44: each record is `errorRegs` at its error, and after a raise no field register holds a value. -/
theorem raiseRecordsTheErrorAndDropsTheFields : Obligations.RaiseRecordsTheErrorAndDropsTheFields := by
  intro s pos need remaining expected actual b kind v w
  exact ⟨rfl, rfl, rfl, rfl, fun r hr e => regValue_field_none (raise_f e s) r hr⟩

/-! #### No frame content stops a run (R224) -/

/-- Settles O57: every step of a run goes on to a phase of a larger code, which is another phase. -/
theorem runNeverFaults : Obligations.RunNeverFaults := by
  intro s hs hbusy hn
  obtain ⟨t, hstep, -, -, hlt⟩ := step_progresses hs hbusy hn
  refine ⟨t, hstep, fun hsame => ?_⟩
  rw [progress, progress, hsame] at hlt
  exact lt_irrefl _ hlt

/-! #### What the reads of the whole call consumed (20_memory.md R50, R192)

A read that moved the cursor from `cur` to `c` is described by what it adds to the consumed bytes: `buf.take c` is
`buf.take cur` followed by the bytes of the field. -/

section

variable {ck : List Byte → Half} {buf : List Byte} {cur c : Nat}

theorem callRead_consumes {bs : List Byte} {count : Nat} (h : callRead buf cur count = .ok (bs, c)) :
    buf.take c = buf.take cur ++ bs ∧ bs.length = count := by
  obtain ⟨rfl, hle, rfl⟩ := callRead_ok h
  refine ⟨List.take_add, ?_⟩
  rw [List.length_take, List.length_drop]
  omega

/-- One byte, as the extractors read it. -/
theorem callRead_consumes_byte {bs : List Byte} (h : callRead buf cur 1 = .ok (bs, c)) :
    buf.take c = buf.take cur ++ [bs.getD 0 0#8] := by
  obtain ⟨htake, hlen⟩ := callRead_consumes h
  obtain ⟨b, rfl⟩ := List.length_eq_one_iff.1 hlen
  exact htake

/-- Two bytes are the wire bytes of the word that they make, high-order byte first (R42). -/
theorem callRead_consumes_half {bs : List Byte} (h : callRead buf cur 2 = .ok (bs, c)) :
    buf.take c = buf.take cur ++ halfBytes (be16Seq bs) := by
  obtain ⟨htake, hlen⟩ := callRead_consumes h
  obtain ⟨b0, b1, rfl⟩ := List.length_eq_two.1 hlen
  obtain ⟨h0, h1⟩ := be16_octets b0 b1
  have hbytes : halfBytes (be16 b0 b1) = [b0, b1] := by rw [halfBytes, h0, h1]
  exact htake.trans (congrArg _ hbytes.symm)

theorem callFlag_consumes {b : Byte} (h : callFlag buf cur = .ok (b, c)) :
    buf.take c = buf.take cur ++ [Config.flagByte] := by
  obtain ⟨rfl, hle, hb, hget⟩ := callFlag_ok h
  rw [List.getD_eq_getElem _ _ hle] at hget
  rw [← hb, hget]
  exact (List.take_concat_get' buf cur hle).symm

/-- A checksum that passed is `CK` of what was consumed after the opening flag; its bytes are the value's, low byte first
(R43, R162). -/
theorem callCheck_consumes {kind : CkKind} {v : Half} (h : callCheck ck kind buf cur = .ok (v, c)) :
    buf.take c = buf.take cur ++ (halfBytes v).reverse ∧ v = ck ((buf.take cur).drop 1) := by
  obtain ⟨-, -, hv⟩ := callCheck_ok h
  rw [List.drop_take]
  refine ⟨?_, hv⟩
  rw [callCheck] at h
  obtain ⟨⟨bs, next⟩, hread, h⟩ := except_bind_ok h
  dsimp only at h
  split at h
  · cases h
  · cases h
    obtain ⟨htake, hlen⟩ := callRead_consumes hread
    obtain ⟨b0, b1, rfl⟩ := List.length_eq_two.1 hlen
    exact htake.trans (congrArg _ (wire_of_swap16 b0 b1).symm)

end

/-! #### The address loop (R103) -/

/-- The bytes of an address field of which at most `fuel` are read: a byte before the last has no stop bit, and the last
one has it where fewer than `fuel` were read. -/
def StopsWithin (fuel : Nat) (bs : List Byte) : Prop :=
  (∀ k, k + 1 < bs.length → astop (bs.getD k 0#8) = 0#1) ∧
  (bs.length < fuel → astop (bs.getD (bs.length - 1) 0#8) = 1#1)

/-- A whole address field is one to four bytes that stop within four. -/
theorem addressField_iff (bs : List Byte) :
    addressField bs ↔ 1 ≤ bs.length ∧ bs.length ≤ Config.addrMax ∧ StopsWithin Config.addrMax bs := Iff.rfl

theorem stopsWithin_singleton {b : Byte} (hb : astop b = 1#1) (fuel : Nat) : StopsWithin fuel [b] :=
  ⟨fun k hk => by simp at hk, fun _ => hb⟩

/-- A byte without the stop bit goes before the rest of the field. -/
theorem stopsWithin_cons {fuel : Nat} {b : Byte} {bs : List Byte} (hb : astop b ≠ 1#1) (hne : 0 < fuel → bs ≠ [])
    (h : StopsWithin fuel bs) : StopsWithin (fuel + 1) (b :: bs) := by
  obtain ⟨hgo, hstop⟩ := h
  constructor
  · intro k hk
    cases k with
    | zero => exact BitVec.eq_zero_or_eq_one _ |>.resolve_right hb
    | succ k => exact hgo k (by simpa using hk)
  · intro hlt
    rw [List.length_cons, Nat.add_lt_add_iff_right] at hlt
    obtain ⟨x, xs, rfl⟩ := List.exists_cons_of_ne_nil (hne (by omega))
    exact hstop hlt

/-- The address loop adds to `acc` the bytes that it consumes, up to the stop bit. -/
theorem callAddr_consumes {buf : List Byte} {fuel : Nat} {acc bs : List Byte} {cur c : Nat}
    (h : callAddr buf fuel acc cur = .ok (bs, c)) :
    ∃ new, bs = acc ++ new ∧ buf.take c = buf.take cur ++ new ∧ (0 < fuel → new ≠ []) ∧ StopsWithin fuel new := by
  induction fuel generalizing acc cur with
  | zero =>
    cases h
    exact ⟨[], by simp, by simp, by simp, by simp [StopsWithin]⟩
  | succ fuel ih =>
    rw [callAddr] at h
    obtain ⟨⟨xs, d⟩, hread, h⟩ := except_bind_ok h
    have htake := callRead_consumes_byte hread
    dsimp only at h
    split at h
    next hstop =>
      cases h
      exact ⟨_, rfl, htake, fun _ => List.cons_ne_nil _ _, stopsWithin_singleton hstop _⟩
    next hgo =>
      obtain ⟨new, hbs, hrest, hne, hnew⟩ := ih h
      refine ⟨xs.getD 0 0#8 :: new, ?_, ?_, fun _ => List.cons_ne_nil _ _, stopsWithin_cons hgo hne hnew⟩
      · rw [hbs, List.append_assoc, List.singleton_append]
      · rw [hrest, htake, List.append_assoc, List.singleton_append]

/-- An address that the whole call read is a whole address field, laid out where it was read (R103, R104). -/
theorem callAddr_addressField {buf bs : List Byte} {cur c : Nat}
    (h : callAddr buf Config.addrMax [] cur = .ok (bs, c)) :
    buf.take c = buf.take cur ++ bs ∧ addressField bs := by
  obtain ⟨h1, h4, -⟩ := callAddr_field h
  obtain ⟨new, rfl, htake, -, hstops⟩ := callAddr_consumes h
  exact ⟨htake, (addressField_iff _).2 ⟨h1, h4, hstops⟩⟩

/-! #### The payload and the whole frame (R232) -/

/-- The payload of a frame: the information with its FCS. -/
theorem callPayload_consumes {ck : List Byte → Half} {buf : List Byte} {len : BitVec 11} {cur c : Nat}
    {info : Option (List Byte)} {fcs : Option Half} (h : callPayload ck buf len cur = .ok (info, fcs, c)) :
    buf.take c = buf.take cur ++ payloadBytes (info.bind fun i => fcs.map fun v => (i, v)) ∧
      info.isSome = fcs.isSome ∧ c = len.toNat + 1 ∧
      ∀ v, fcs = some v → v = ck ((buf.drop 1).take (len.toNat - 2)) := by
  obtain ⟨rfl, rfl, rfl, hlen⟩ | ⟨bs, v, rfl, rfl, hlen, rfl, hread, hcheck⟩ := callPayload_ok h
  · exact ⟨(List.append_nil _).symm, rfl, by omega, by simp⟩
  · obtain ⟨hinfo, -⟩ := callRead_consumes hread
    obtain ⟨hfcs, hv⟩ := callCheck_consumes hcheck
    refine ⟨?_, rfl, rfl, ?_⟩
    · rw [hfcs, hinfo, List.append_assoc]
      rfl
    · rintro _ ⟨⟩
      have hrange : cur + bs.length - 1 = len.toNat - 2 := by omega
      rw [hv, List.drop_take, hrange]

/-- Settles O40: each read extends the consumed bytes by its field, so the bytes consumed in the end are the frame's. -/
theorem wholeCallFailsClosed : Obligations.WholeCallFailsClosed := by
  intro ck buf fr hcall
  obtain ⟨n, hrun⟩ := decodeCall_ok_iff.1 hcall
  obtain ⟨fmt, ctl, c, hflag, hfmt, hdest, hsrc, hctl, hhcs, hpay, hend, hlen, hseg, htype, hcontrol⟩ :=
    decodeRun_ok hrun
  obtain ⟨-, -, hflagByte, -⟩ := callFlag_ok hflag
  obtain ⟨rfl, hfits, hendByte, -⟩ := callFlag_ok hend
  have hflag := callFlag_consumes hflag
  have hfmt := callRead_consumes_half hfmt
  obtain ⟨hdest, hdestField⟩ := callAddr_addressField hdest
  obtain ⟨hsrc, hsrcField⟩ := callAddr_addressField hsrc
  have hctl := callRead_consumes_byte hctl
  obtain ⟨hhcs, hhcsValue⟩ := callCheck_consumes hhcs
  obtain ⟨hpay, hboth, rfl, hfcsValue⟩ := callPayload_consumes hpay
  have hend := callFlag_consumes hend
  rw [hctl, hsrc, hdest, hfmt, hflag] at hhcs hhcsValue
  refine ⟨be16Seq fmt, ctl.getD 0 0#8, buf.drop (fr.frameLen.toNat + 1 + 1), ?_, hboth, hdestField, hsrcField, hlen,
    hseg, htype, hcontrol, ?_, hflagByte, hendByte, hhcsValue, hfcsValue⟩
  · rw [hpay, hhcs, List.take_zero, List.nil_append] at hend
    rw [frameBytes, ← hend, List.take_append_drop]
  · rw [List.length_drop]
    omega

end Sys2Proof.Machine
